-- ==== Sys2Proof/Word.lean ====
section
/-! DEFINITION. The word types of the block (spec/00_scope.md R7, R18): a host-visible register and a cell of A are 64
bits wide, a byte of M is 8 bits, and the block's native float is a 32-bit pattern. -/

namespace Sys2Proof

/-- A host-visible register or a cell of the output array A (R7). -/
abbrev Word := BitVec 64

/-- A byte of the buffer M (R7). -/
abbrev Byte := BitVec 8

/-- A binary32 pattern: the block's native float (R18, R170). -/
abbrev F32 := BitVec 32

end Sys2Proof
end

