-- ==== Sys2Proof/Config.lean ====
section
/-! DEFINITION. The parameters of one instance of the block (spec/00_scope.md R6), as plain data, and the values the spec
leaves open. A claim over every state is a claim over every parameter choice: the parameters stand in a field of State that
no step changes (R99). The contents of the default ROM and DISPATCH are in Machine/Rom.lean. -/

namespace Sys2Proof

/-- MAX_W: the largest width the bit-I/O commands accept, 32 or 64 (R6). -/
inductive MaxWidth where
  | w32
  | w64
  deriving DecidableEq, Repr

/-- The octet width of a template entry, one of 1, 2 and 4 (R190). -/
inductive OctetWidth where
  | one
  | two
  | four
  deriving DecidableEq, Repr

/-- One fixed field of a template: its width in octets and whether it is signed (R190). -/
structure TemplateEntry where
  octets : OctetWidth
  signed : Bool
  deriving DecidableEq, Repr

/-- The extension rule of an extensible template (R190): how many 4-octet signed fields follow the fixed ones, as a
function of the values of the fixed ones. `sumOf` is the form the default ROM uses; `uninterpreted k` is any other
function, a value of `Config.freeExtensionCount`. -/
inductive ExtensionRule where
  | sumOf (entries : List Nat)
  | uninterpreted (k : Nat)
  deriving DecidableEq, Repr

/-- Which fixed entries of a grid template hold the width, the height and the scanning mode (R190, R194). -/
structure Geometry where
  iNx : Nat
  iNy : Nat
  iScan : Nat
  deriving DecidableEq, Repr

/-- A template descriptor (R190). `extension` is the spec's `needExt` and `ext` together: none when needExt is false. -/
structure Descriptor where
  entries : List TemplateEntry
  extension : Option ExtensionRule
  geometry : Option Geometry
  deriving DecidableEq, Repr

/-- The template spaces 3.NN, 4.NN and 5.NN (R191). -/
inductive TemplateKind where
  | grid
  | product
  | dataRep
  deriving DecidableEq, Repr

/-- One entry of the template registry ROM (R47, R190, R191). -/
structure RomRow where
  kind : TemplateKind
  number : Nat
  descriptor : Descriptor
  deriving DecidableEq, Repr

/-- The Section 7 algorithms of the dispatch table (R291). -/
inductive Algorithm where
  | simple
  | jpeg2000
  | png
  | aec
  | rle
  deriving DecidableEq, Repr

/-- The parameter RECON (R310): its default STEP32, the alternative EXACT, or any other function, a value of
`Config.freeRecon`. -/
inductive ReconRule where
  | step32
  | exact
  | uninterpreted (k : Nat)
  deriving DecidableEq, Repr

/-- The parameter OPT_LIST_RULE (R227). -/
inductive OptListRule where
  | countEntries
  | widthOctets
  deriving DecidableEq, Repr

/-- What the host may do to the registers other than CMD, CTRL and STATUS while BUSY = 1, where the rules of the spec differ
(log entry 7, DESIGN CHOICE): `allowed` is R341, R400 and R401, `excluded` is R84 and R93. -/
inductive BusyRegisterRule where
  | allowed
  | excluded
  deriving DecidableEq, Repr

/-- The linear-reconstruction parameters of a field (R293): reference pattern, binary scale, decimal scale, bit width. -/
structure LinearParams where
  rpat : F32
  e : Int
  d : Int
  nb : Nat
  deriving DecidableEq, Repr, Inhabited

/-- The parameter RLE_PARAMS when present (R293): which DRT values hold R, E, D and nbits, or any other function, a value
of `Config.freeRleParams`. -/
inductive RleRule where
  | entries (iR iE iD iNb : Nat)
  | uninterpreted (k : Nat)
  deriving DecidableEq, Repr

/-- A request of the engine to the codec agent (R300). `payload` is a copy of the section's octets. -/
structure CodecRequest where
  algorithm : Algorithm
  drtNum : Word
  payload : List Byte
  width : Nat
  height : Nat
  depth : Nat
  drtValues : List Word
  codecCfg : Nat
  deriving DecidableEq, Repr

/-- An answer of the codec agent (R300): samples, or a failure. -/
inductive CodecAnswer where
  | samples (xs : List Nat)
  | fail
  deriving DecidableEq, Repr

/-- The parameters of one instance (R6). `rleParams` is none when RLE_PARAMS is absent. `codecCfg` stands for the opaque
CODEC_CFG. The parameter EXT is the input `Turn.codec` and the free value `Config.codecAnswer`. `busyRegisters` is
no parameter of R6: it is the model's, for the two readings of log entry 7. -/
structure Config where
  bufBytes : Nat
  aCells : Nat
  maxW : MaxWidth
  drtMax : Nat
  rom : List RomRow
  dispatch : List (Nat × Algorithm)
  hasJpeg2000 : Bool
  hasPng : Bool
  hasAec : Bool
  hasRle : Bool
  rleParams : Option RleRule
  recon : ReconRule
  optListRule : OptListRule
  codecCfg : Nat
  busyRegisters : BusyRegisterRule
  deriving DecidableEq, Repr

/-- FREE VALUE. The extension functions `ext` of R190 that are not of the form `sumOf`, by number. -/
opaque Config.freeExtensionCount : Nat → List Int → Nat

/-- FREE VALUE. The reconstructions RECON of R310 other than STEP32 and EXACT, by number: X, Rpat, E, D to a pattern. -/
opaque Config.freeRecon : Nat → Nat → F32 → Int → Int → F32

/-- FREE VALUE. The functions RLE_PARAMS of R293 that are not of the form `entries`, by number. -/
opaque Config.freeRleParams : Nat → List Word → LinearParams

/-- FREE VALUE. The oracle EXT (R300, R303): what the codec agent does at its n-th opportunity, given the waiting request.
`none` is no answer yet (R402). The first argument is the counter `State.draws`, so that equal requests may get different
answers. -/
opaque Config.codecAnswer : Nat → CodecRequest → Option CodecAnswer

end Sys2Proof
end

