-- ==== Sys2Proof/Syntax.lean ====
section
/-! DEFINITION. The commands of the block: one constructor per row of spec/opcode_table.json (spec/30_encoding.md R114),
carrying the immediates the row uses (R111, R113): the width W of the four bit-I/O commands and the flag G of UNPK3. Every
other operand is an operand register. -/

namespace Sys2Proof

inductive Instr where
  | nop
  | gbit (w : BitVec 7)
  | gbits (w : BitVec 7)
  | sbit (w : BitVec 7)
  | sbits (w : BitVec 7)
  | rdieee
  | mkieee
  | unpk0
  | unpk1
  | unpk2
  | unpk3 (g : Bool)
  | unpk4
  | unpk5
  | unpk6
  | unpk7
  | chkend
  | skipsec
  deriving DecidableEq, Repr

end Sys2Proof
end

