-- ==== Sys2Proof/WellFormed.lean ====
section
/-! DEFINITION. What a command must satisfy beyond its shape: the width of a bit-I/O command is at most MAX_W
(spec/30_encoding.md R115, R116). Also the bounds spec/00_scope.md R6 puts on the parameters. -/

namespace Sys2Proof

/-- MAX_W as a number of bits (R6). -/
def MaxWidth.bits : MaxWidth → Nat
  | .w32 => 32
  | .w64 => 64

/-- The number of octets of a template entry (R190). -/
def OctetWidth.count : OctetWidth → Nat
  | .one => 1
  | .two => 2
  | .four => 4

/-- A well-formed command: W <= MAX_W where the command has a width (R115). -/
def Instr.wf (maxW : Nat) : Instr → Bool
  | .gbit w | .gbits w | .sbit w | .sbits w => w.toNat ≤ maxW
  | .nop | .rdieee | .mkieee | .unpk0 | .unpk1 | .unpk2 | .unpk3 _ | .unpk4 | .unpk5 | .unpk6 | .unpk7 | .chkend
  | .skipsec => true

/-- The indices a descriptor names are indices of its fixed entries (R190). -/
def Descriptor.wf (t : Descriptor) : Bool :=
  (match t.geometry with
    | none => true
    | some g => g.iNx < t.entries.length && g.iNy < t.entries.length && g.iScan < t.entries.length) &&
  (match t.extension with
    | some (.sumOf idx) => idx.all (· < t.entries.length)
    | _ => true)

/-- The bounds of R6: 1 <= BUF_BYTES < 2^60, A_CELLS >= 1, DRT_MAX >= 16; template numbers have 16 bits (R191). -/
def Config.wf (c : Config) : Bool :=
  1 ≤ c.bufBytes && c.bufBytes < 2 ^ 60 && 1 ≤ c.aCells && 16 ≤ c.drtMax &&
  c.rom.all (fun r => r.number < 2 ^ 16 && r.descriptor.wf)

end Sys2Proof
end

