-- ==== Sys2Proof/Machine/Rom.lean ====
section
/-! DEFINITION. The default contents of the template registry ROM (spec/42_templates.md R196) and of the dispatch table
DISPATCH (spec/44_decompress.md R291), and the parameter choice of the instance that State.reset describes. Both tables are
the spec's own defaults, marked there as general knowledge (spec/93_implementation_defined.md G9-G11). -/

namespace Sys2Proof.Machine

/-- An unsigned entry of 1, 2 or 4 octets, and a signed one, in the notation of R196 (`1u`, `4s`). -/
def u1 : TemplateEntry := ⟨.one, false⟩
def u2 : TemplateEntry := ⟨.two, false⟩
def u4 : TemplateEntry := ⟨.four, false⟩
def s1 : TemplateEntry := ⟨.one, true⟩
def s2 : TemplateEntry := ⟨.two, true⟩
def s4 : TemplateEntry := ⟨.four, true⟩

/-- Template 3.0, latitude/longitude (R196). -/
def tpl3_0 : Descriptor :=
  ⟨[u1, u1, u4, u1, u4, u1, u4, u4, u4, u4, u4, s4, u4, u1, s4, u4, u4, u4, u1], none, some ⟨7, 8, 18⟩⟩

/-- Template 4.0, analysis or forecast at a point in time (R196). -/
def tpl4_0 : Descriptor :=
  ⟨[u1, u1, u1, u1, u1, u2, u1, u1, u4, u1, s1, s4, u1, s1, s4], none, none⟩

/-- Templates 5.0 and 5.41: simple packing, PNG (R196). -/
def tpl5_0 : Descriptor := ⟨[u4, s2, s2, u1, u1], none, none⟩

/-- Template 5.1, matrix values, extended by `vals[10] + vals[12]` fields (R196). -/
def tpl5_1 : Descriptor :=
  ⟨[u4, s2, s2, u1, u1, u1, u4, u2, u2, u1, u1, u1, u1, u1, u1], some (.sumOf [10, 12]), none⟩

/-- Template 5.40, JPEG2000 (R196). -/
def tpl5_40 : Descriptor := ⟨[u4, s2, s2, u1, u1, u1, u1], none, none⟩

/-- Template 5.42, CCSDS (R196). -/
def tpl5_42 : Descriptor := ⟨[u4, s2, s2, u1, u1, u1, u1, u2], none, none⟩

/-- The default ROM (R196); every other kind and number is unrecognized. -/
def defaultRom : List RomRow :=
  [⟨.grid, 0, tpl3_0⟩, ⟨.product, 0, tpl4_0⟩, ⟨.dataRep, 0, tpl5_0⟩, ⟨.dataRep, 1, tpl5_1⟩, ⟨.dataRep, 40, tpl5_40⟩,
   ⟨.dataRep, 41, tpl5_0⟩, ⟨.dataRep, 42, tpl5_42⟩, ⟨.dataRep, 40000, tpl5_40⟩, ⟨.dataRep, 40010, tpl5_0⟩]

/-- The default DISPATCH (R291). -/
def defaultDispatch : List (Nat × Algorithm) :=
  [(0, .simple), (40, .jpeg2000), (40000, .jpeg2000), (41, .png), (40010, .png), (42, .aec), (200, .rle)]

/-- The parameters of the instance State.reset describes: every default of R6, and for the parameters R6 leaves OPEN the
values of log entry 1 (DESIGN CHOICE): BUF_BYTES 256 and A_CELLS 128, no optional codec, CODEC_CFG 0. For `busyRegisters` the
reading of R341, R400 and R401 (DESIGN CHOICE, log entry 7). -/
def defaultConfig : Config :=
  { bufBytes := 256, aCells := 128, maxW := .w64, drtMax := 64, rom := defaultRom, dispatch := defaultDispatch,
    hasJpeg2000 := false, hasPng := false, hasAec := false, hasRle := false, rleParams := none, recon := .step32,
    optListRule := .countEntries, codecCfg := 0, busyRegisters := .allowed }

end Sys2Proof.Machine
end

