-- ==== Sys2Proof/Machine/State.lean ====
section
/-! DEFINITION. The state of the block (spec/10_state.md R30-R48, spec/20_memory.md R84, spec/70_reset_and_hazards.md R390),
the reasons a step can stop, and the state after power-on reset. Three kinds of agent act on it (R30): the host, the engine
and the codec agent. The moves of the host and the answers of the codec agent come from outside the block: they stand in the
input field `turns`, in the order in which they happen (log entry 2). -/

namespace Sys2Proof.Machine

/-- A sparse memory of n-bit units: pairs of an address and a value, in the canonical form of `Sparse.wf`
(Machine/Ops.lean); an address not listed reads as zero (log entry 3). -/
abbrev Sparse (n : Nat) := List (Nat × BitVec n)

/-- The byte buffer M (R40), a list of Host.Cell. -/
abbrev Memory := Sparse 8

/-- The error codes of classes 1 to 4 of R351. -/
inductive ErrorCode where
  | notGrib
  | wrongEdition
  | wrongSection
  | badOrder
  | badSectionLength
  | sectionPastMessage
  | noEnd
  | lengthMismatch
  | noPriorBitmap
  | shortPayload
  | noContext
  | unrecognizedTemplate
  | predefinedBitmap
  | codecDisabled
  | unsupportedDrt
  | badNbits
  | codecFailed
  | sampleCount
  | geometryUnknown
  | badListWidth
  | noSpace
  | drtTooLong
  | illegalCmd
  | illegalWidth
  | srcRange
  deriving DecidableEq, Repr

/-- STATUS.CODE (R35, R351): the two success codes, an error code, or the block's one fault. -/
inductive StatusCode where
  | ok
  | okOpaque
  | error (e : ErrorCode)
  | faultOob
  deriving DecidableEq, Repr

/-- How a command ends other than by a commit: `raise CODE(info)` (R350). The info is kept for FAULT_OOB alone (R350). -/
inductive Raise where
  | error (e : ErrorCode)
  | oob (address : Nat)
  deriving DecidableEq, Repr

/-- The operand registers of R38. -/
structure OperandRegs where
  bitoff : Word
  count : Word
  skip : Word
  dst : Word
  src : Word
  value : Word
  cursor : Word
  deriving DecidableEq, Repr

/-- The result registers of R39. -/
structure ResultRegs where
  result : Word
  nextoff : Word
  outLen : Word
  tplLen : Word
  listLen : Word
  deriving DecidableEq, Repr

/-- The message context registers of R44, and the four flags of CTXFLAGS (R45; its other bits read 0). -/
structure ContextRegs where
  msgStart : Word
  msgLen : Word
  discipline : Word
  edition : Word
  lastSec : Word
  ngptsValid : Bool
  drtValid : Bool
  haveBmap : Bool
  geomValid : Bool
  ngpts : Word
  gdtNum : Word
  nx : Word
  ny : Word
  scan : Word
  pdtNum : Word
  nv : Word
  ndpts : Word
  drtNum : Word
  drtLen : Word
  bmapInd : Word
  seclen : Word
  deriving DecidableEq, Repr

/-- What the engine holds while it waits for the codec agent (R48, R292): the request and the copies the second step uses.
`serial` tells this request from any other (log entry 5). -/
structure Pending where
  serial : Nat
  req : CodecRequest
  a : Nat
  len : Nat
  dst : Nat
  n : Nat
  params : LinearParams
  deriving DecidableEq, Repr

/-- The hidden sequencing state PHASE (R48). `issued` holds the whole 64-bit value written to CMD (R34, R115). -/
inductive Phase where
  | idle
  | issued (v : Word)
  | waiting (p : Pending)
  | answered (p : Pending) (ans : CodecAnswer)
  deriving DecidableEq, Repr

/-- One access of the host at the host port (R84, R341). A register access names a byte offset and an access width in bits
(R50). `poll` is one turn of the loop `wait` of R119. -/
inductive HostMove where
  | regRead (offset width : Nat)
  | regWrite (offset width : Nat) (v : Word)
  | mRead (a : Nat)
  | mWrite (a : Nat) (b : Byte)
  | aRead (i : Nat)
  | aWrite (i : Nat) (v : Word)
  | poll
  deriving DecidableEq, Repr

/-- Who moves, and how (R341): the host makes an access, the block makes its own enabled move, or the codec agent answers
the request of the given serial number. -/
inductive Turn where
  | host (m : HostMove)
  | block
  | codec (serial : Nat) (ans : CodecAnswer)
  deriving DecidableEq, Repr

/-- What the host port gave back for a host read. -/
inductive HostReply where
  | reg (v : Word)
  | byte (b : Byte)
  | cell (v : Word)
  deriving DecidableEq, Repr

/-- The state of the block. `cfg` is the parameters of R6, which no step changes (R99). `mem`, `arr` and `drtv` are M (R40),
A (R41) and DRTV (R43). `code`, `fault` and `phase` make STATUS (R35). `turns`, `reply`, `reqSerial` and `draws` are the
model's own fields: the moves from outside still to come, the value the host port last gave back, the number of codec
requests sent so far, and the counter of the free value `Config.codecAnswer`. CMD and CTRL hold nothing: both read 0
(R34, R36). -/
structure State where
  cfg : Config
  mem : Memory
  arr : Sparse 64
  drtv : Sparse 64
  code : StatusCode
  fault : Bool
  faultInfo : Word
  op : OperandRegs
  res : ResultRegs
  ctx : ContextRegs
  phase : Phase
  turns : List Turn
  reply : Option HostReply
  reqSerial : Nat
  draws : Nat
  deriving DecidableEq, Repr

/-- Why a step faults: the HOST addressed something that the spec says does not exist. No command of the block ends so:
FAULT_OOB, the block's own fault (R355), is a status it goes on from (it ignores CMD until a reset), hence a next state with
STATUS.FAULT = 1. All are safe: the spec gives the host no such move (R50, R84), so such a host program is outside it. -/
inductive Fault where
  /-- raised by the host port: a register offset that is unmapped or no multiple of 8 (R50); safe. -/
  | hostUnmappedRegister (offset : Nat)
  /-- raised by the host port: an access to M at an address at or above BUF_BYTES (R84); safe. -/
  | hostMemoryRange (a : Nat)
  /-- raised by the host port: an access to A at an index at or above A_CELLS (R84); safe. -/
  | hostArrayRange (i : Nat)
  deriving DecidableEq, Repr

/-- Why a step is refused. Apart from `notModelled`, each constructor is an access of the HOST for which the spec says the
model has no move (R34, R50, R84, R93, R400); no command is refused. All are safe: a host program that makes such an access is
outside the spec. -/
inductive Refusal where
  /-- raised by exec for a command that has no meaning yet; safe. -/
  | notModelled (mnemonic : String)
  /-- raised by the host port: a register access whose width is not 64 bits (R50); safe. -/
  | hostAccessWidth (width : Nat)
  /-- raised by the host port: a write to CMD while BUSY = 1 (R34, R400); safe. -/
  | hostCmdWhileBusy
  /-- raised by the host port: an access to M or A while BUSY = 1 (R84, R400); safe. -/
  | hostStorageWhileBusy
  /-- raised by the host port: an access to a register other than CMD, CTRL and STATUS while BUSY = 1, in a block whose
  `busyRegisters` is `excluded` (R84, R93; log entry 7); safe. -/
  | hostRegisterWhileBusy
  deriving DecidableEq, Repr

/-- The operand registers after reset (R390). -/
def OperandRegs.reset : OperandRegs := ⟨0, 0, 0, 0, 0, 0, 0⟩

/-- The result registers after reset (R390). -/
def ResultRegs.reset : ResultRegs := ⟨0, 0, 0, 0, 0⟩

/-- The context registers after reset (R390): all 0 but LAST_SEC, which is 0xFF (no message open). -/
def ContextRegs.reset : ContextRegs :=
  ⟨0, 0, 0, 0, 0xFF, false, false, false, false, 0, 0, 0, 0, 0, 0, 0, 0, 0, 0, 0, 0⟩

/-- The state after power-on reset (R390) of the instance with parameters `cfg`, whose M and A happen to hold `mem` and
`arr`: their contents are unspecified, and the spec lets a model take them as arguments. -/
def State.powerOn (cfg : Config) (mem : Memory) (arr : Sparse 64) : State :=
  { cfg := cfg, mem := mem, arr := arr, drtv := [], code := .ok, fault := false, faultInfo := 0,
    op := OperandRegs.reset, res := ResultRegs.reset, ctx := ContextRegs.reset, phase := .idle, turns := [],
    reply := none, reqSerial := 0, draws := 0 }

/-- The state after power-on reset of the default instance, with nothing listed in M or A (log entries 1 and 3). -/
def State.reset : State := State.powerOn defaultConfig [] []

end Sys2Proof.Machine
end

