-- ==== Sys2Proof/Machine/Ops.lean ====
section
/-! DEFINITION. The shared operations over the state: sparse memories, the bit access of spec/00_scope.md R9-R12, how a
command ends (R16; spec/60_exceptions.md R350, R352, R355), opening and closing a section (spec/43_sections.md R220, R221,
R223), and soft reset (spec/70_reset_and_hazards.md R391). -/

namespace Sys2Proof.Machine

/-! ### Sparse memories -/

/-- What an address that is not listed reads as (log entry 3). -/
def Sparse.unlisted (n : Nat) : BitVec n := 0

/-- The value at an address. -/
def Sparse.read {n : Nat} : Sparse n → Nat → BitVec n
  | [], _ => Sparse.unlisted n
  | (k, v) :: rest, a => if k = a then v else Sparse.read rest a

/-- The memory with a new value at an address, in canonical form: a value equal to `Sparse.unlisted` is not listed. -/
def Sparse.write {n : Nat} : Sparse n → Nat → BitVec n → Sparse n
  | [], a, v => if v = Sparse.unlisted n then [] else [(a, v)]
  | (k, w) :: rest, a, v =>
    if a < k then (if v = Sparse.unlisted n then (k, w) :: rest else (a, v) :: (k, w) :: rest)
    else if a = k then (if v = Sparse.unlisted n then rest else (a, v) :: rest)
    else (k, w) :: Sparse.write rest a v

/-- The canonical form from address `lo` on: addresses strictly rising, no listed value equal to `Sparse.unlisted`. -/
def Sparse.wfFrom {n : Nat} : Nat → Sparse n → Bool
  | _, [] => true
  | lo, (k, v) :: rest => lo ≤ k && v ≠ Sparse.unlisted n && Sparse.wfFrom (k + 1) rest

/-- The canonical form of a sparse memory. -/
def Sparse.wf {n : Nat} (m : Sparse n) : Bool := Sparse.wfFrom 0 m

/-- The canonical form of the byte buffer M. -/
def Memory.wf (m : Memory) : Bool := Sparse.wf m

/-- Every listed address is below `bound`. -/
def Sparse.below {n : Nat} (bound : Nat) (m : Sparse n) : Bool := m.all (fun e => e.1 < bound)

/-- The memory with a run of values written from address `d` on. -/
def Sparse.writeRun {n : Nat} (m : Sparse n) (d : Nat) : List (BitVec n) → Sparse n
  | [] => m
  | v :: vs => Sparse.writeRun (Sparse.write m d v) (d + 1) vs

/-- The `count` values from address `d` on. -/
def Sparse.readRun {n : Nat} (m : Sparse n) (d count : Nat) : List (BitVec n) :=
  (List.range count).map (fun j => Sparse.read m (d + j))

/-! ### Bits and fields of M -/

/-- Buffer bit p: bit 7 - (p mod 8) of byte p div 8 (R9). -/
def bitM (m : Memory) (p : Nat) : Bool := (Sparse.read m (p / 8)).getLsbD (7 - p % 8)

/-- A byte with its bit i replaced. -/
def setByteBit (x : Byte) (i : Nat) (b : Bool) : Byte :=
  if b then x ||| (1#8 <<< i) else x &&& ~~~(1#8 <<< i)

/-- M with buffer bit p replaced (R9, R11). -/
def setBitM (m : Memory) (p : Nat) (b : Bool) : Memory :=
  Sparse.write m (p / 8) (setByteBit (Sparse.read m (p / 8)) (7 - p % 8) b)

/-- `getBitsM(p, w)` of R10: the w buffer bits from p on as an unsigned integer, the first the most significant. -/
def getBits (m : Memory) (p : Nat) : Nat → Nat
  | 0 => 0
  | w + 1 => 2 * getBits m p w + (bitM m (p + w)).toNat

/-- `setBitsM(p, w, v)` of R11: the low w bits of v written to buffer bits p .. p+w-1, most significant first. -/
def setBits (m : Memory) (p : Nat) : Nat → Nat → Memory
  | 0, _ => m
  | w + 1, v => setBits (setBitM m p (v.testBit w)) (p + 1) w v

/-- `MemRead(addr, n)` of R12: n bytes as one big-endian unsigned integer. -/
def memRead (m : Memory) (a n : Nat) : Nat := getBits m (8 * a) (8 * n)

/-- `MemWrite(addr, n, v)` of R12. -/
def memWrite (m : Memory) (a n v : Nat) : Memory := setBits m (8 * a) (8 * n) v

/-- The n bytes of M from byte address a on, each as a number: the octet-by-octet copies of R225, R226. -/
def memOctets (m : Memory) (a n : Nat) : List Nat := (List.range n).map (fun j => memRead m (a + j) 1)

/-! ### Cell encodings -/

/-- `zext_64` of R14: the 64-bit pattern of a natural. -/
def zext64 (n : Nat) : Word := BitVec.ofNat 64 n

/-- The cell of a template value (R42): `tc_64` for a signed value; for an unsigned one, which is below 2^64, this is
`zext_64`. -/
def cell (i : Int) : Word := BitVec.ofInt 64 i

/-- `tc64inv` of R293: a cell read as a two's-complement integer. -/
def tc64inv (c : Word) : Int := c.toInt

/-- `sm_N(v)` of R13: sign-magnitude decoding of an N-bit field. -/
def signMagnitude (n v : Nat) : Int :=
  if v.testBit (n - 1) then -((v % 2 ^ (n - 1) : Nat) : Int) else ((v % 2 ^ (n - 1) : Nat) : Int)

/-! ### How a command ends -/

/-- A check of a command's pseudocode: go on when it holds, else raise. -/
def need (ok : Bool) (r : Raise) : Except Raise Unit := if ok then .ok () else .error r

/-- A raise of a code of class 1 to 4. -/
def Raise.of (e : ErrorCode) : Raise := .error e

/-- `raise` (R350, R352, R355): the block's one way to take an error or its fault. STATUS.CODE is written, the output
lengths become 0, the command ends; FAULT_OOB also sets STATUS.FAULT and writes FAULT_INFO. Nothing else changes: the
block has no program counter, no saved state and no return (R358). -/
def State.raise (s : State) (r : Raise) : State :=
  match r with
  | .error e =>
    { s with code := .error e, res := { s.res with outLen := 0, tplLen := 0, listLen := 0 }, phase := .idle }
  | .oob address =>
    { s with code := .faultOob, fault := true, faultInfo := zext64 address,
             res := { s.res with outLen := 0, tplLen := 0, listLen := 0 }, phase := .idle }

/-- `commit code` (R350) of a command that returned `out` in A from cell d on (R39, R41): the cells, the three output
lengths and STATUS.CODE are written and the command ends. A command that returns no array has `out` empty. -/
def State.commit (s : State) (code : StatusCode) (d : Nat) (out : List Word) (tpl lst : Nat) : State :=
  { s with arr := Sparse.writeRun s.arr d out, code := code,
           res := { s.res with outLen := zext64 out.length, tplLen := zext64 tpl, listLen := zext64 lst },
           phase := .idle }

/-- The end of a command whose pseudocode is the given computation (R16): its staged state at a commit, and the state before
the command with the effects of the raise at a raise. -/
def endCommand (s : State) (run : Except Raise State) : Host.Outcome State Fault Refusal :=
  match run with
  | .ok t => .next t
  | .error r => .next (s.raise r)

/-! ### The access check -/

/-- `checkM(p, w)` of R140: a field of w bits at bit offset p must lie in M. -/
def checkM (s : State) (p w : Nat) : Except Raise Unit :=
  need (!(decide (w > 0) && decide ((p + w - 1) / 8 ≥ s.cfg.bufBytes))) (.oob (max (p / 8) s.cfg.bufBytes))

/-- The check that cells d .. d+n-1 of A exist for an output (R41): else NO_SPACE. -/
def needSpace (s : State) (d n : Nat) : Except Raise Unit := need (d + n ≤ s.cfg.aCells) (.error .noSpace)

/-- The check that cells q .. q+n-1 of A exist as a source (R91): else SRC_RANGE. -/
def needSource (s : State) (q n : Nat) : Except Raise Unit := need (q + n ≤ s.cfg.aCells) (.error .srcRange)

/-! ### Sections -/

/-- `succ(LAST_SEC)` of R221: the sections that may be handled next; none when no message is open. -/
def successors : Nat → List Nat
  | 0 => [1]
  | 1 => [2, 3]
  | 2 => [3]
  | 3 => [4]
  | 4 => [5]
  | 5 => [6]
  | 6 => [7]
  | 7 => [2, 3, 4, 8]
  | _ => []

/-- The minimum length of section k, 1 <= k <= 7 (R220). -/
def minLength : Nat → Nat
  | 1 => 21
  | 2 => 5
  | 3 => 14
  | 4 => 9
  | 5 => 11
  | 6 => 6
  | 7 => 5
  | _ => 0

/-- Whether byte address x lies past `mEnd = MSG_START + MSG_LEN - 4` (R223). The 4 stands on the left, so that nothing is
subtracted from a natural. -/
def State.pastMessage (s : State) (x : Nat) : Bool := x + 4 > s.ctx.msgStart.toNat + s.ctx.msgLen.toNat

/-- What `openSection` returns (R223): the section's first byte address and its length. -/
structure Section where
  a : Nat
  len : Nat
  deriving DecidableEq, Repr

/-- The byte address just past a section, the `e` of R223. -/
def Section.stop (sec : Section) : Nat := sec.a + sec.len

/-- `openSection(k, minLen)` of R223, with its checks in R223's order. -/
def openSection (s : State) (k minLen : Nat) : Except Raise Section := do
  let a := s.op.cursor.toNat
  need ((successors s.ctx.lastSec.toNat).contains k) (.error .badOrder)
  need (!s.pastMessage (a + 5)) (.error .sectionPastMessage)
  checkM s (8 * a) 40
  let len := memRead s.mem a 4
  need (memRead s.mem (a + 4) 1 == k) (.error .wrongSection)
  need (minLen ≤ len) (.error .badSectionLength)
  need (!s.pastMessage (a + len)) (.error .sectionPastMessage)
  checkM s (8 * a) (8 * len)
  .ok ⟨a, len⟩

/-- `closeSection(k, a, L)` of R223. -/
def State.closeSection (s : State) (k : Nat) (sec : Section) : State :=
  { s with op := { s.op with cursor := zext64 sec.stop },
           ctx := { s.ctx with lastSec := zext64 k, seclen := zext64 sec.len } }

/-! ### Soft reset -/

/-- Soft reset (R391): every register, DRTV and PHASE at the value of R390; M, A and the parameters unchanged. A codec
request that was outstanding is withdrawn, because PHASE no longer holds it. The fields of the world outside the block (the
host's pending moves, its last reply, the two counters) are not the block's to reset. -/
def State.softReset (s : State) : State :=
  { s with drtv := [], code := .ok, fault := false, faultInfo := 0, op := OperandRegs.reset, res := ResultRegs.reset,
           ctx := ContextRegs.reset, phase := .idle }

end Sys2Proof.Machine
end

