-- ==== Sys2Proof/Machine/Operands.lean ====
section
/-! DEFINITION. The operand forms of the commands: the operand registers read as naturals (spec/30_encoding.md R113,
spec/70_reset_and_hazards.md R401) and the positions of batched fields (spec/40_bitio.md R146). Offsets, counts and indices
are mathematical naturals, with no wrap-around (spec/00_scope.md R17). -/

namespace Sys2Proof.Machine

/-- BITOFF, COUNT, SKIP, DST, SRC and CURSOR as the naturals of the pseudocode (R113, R17, R38). -/
def State.bitoff (s : State) : Nat := s.op.bitoff.toNat
def State.count (s : State) : Nat := s.op.count.toNat
def State.skip (s : State) : Nat := s.op.skip.toNat
def State.dst (s : State) : Nat := s.op.dst.toNat
def State.src (s : State) : Nat := s.op.src.toNat
def State.value (s : State) : Nat := s.op.value.toNat
def State.cursor (s : State) : Nat := s.op.cursor.toNat

/-- The bit offset at which field i of a batch of w-bit fields starts (R146). -/
def fieldPos (p0 w skip i : Nat) : Nat := p0 + i * (w + skip)

/-- The access checks of n batched fields, in increasing index (R142, R144, R171, R172): the first field that reaches past M
raises. `i` is the index of the first field still to check. -/
def checkFields (s : State) (p0 w skip i : Nat) : Nat → Except Raise Unit
  | 0 => .ok ()
  | n + 1 => do
    checkM s (fieldPos p0 w skip i) w
    checkFields s p0 w skip (i + 1) n

/-- The values of n batched fields, as cells (R142, R171). -/
def readFields (m : Memory) (p0 w skip n : Nat) : List Word :=
  (List.range n).map (fun i => zext64 (getBits m (fieldPos p0 w skip i) w))

/-- M with batched fields written from the cells given, the first at index i (R144, R172): the low w bits of each. -/
def writeFields (m : Memory) (p0 w skip i : Nat) : List Word → Memory
  | [] => m
  | c :: cs => writeFields (setBits m (fieldPos p0 w skip i) w c.toNat) p0 w skip (i + 1) cs

/-- NEXTOFF after fields that end just before bit offset p: modulo 2^64 (R140, R17). -/
def State.setNextoff (s : State) (p : Nat) : State := { s with res := { s.res with nextoff := zext64 p } }

/-- RESULT written (R39). -/
def State.setResult (s : State) (v : Nat) : State := { s with res := { s.res with result := zext64 v } }

/-- M written (R40). -/
def State.setMem (s : State) (m : Memory) : State := { s with mem := m }

/-- CURSOR written (R38). -/
def State.setCursor (s : State) (a : Nat) : State := { s with op := { s.op with cursor := zext64 a } }

/-- The message context written (R44, R45). -/
def State.setCtx (s : State) (c : ContextRegs) : State := { s with ctx := c }

/-- DRTV written from entry 0 on (R43): entries past the end keep what they held. -/
def State.latchDrt (s : State) (vals : List Word) : State := { s with drtv := Sparse.writeRun s.drtv 0 vals }

end Sys2Proof.Machine
end

