-- ==== Sys2Proof/Machine/BitIO.lean ====
section
/-! DEFINITION. The bit-I/O commands GBIT, GBITS, SBIT and SBITS (spec/40_bitio.md R140-R144, R146). -/

namespace Sys2Proof.Machine

/-- GBIT (R141): extract one unsigned field into RESULT. -/
def runGbit (w : Nat) (s : State) : Except Raise State := do
  checkM s s.bitoff w
  .ok (((s.setResult (getBits s.mem s.bitoff w)).setNextoff (s.bitoff + w)).commit .ok 0 [] 0 0)

def execGbit (w : BitVec 7) (s : State) : Host.Outcome State Fault Refusal := endCommand s (runGbit w.toNat s)

/-- GBITS (R142): extract n unsigned fields of equal width into A. -/
def runGbits (w : Nat) (s : State) : Except Raise State := do
  needSpace s s.dst s.count
  checkFields s s.bitoff w s.skip 0 s.count
  .ok ((s.setNextoff (fieldPos s.bitoff w s.skip s.count)).commit .ok s.dst
    (readFields s.mem s.bitoff w s.skip s.count) 0 0)

def execGbits (w : BitVec 7) (s : State) : Host.Outcome State Fault Refusal := endCommand s (runGbits w.toNat s)

/-- SBIT (R143): insert one field. -/
def runSbit (w : Nat) (s : State) : Except Raise State := do
  checkM s s.bitoff w
  .ok (((s.setMem (setBits s.mem s.bitoff w s.value)).setNextoff (s.bitoff + w)).commit .ok 0 [] 0 0)

def execSbit (w : BitVec 7) (s : State) : Host.Outcome State Fault Refusal := endCommand s (runSbit w.toNat s)

/-- SBITS (R144): insert n fields of equal width from A. -/
def runSbits (w : Nat) (s : State) : Except Raise State := do
  needSource s s.src s.count
  checkFields s s.bitoff w s.skip 0 s.count
  .ok (((s.setMem (writeFields s.mem s.bitoff w s.skip 0 (Sparse.readRun s.arr s.src s.count))).setNextoff
    (fieldPos s.bitoff w s.skip s.count)).commit .ok 0 [] 0 0)

def execSbits (w : BitVec 7) (s : State) : Host.Outcome State Fault Refusal := endCommand s (runSbits w.toNat s)

end Sys2Proof.Machine
end

