-- ==== Sys2Proof/Machine/Control.lean ====
section
/-! DEFINITION. NOP (spec/49_control.md R340). -/

namespace Sys2Proof.Machine

/-- NOP (R340): status OK, the output lengths cleared. -/
def execNop (s : State) : Host.Outcome State Fault Refusal := endCommand s (.ok (s.commit .ok 0 [] 0 0))

end Sys2Proof.Machine
end

