-- ==== Sys2Proof/Machine/Float.lean ====
section
/-! DEFINITION. Binary32 arithmetic and the reconstruction RECON (spec/00_scope.md R18, spec/44_decompress.md R310). Exact
values are naturals and integers; each result is rounded once, to nearest with ties to even. -/

namespace Sys2Proof.Machine

/-- The number a binary32 pattern stands for (R18): a NaN, an infinity, or (-1)^neg * mant * 2^exp. -/
inductive F32Value where
  | nan
  | inf (neg : Bool)
  | finite (neg : Bool) (mant : Nat) (exp : Int)
  deriving DecidableEq, Repr

/-- The fields of a binary32 pattern (R18): bit 31 sign, bits 30:23 biased exponent, bits 22:0 fraction. -/
def f32Sign (f : F32) : Bool := f.getLsbD 31
def f32Biased (f : F32) : Nat := (f.extractLsb' 23 8).toNat
def f32Fraction (f : F32) : Nat := (f.extractLsb' 0 23).toNat

/-- The value of a pattern (R18). -/
def f32Value (f : F32) : F32Value :=
  if f32Biased f = 255 then (if f32Fraction f = 0 then .inf (f32Sign f) else .nan)
  else if f32Biased f = 0 then .finite (f32Sign f) (f32Fraction f) (-149)
  else .finite (f32Sign f) (2 ^ 23 + f32Fraction f) (f32Biased f - 150)

/-- num / den rounded to the nearest natural, ties to even. -/
def roundDiv (num den : Nat) : Nat :=
  let q := num / den
  let r := num % den
  if 2 * r < den then q else if 2 * r > den then q + 1 else q + q % 2

/-- 2^i for i >= 0, else 1: the numerator of the power 2^i. -/
def pow2 (i : Int) : Nat := 2 ^ i.toNat

/-- The binary exponent of num / den > 0: the e with 2^e <= num / den < 2^(e+1). -/
def binaryExponent (num den : Nat) : Int :=
  let l : Int := Nat.log2 num - Nat.log2 den
  if num * pow2 (-l) ≥ den * pow2 l then l else l - 1

/-- Bits 30:0 of `f32(num / den)` (R18): the nearest binary32 magnitude, ties to even, overflow to infinity. With the unit
2^q in the last place, the pattern of a magnitude m * 2^q is (q + 149) * 2^23 + m, for subnormals and normals alike. -/
def roundMagnitude (num den : Nat) : Nat :=
  if num = 0 then 0
  else
    let q : Int := max (binaryExponent num den - 23) (-149)
    min ((q + 149).toNat * 2 ^ 23 + roundDiv (num * pow2 (-q)) (den * pow2 q)) 0x7F800000

/-- `f32` of the real (-1)^neg * num / den (R18). -/
def f32 (neg : Bool) (num den : Nat) : F32 := BitVec.ofNat 32 (neg.toNat * 2 ^ 31 + roundMagnitude num den)

/-- `f32` of the real (-1)^neg * mant * 2^exp. -/
def f32Dyadic (neg : Bool) (mant : Nat) (exp : Int) : F32 := f32 neg (mant * pow2 exp) (pow2 (-exp))

/-- The infinity of a sign, and the NaN of a step with no NaN operand (R310). -/
def f32Inf (neg : Bool) : F32 := if neg then 0xFF800000 else 0x7F800000
def f32DefaultNan : F32 := 0x7FC00000

/-- A NaN operand with its quiet bit set (R310). -/
def quiet (f : F32) : F32 := f ||| 0x00400000

/-- (-1)^neg * mant as an integer. -/
def signedMant (neg : Bool) (mant : Nat) : Int := if neg then -(mant : Int) else mant

/-- The finite sum of two binary32 numbers, exact and then rounded; an exact zero is -0 only when both are negative (R310). -/
def addFinite (n1 : Bool) (m1 : Nat) (e1 : Int) (n2 : Bool) (m2 : Nat) (e2 : Int) : F32 :=
  let e := min e1 e2
  let sum := signedMant n1 (m1 * pow2 (e1 - e)) + signedMant n2 (m2 * pow2 (e2 - e))
  if sum = 0 then f32 (n1 && n2) 0 1 else f32Dyadic (sum < 0) sum.natAbs e

/-- `(+)` of R310: binary32 addition with the NaN rules of R310 (the left NaN operand first). -/
def f32Add (a b : F32) : F32 :=
  match f32Value a, f32Value b with
  | .nan, _ => quiet a
  | _, .nan => quiet b
  | .inf x, .inf y => if x = y then f32Inf x else f32DefaultNan
  | .inf x, .finite _ _ _ => f32Inf x
  | .finite _ _ _, .inf y => f32Inf y
  | .finite n1 m1 e1, .finite n2 m2 e2 => addFinite n1 m1 e1 n2 m2 e2

/-- `(*)` of R310: binary32 multiplication with the NaN rules of R310. The sign of a product of finite operands is that of
IEEE754 also where the product is rounded to zero (DESIGN CHOICE, log entry 22). -/
def f32Mul (a b : F32) : F32 :=
  match f32Value a, f32Value b with
  | .nan, _ => quiet a
  | _, .nan => quiet b
  | .inf x, .inf y => f32Inf (x ^^ y)
  | .inf x, .finite y m _ => if m = 0 then f32DefaultNan else f32Inf (x ^^ y)
  | .finite x m _, .inf y => if m = 0 then f32DefaultNan else f32Inf (x ^^ y)
  | .finite n1 m1 e1, .finite n2 m2 e2 => f32Dyadic (n1 ^^ n2) (m1 * m2) (e1 + e2)

/-- `f32(2^E)` (R310): exact for -149 <= E <= 127, 0 below, +infinity above. -/
def f32Pow2 (e : Int) : F32 :=
  if e < -149 then 0 else if e > 127 then f32Inf false else f32Dyadic false 1 e

/-- `f32(10^(-D))` (R310): rounded once from the exact real. -/
def f32Pow10Neg (d : Int) : F32 := f32 false (10 ^ (-d).toNat) (10 ^ d.toNat)

/-- `f32(X)` (R310). -/
def f32OfNat (x : Nat) : F32 := f32 false x 1

/-- RECON_STEP32 of R310: multiply, add, multiply, each rounded. A negative `u` times a nonzero 10^(-D) that is rounded to zero
gives -0 (DESIGN CHOICE, log entry 22). -/
def reconStep32 (x : Nat) (rpat : F32) (e d : Int) : F32 :=
  let t := f32Mul (f32OfNat x) (f32Pow2 e)
  let u := f32Add t rpat
  f32Mul u (f32Pow10Neg d)

/-- `f32((X * 2^E + r) * 10^(-D))` for r = (-1)^neg * mant * 2^exp, exact and rounded once (R310, EXACT). A negative real
too small for binary32 gives -0 (DEDUCED, log entry 9). -/
def exactFinite (x : Nat) (neg : Bool) (mant : Nat) (exp e d : Int) : F32 :=
  let low := min e exp
  let sum : Int := ((x * pow2 (e - low) : Nat) : Int) + signedMant neg (mant * pow2 (exp - low))
  f32 (sum < 0) (sum.natAbs * pow2 low * 10 ^ (-d).toNat) (pow2 (-low) * 10 ^ d.toNat)

/-- The other named value of RECON, EXACT (R310): a NaN r gives that NaN quieted, an infinite r gives r (DEDUCED, log entry 9). -/
def reconExact (x : Nat) (rpat : F32) (e d : Int) : F32 :=
  match f32Value rpat with
  | .nan => quiet rpat
  | .inf neg => f32Inf neg
  | .finite neg mant exp => exactFinite x neg mant exp e d

/-- The reconstruction RECON (R310). -/
def recon (rule : ReconRule) (x : Nat) (p : LinearParams) : F32 :=
  match rule with
  | .step32 => reconStep32 x p.rpat p.e p.d
  | .exact => reconExact x p.rpat p.e p.d
  | .uninterpreted k => Config.freeRecon k x p.rpat p.e p.d

end Sys2Proof.Machine
end

