-- ==== Sys2Proof/Machine/Ieee.lean ====
section
/-! DEFINITION. The float unpacker and packer RDIEEE and MKIEEE (spec/41_ieee.md R170-R172). The native float is the
binary32 pattern itself, so `ieeeRead` and `ieeeWrite` are 32-bit field accesses (R170), and a batch of patterns is a batch
of 32-bit fields with no bits between them. -/

namespace Sys2Proof.Machine

/-- `ieeeRead(p)` of R170. -/
def ieeeRead (m : Memory) (p : Nat) : F32 := BitVec.ofNat 32 (getBits m p 32)

/-- The cell of a binary32 pattern (R42): its 64-bit zero extension. -/
def floatCell (f : F32) : Word := f.setWidth 64

/-- The n patterns from bit offset p0 on, as cells (R171). -/
def readFloats (m : Memory) (p0 n : Nat) : List Word :=
  (List.range n).map (fun i => floatCell (ieeeRead m (p0 + 32 * i)))

/-- RDIEEE (R171): unpack n binary32 patterns from M into A. -/
def runRdieee (s : State) : Except Raise State := do
  needSpace s s.dst s.count
  checkFields s s.bitoff 32 0 0 s.count
  .ok ((s.setNextoff (s.bitoff + 32 * s.count)).commit .ok s.dst (readFloats s.mem s.bitoff s.count) 0 0)

def execRdieee (s : State) : Host.Outcome State Fault Refusal := endCommand s (runRdieee s)

/-- MKIEEE (R172): pack n native floats from A into M. -/
def runMkieee (s : State) : Except Raise State := do
  needSource s s.src s.count
  checkFields s s.bitoff 32 0 0 s.count
  .ok (((s.setMem (writeFields s.mem s.bitoff 32 0 0 (Sparse.readRun s.arr s.src s.count))).setNextoff
    (s.bitoff + 32 * s.count)).commit .ok 0 [] 0 0)

def execMkieee (s : State) : Host.Outcome State Fault Refusal := endCommand s (runMkieee s)

end Sys2Proof.Machine
end

