-- ==== Sys2Proof/Machine/Decompress.lean ====
section
/-! DEFINITION. UNPK7 and the decompressor dispatch (spec/44_decompress.md R290-R307). UNPK7 ends in its first step, or sends
a request to the codec agent and ends in a second step after the answer. -/

namespace Sys2Proof.Machine

/-- `DISPATCH(DRT_NUM)` of R291. -/
def dispatchLookup (table : List (Nat × Algorithm)) (drt : Nat) : Option Algorithm :=
  (table.find? (fun r => r.1 == drt)).map (·.2)

/-- Whether an algorithm is present: SIMPLE always, the others by their parameter (R291). -/
def hasAlgorithm (c : Config) : Algorithm → Bool
  | .simple => true
  | .jpeg2000 => c.hasJpeg2000
  | .png => c.hasPng
  | .aec => c.hasAec
  | .rle => c.hasRle

/-- The DRT values DRTV[0 .. DRT_LEN-1] (R43, R293). -/
def State.drtValues (s : State) : List Word := Sparse.readRun s.drtv 0 s.ctx.drtLen.toNat

/-- Reconstruction parameters taken from the four cells that hold R, E, D and nbits (R293). -/
def paramsFromCells (r e d nb : Word) : LinearParams := ⟨r.setWidth 32, tc64inv e, tc64inv d, nb.toNat⟩

/-- RLE_PARAMS applied to the DRT values (R293). -/
def rleParamsOf (rule : RleRule) (vals : List Word) : LinearParams :=
  match rule with
  | .entries iR iE iD iNb => paramsFromCells (vals.getD iR 0) (vals.getD iE 0) (vals.getD iD 0) (vals.getD iNb 0)
  | .uninterpreted k => Config.freeRleParams k vals

/-- The parameters of an algorithm (R293); none when they cannot be taken. -/
def linearParams (s : State) : Algorithm → Option LinearParams
  | .rle => s.cfg.rleParams.map (fun rule => rleParamsOf rule s.drtValues)
  | .simple | .jpeg2000 | .png | .aec =>
    if 4 ≤ s.ctx.drtLen.toNat then
      some (paramsFromCells (Sparse.read s.drtv 0) (Sparse.read s.drtv 1) (Sparse.read s.drtv 2) (Sparse.read s.drtv 3))
    else none

/-- An optional value, or a raise when it is absent. -/
def orRaise {α : Type} (x : Option α) (r : Raise) : Except Raise α :=
  match x with
  | some v => .ok v
  | none => .error r

/-- The output cells of integer samples (R292, R310). -/
def reconCells (rule : ReconRule) (p : LinearParams) (xs : List Nat) : List Word :=
  xs.map (fun x => floatCell (recon rule x p))

/-- The n samples of simple packing (R305): contiguous nb-bit fields from the first payload octet on. -/
def simpleSamples (m : Memory) (a n nb : Nat) : List Nat :=
  (List.range n).map (fun i => getBits m (8 * (a + 5) + i * nb) nb)

/-- The payload octets of Section 7 (R292, R300): a copy. -/
def payload (m : Memory) (sec : Section) : List Byte := Sparse.readRun m (sec.a + 5) (sec.len - 5)

/-- `finish7` of R292 for a section and output at cell d. -/
def finish7 (s : State) (sec : Section) (d : Nat) (out : List Word) : State :=
  (s.commit .ok d out 0 0).closeSection 7 sec

/-- What the engine holds while it waits (R292): the request, and the copies of the operands. -/
def pendingOf (s : State) (sec : Section) (alg : Algorithm) (p : LinearParams) : Pending :=
  { serial := s.reqSerial,
    req := { algorithm := alg, drtNum := s.ctx.drtNum, payload := payload s.mem sec, width := s.ctx.ndpts.toNat,
             height := 1, depth := p.nb, drtValues := s.drtValues, codecCfg := s.cfg.codecCfg },
    a := sec.a, len := sec.len, dst := s.dst, n := s.ctx.ndpts.toNat, params := p }

/-- PHASE <- WAITING(req) (R292): nothing else of the block changes; the model's count of requests goes up. -/
def State.sendRequest (s : State) (p : Pending) : State :=
  { s with phase := .waiting p, reqSerial := s.reqSerial + 1 }

/-- UNPK7 after its checks (R292): constant field, width refused, simple packing, or a request. -/
def decompress (s : State) (sec : Section) (alg : Algorithm) (p : LinearParams) : Except Raise State :=
  let n := s.ctx.ndpts.toNat
  if p.nb = 0 then .ok (finish7 s sec s.dst (List.replicate n (floatCell p.rpat)))
  else if p.nb > 32 then .error (.error .badNbits)
  else
    match alg with
    | .simple =>
      if n * p.nb > 8 * (sec.len - 5) then .error (.error .shortPayload)
      else .ok (finish7 s sec s.dst (reconCells s.cfg.recon p (simpleSamples s.mem sec.a n p.nb)))
    | .jpeg2000 | .png | .aec | .rle => .ok (s.sendRequest (pendingOf s sec alg p))

/-- UNPK7, first step (R292). -/
def runUnpk7 (s : State) : Except Raise State := do
  let sec ← openSection s 7 5
  need s.ctx.drtValid (.error .noContext)
  let alg ← orRaise (dispatchLookup s.cfg.dispatch s.ctx.drtNum.toNat) (.error .unsupportedDrt)
  need (hasAlgorithm s.cfg alg) (.error .codecDisabled)
  let p ← orRaise (linearParams s alg) (.error .unsupportedDrt)
  needSpace s s.dst s.ctx.ndpts.toNat
  decompress s sec alg p

def execUnpk7 (s : State) : Host.Outcome State Fault Refusal := endCommand s (runUnpk7 s)

/-- UNPK7, second step (R292, R304), with the copies of the waiting state and never the live registers (R401). -/
def runUnpk7Answer (p : Pending) (ans : CodecAnswer) (s : State) : Except Raise State :=
  match ans with
  | .fail => .error (.error .codecFailed)
  | .samples xs => do
    need (xs.length == p.n) (.error .sampleCount)
    need (xs.all (fun x => x < 2 ^ p.params.nb)) (.error .codecFailed)
    .ok (finish7 s ⟨p.a, p.len⟩ p.dst (reconCells s.cfg.recon p.params xs))

end Sys2Proof.Machine
end

