-- ==== Sys2Proof/Machine/Template.lean ====
section
/-! DEFINITION. The template registry and the template reader (spec/42_templates.md R190-R194). -/

namespace Sys2Proof.Machine

/-- `ROM(kind, number)` of R191: the descriptor, or none for an unrecognized template. -/
def romLookup (rom : List RomRow) (kind : TemplateKind) (number : Nat) : Option Descriptor :=
  (rom.find? (fun r => decide (r.kind = kind) && r.number == number)).map (·.descriptor)

/-- The value of a fixed entry read as the unsigned integer `raw` (R192). -/
def entryValue (t : TemplateEntry) (raw : Nat) : Int :=
  if t.signed then signMagnitude (8 * t.octets.count) raw else (raw : Int)

/-- The total width of the fixed entries in octets (R193, `need`). -/
def fixedOctets (entries : List TemplateEntry) : Nat := (entries.map (fun t => t.octets.count)).sum

/-- The values of the fixed entries, read in order from byte address a (R193). -/
def readEntries (m : Memory) (a : Nat) : List TemplateEntry → List Int
  | [] => []
  | t :: ts => entryValue t (memRead m a t.octets.count) :: readEntries m (a + t.octets.count) ts

/-- The values of c extension fields, 4-octet signed, from byte address a on (R192, R193). -/
def readExtension (m : Memory) (a c : Nat) : List Int :=
  (List.range c).map (fun j => signMagnitude 32 (memRead m (a + 4 * j) 4))

/-- The number of extension fields (R190, `ext`), from the values of the fixed entries. -/
def extensionRuleCount (r : ExtensionRule) (vals : List Int) : Nat :=
  match r with
  | .sumOf entries => ((entries.map (fun i => vals.getD i 0)).sum).toNat
  | .uninterpreted k => Config.freeExtensionCount k vals

/-- The number of extension fields of a descriptor; 0 when needExt is false (R193). -/
def extensionCount (t : Descriptor) (vals : List Int) : Nat :=
  match t.extension with
  | none => 0
  | some r => extensionRuleCount r vals

/-- The template reader for a recognized template (R193): the values, and the address just past the last octet read. -/
def readKnown (m : Memory) (t : Descriptor) (a e : Nat) : Except Raise (List Int × Nat) := do
  let a1 := a + fixedOctets t.entries
  need (a1 ≤ e) (.error .badSectionLength)
  let vals := readEntries m a t.entries
  let c := extensionCount t vals
  need (a1 + 4 * c ≤ e) (.error .badSectionLength)
  .ok (vals ++ readExtension m a1 c, a1 + 4 * c)

/-- The geometry entries of a grid template's values (R194): width, height and scanning mode. -/
def pickGeometry (g : Geometry) (vals : List Int) : Int × Int × Int :=
  (vals.getD g.iNx 0, vals.getD g.iNy 0, vals.getD g.iScan 0)

end Sys2Proof.Machine
end

