-- ==== Sys2Proof/Machine/Sections.lean ====
section
/-! DEFINITION. The section commands UNPK0 to UNPK6, CHKEND and SKIPSEC (spec/43_sections.md R220-R233). -/

namespace Sys2Proof.Machine

/-! ### Section 0 -/

/-- The octets `GRIB` and `7777` as 4-octet integers (R220). -/
def gribMarker : Nat := 0x47524942
def endMarker : Nat := 0x37373737

/-- The message context UNPK0 opens (R222, R44): MSG_START, MSG_LEN, DISCIPLINE and EDITION set, Section 0 the last
section, every other register of the context at its reset value. -/
def openContext (a disc ed len : Nat) : ContextRegs :=
  { ContextRegs.reset with msgStart := zext64 a, msgLen := zext64 len, discipline := zext64 disc, edition := zext64 ed,
                           lastSec := 0, seclen := 16 }

/-- UNPK0 (R222): unpack Section 0 and open a message. -/
def runUnpk0 (s : State) : Except Raise State := do
  let a := s.cursor
  checkM s (8 * a) 128
  need (memRead s.mem a 4 == gribMarker) (.error .notGrib)
  let disc := memRead s.mem (a + 6) 1
  let ed := memRead s.mem (a + 7) 1
  let len := memRead s.mem (a + 8) 8
  need (ed == 2) (.error .wrongEdition)
  need (20 ≤ len) (.error .lengthMismatch)
  needSpace s s.dst 3
  .ok (((s.commit .ok s.dst [zext64 disc, zext64 ed, zext64 len] 0 0).setCursor (a + 16)).setCtx (openContext a disc ed len))

def execUnpk0 (s : State) : Host.Outcome State Fault Refusal := endCommand s (runUnpk0 s)

/-! ### Section 1 -/

/-- The widths of the 13 fields of Section 1, at offsets 5 to 20 (R220, R224). -/
def identificationWidths : List Nat := [2, 2, 1, 1, 1, 2, 1, 1, 1, 1, 1, 1, 1]

/-- Unsigned fields of the given octet widths, read one after another from byte address o (R224). -/
def readOctetFields (m : Memory) (o : Nat) : List Nat → List Nat
  | [] => []
  | w :: ws => memRead m o w :: readOctetFields m (o + w) ws

/-- UNPK1 (R224): unpack Section 1. -/
def runUnpk1 (s : State) : Except Raise State := do
  let sec ← openSection s 1 21
  needSpace s s.dst 13
  let vals := readOctetFields s.mem (sec.a + 5) identificationWidths
  .ok ((s.commit .ok s.dst (vals.map zext64) 0 0).closeSection 1 sec)

def execUnpk1 (s : State) : Host.Outcome State Fault Refusal := endCommand s (runUnpk1 s)

/-! ### Section 2 -/

/-- UNPK2 (R225): copy the local-use octets, one a cell. -/
def runUnpk2 (s : State) : Except Raise State := do
  let sec ← openSection s 2 5
  needSpace s s.dst (sec.len - 5)
  .ok ((s.commit .ok s.dst ((memOctets s.mem (sec.a + 5) (sec.len - 5)).map zext64) 0 0).closeSection 2 sec)

def execUnpk2 (s : State) : Host.Outcome State Fault Refusal := endCommand s (runUnpk2 s)

/-! ### Section 3 -/

/-- The optional list of Section 3 (R227) from a2 to the section end e. -/
def optList (rule : OptListRule) (m : Memory) (no a2 e : Nat) : Except Raise (List Nat) :=
  if no = 0 then .ok []
  else
    match rule with
    | .countEntries =>
      let wl := (e - a2) / no
      if wl = 1 ∨ wl = 2 ∨ wl = 4 then .ok ((List.range no).map (fun j => memRead m (a2 + wl * j) wl))
      else .error (.error .badListWidth)
    | .widthOctets =>
      if no > 8 then .error (.error .badListWidth)
      else .ok ((List.range ((e - a2) / no)).map (fun j => memRead m (a2 + no * j) no))

/-- What UNPK3 takes from Section 3 after its header (R226): the template values, the optional list, the geometry when it
is known, and the success code. -/
structure GridBody where
  vals : List Int
  list : List Nat
  geometry : Option (Int × Int × Int)
  code : StatusCode

/-- The body of an unrecognized template with G = 0 (R226): every octet from offset 14 on, opaque. -/
def opaqueGrid (m : Memory) (sec : Section) : GridBody :=
  { vals := (memOctets m (sec.a + 14) (sec.len - 14)).map (fun (n : Nat) => (n : Int)), list := [], geometry := none, code := .okOpaque }

/-- The template, optional list and geometry of Section 3, in the order of R226. -/
def gridBody (s : State) (g : Bool) (sec : Section) (t no : Nat) : Except Raise GridBody :=
  match romLookup s.cfg.rom .grid t with
  | none => if g then .error (.error .unrecognizedTemplate) else .ok (opaqueGrid s.mem sec)
  | some desc => do
    let r ← readKnown s.mem desc (sec.a + 14) sec.stop
    let list ← optList s.cfg.optListRule s.mem no r.2 sec.stop
    need (desc.geometry.isSome || !g) (.error .geometryUnknown)
    .ok { vals := r.1, list := list, geometry := desc.geometry.map (fun geo => pickGeometry geo r.1), code := .ok }

/-- The context after UNPK3 (R226): NGPTS, GDT_NUM, the geometry registers and their flags. -/
def gridContext (c : ContextRegs) (np t : Nat) (geometry : Option (Int × Int × Int)) : ContextRegs :=
  let geo := geometry.getD (0, 0, 0)
  { c with ngpts := zext64 np, gdtNum := zext64 t, nx := cell geo.1, ny := cell geo.2.1, scan := cell geo.2.2,
           ngptsValid := true, geomValid := geometry.isSome }

/-- UNPK3 (R226): unpack Section 3. -/
def runUnpk3 (g : Bool) (s : State) : Except Raise State := do
  let sec ← openSection s 3 14
  let srcg := memRead s.mem (sec.a + 5) 1
  let np := memRead s.mem (sec.a + 6) 4
  let no := memRead s.mem (sec.a + 10) 1
  let io := memRead s.mem (sec.a + 11) 1
  let t := memRead s.mem (sec.a + 12) 2
  let b ← gridBody s g sec t no
  needSpace s s.dst (5 + b.vals.length + b.list.length)
  let out := [srcg, np, no, io, t].map zext64 ++ b.vals.map cell ++ b.list.map zext64
  .ok (((s.commit b.code s.dst out b.vals.length b.list.length).setCtx (gridContext s.ctx np t b.geometry)).closeSection 3
    sec)

def execUnpk3 (g : Bool) (s : State) : Host.Outcome State Fault Refusal := endCommand s (runUnpk3 g s)

/-! ### Section 4 -/

/-- The context after UNPK4 (R228): PDT_NUM and NV. -/
def productContext (c : ContextRegs) (t nv : Nat) : ContextRegs := { c with pdtNum := zext64 t, nv := zext64 nv }

/-- UNPK4 (R228): unpack Section 4, its template and its coordinate list. -/
def runUnpk4 (s : State) : Except Raise State := do
  let sec ← openSection s 4 9
  let nv := memRead s.mem (sec.a + 5) 2
  let t := memRead s.mem (sec.a + 7) 2
  match romLookup s.cfg.rom .product t with
  | none => .error (.error .unrecognizedTemplate)
  | some desc =>
    let r ← readKnown s.mem desc (sec.a + 9) sec.stop
    need (r.2 + 4 * nv ≤ sec.stop) (.error .badSectionLength)
    needSpace s s.dst (2 + r.1.length + nv)
    let out := [nv, t].map zext64 ++ r.1.map cell ++ readFloats s.mem (8 * r.2) nv
    .ok (((s.commit .ok s.dst out r.1.length nv).setCtx (productContext s.ctx t nv)).closeSection 4 sec)

def execUnpk4 (s : State) : Host.Outcome State Fault Refusal := endCommand s (runUnpk4 s)

/-! ### Section 5 -/

/-- The context after UNPK5 (R230): NDPTS, DRT_NUM, DRT_LEN and DRT_VALID. -/
def dataRepContext (c : ContextRegs) (nd t len : Nat) : ContextRegs :=
  { c with ndpts := zext64 nd, drtNum := zext64 t, drtLen := zext64 len, drtValid := true }

/-- UNPK5 (R230): unpack Section 5 and latch its template values in DRTV. -/
def runUnpk5 (s : State) : Except Raise State := do
  let sec ← openSection s 5 11
  let nd := memRead s.mem (sec.a + 5) 4
  let t := memRead s.mem (sec.a + 9) 2
  match romLookup s.cfg.rom .dataRep t with
  | none => .error (.error .unrecognizedTemplate)
  | some desc =>
    let r ← readKnown s.mem desc (sec.a + 11) sec.stop
    need (r.1.length ≤ s.cfg.drtMax) (.error .drtTooLong)
    needSpace s s.dst (2 + r.1.length)
    let out := [nd, t].map zext64 ++ r.1.map cell
    .ok ((((s.commit .ok s.dst out r.1.length 0).latchDrt (r.1.map cell)).setCtx
      (dataRepContext s.ctx nd t r.1.length)).closeSection 5 sec)

def execUnpk5 (s : State) : Host.Outcome State Fault Refusal := endCommand s (runUnpk5 s)

/-! ### Section 6 -/

/-- The n flags of a bitmap that starts at byte address a, as cells (R231). -/
def bitmapCells (m : Memory) (a n : Nat) : List Word :=
  (List.range n).map (fun i => zext64 (bitM m (8 * a + i)).toNat)

/-- What UNPK6 returns for each indicator (R231): the bitmap flags, and whether HAVE_BMAP is set. -/
def bitmapBody (s : State) (sec : Section) (ind : Nat) : Except Raise (List Word × Bool) :=
  if ind = 0 then do
    need s.ctx.ngptsValid (.error .noContext)
    let n := s.ctx.ngpts.toNat
    need (6 + (n + 7) / 8 ≤ sec.len) (.error .badSectionLength)
    needSpace s s.dst (1 + n)
    .ok (bitmapCells s.mem (sec.a + 6) n, true)
  else if ind = 254 then do
    need s.ctx.haveBmap (.error .noPriorBitmap)
    needSpace s s.dst 1
    .ok ([], s.ctx.haveBmap)
  else if ind = 255 then do
    needSpace s s.dst 1
    .ok ([], s.ctx.haveBmap)
  else .error (.error .predefinedBitmap)

/-- The context after UNPK6 (R231): BMAP_IND and HAVE_BMAP. -/
def bitmapContext (c : ContextRegs) (ind : Nat) (bmap : Bool) : ContextRegs :=
  { c with bmapInd := zext64 ind, haveBmap := bmap }

/-- UNPK6 (R231): unpack Section 6. -/
def runUnpk6 (s : State) : Except Raise State := do
  let sec ← openSection s 6 6
  let ind := memRead s.mem (sec.a + 5) 1
  let b ← bitmapBody s sec ind
  .ok (((s.commit .ok s.dst (zext64 ind :: b.1) 0 b.1.length).setCtx (bitmapContext s.ctx ind b.2)).closeSection 6 sec)

def execUnpk6 (s : State) : Host.Outcome State Fault Refusal := endCommand s (runUnpk6 s)

/-! ### Section 8 and skipping -/

/-- CHKEND (R232): check Section 8 and close the message. -/
def runChkend (s : State) : Except Raise State := do
  let a := s.cursor
  need (s.ctx.lastSec == 7) (.error .badOrder)
  checkM s (8 * a) 32
  need (memRead s.mem a 4 == endMarker) (.error .noEnd)
  need (a + 4 == s.ctx.msgStart.toNat + s.ctx.msgLen.toNat) (.error .lengthMismatch)
  .ok ((s.commit .ok 0 [] 0 0).closeSection 8 ⟨a, 4⟩)

def execChkend (s : State) : Host.Outcome State Fault Refusal := endCommand s (runChkend s)

/-- The context flags SKIPSEC clears for section k (R233, R45). -/
def skipContext (c : ContextRegs) (k : Nat) : ContextRegs :=
  if k = 3 then { c with ngptsValid := false, geomValid := false }
  else if k = 5 then { c with drtValid := false }
  else c

/-- SKIPSEC (R233): skip one section without unpacking it. -/
def runSkipsec (s : State) : Except Raise State := do
  let a := s.cursor
  need (!(s.ctx.lastSec == 8 || s.ctx.lastSec == 0xFF)) (.error .badOrder)
  need (!s.pastMessage (a + 5)) (.error .sectionPastMessage)
  checkM s (8 * a) 40
  let len := memRead s.mem a 4
  let k := memRead s.mem (a + 4) 1
  need (decide (1 ≤ k) && decide (k ≤ 7)) (.error .wrongSection)
  need ((successors s.ctx.lastSec.toNat).contains k) (.error .badOrder)
  need (minLength k ≤ len) (.error .badSectionLength)
  need (!s.pastMessage (a + len)) (.error .sectionPastMessage)
  .ok ((((s.setResult k).commit .ok 0 [] 0 0).setCtx (skipContext s.ctx k)).closeSection k ⟨a, len⟩)

def execSkipsec (s : State) : Host.Outcome State Fault Refusal := endCommand s (runSkipsec s)

end Sys2Proof.Machine
end

