-- ==== Sys2Proof/Machine/Dispatch.lean ====
section
/-! DEFINITION. The meaning of each command: engine step 1 of spec/49_control.md R341 after the decoder. -/

namespace Sys2Proof.Machine

def exec (i : Instr) (s : State) : Host.Outcome State Fault Refusal :=
  match i with
  | .nop => Sys2Proof.Machine.execNop s
  | .gbit w => Sys2Proof.Machine.execGbit w s
  | .gbits w => Sys2Proof.Machine.execGbits w s
  | .sbit w => Sys2Proof.Machine.execSbit w s
  | .sbits w => Sys2Proof.Machine.execSbits w s
  | .rdieee => Sys2Proof.Machine.execRdieee s
  | .mkieee => Sys2Proof.Machine.execMkieee s
  | .unpk0 => Sys2Proof.Machine.execUnpk0 s
  | .unpk1 => Sys2Proof.Machine.execUnpk1 s
  | .unpk2 => Sys2Proof.Machine.execUnpk2 s
  | .unpk3 g => Sys2Proof.Machine.execUnpk3 g s
  | .unpk4 => Sys2Proof.Machine.execUnpk4 s
  | .unpk5 => Sys2Proof.Machine.execUnpk5 s
  | .unpk6 => Sys2Proof.Machine.execUnpk6 s
  | .unpk7 => Sys2Proof.Machine.execUnpk7 s
  | .chkend => Sys2Proof.Machine.execChkend s
  | .skipsec => Sys2Proof.Machine.execSkipsec s

end Sys2Proof.Machine
end

