-- ==== Sys2Proof/Decode.lean ====
section
/-! DEFINITION. The command decoder and encoder (spec/30_encoding.md R110-R118). A command is the 64-bit value written to
CMD; its low 32 bits are the word of format C (R111), its high 32 bits must be zero (R112). The decoder is total: every
64-bit value is a command or one of two named errors (R115). -/

namespace Sys2Proof

/-- Why the decoder refuses a CMD value (R115). -/
inductive DecodeError where
  | illegalCmd
  | illegalWidth
  deriving DecidableEq, Repr

/-- Which immediates an opcode uses (the columns "W used" and "G used" of R114): none, the width, or the flag. -/
inductive Form where
  | plain (i : Instr)
  | width (mk : BitVec 7 → Instr)
  | flag (mk : Bool → Instr)

/-- Field OPC, bits 31:24 (R111). -/
def opcOf (word : BitVec 32) : Nat := (word.extractLsb' 24 8).toNat

/-- Field W, bits 23:17 (R111, R113). -/
def widthOf (word : BitVec 32) : BitVec 7 := word.extractLsb' 17 7

/-- Field G, bit 16 (R111, R113). -/
def flagOf (word : BitVec 32) : Bool := word.getLsbD 16

/-- Field RSV, bits 15:0 (R111). -/
def rsvOf (word : BitVec 32) : BitVec 16 := word.extractLsb' 0 16

/-- The opcode map of R114; every opcode not listed is unassigned. -/
def formOf : Nat → Option Form
  | 0x00 => some (.plain .nop)
  | 0x01 => some (.width .gbit)
  | 0x02 => some (.width .gbits)
  | 0x03 => some (.width .sbit)
  | 0x04 => some (.width .sbits)
  | 0x08 => some (.plain .rdieee)
  | 0x09 => some (.plain .mkieee)
  | 0x10 => some (.plain .unpk0)
  | 0x11 => some (.plain .unpk1)
  | 0x12 => some (.plain .unpk2)
  | 0x13 => some (.flag .unpk3)
  | 0x14 => some (.plain .unpk4)
  | 0x15 => some (.plain .unpk5)
  | 0x16 => some (.plain .unpk6)
  | 0x17 => some (.plain .unpk7)
  | 0x18 => some (.plain .chkend)
  | 0x19 => some (.plain .skipsec)
  | _ => none

/-- The checks of R115 on a word whose opcode and reserved bits have been found good, in R115's order. -/
def finishDecode (maxW : Nat) (w : BitVec 7) (g : Bool) : Form → Except DecodeError Instr
  | .plain i => if w ≠ 0 then .error .illegalCmd else if g then .error .illegalCmd else .ok i
  | .flag mk => if w ≠ 0 then .error .illegalCmd else .ok (mk g)
  | .width mk =>
    if g then .error .illegalCmd else if w.toNat > maxW then .error .illegalWidth else .ok (mk w)

/-- The decoder of R115, given MAX_W and the 64-bit value written to CMD. -/
def decode (maxW : Nat) (v : BitVec 64) : Except DecodeError Instr :=
  if v.extractLsb' 32 32 ≠ 0 then .error .illegalCmd
  else
    let word : BitVec 32 := v.extractLsb' 0 32
    match formOf (opcOf word) with
    | none => .error .illegalCmd
    | some form =>
      if rsvOf word ≠ 0 then .error .illegalCmd
      else finishDecode maxW (widthOf word) (flagOf word) form

/-- The opcode of a command (R114). -/
def Instr.opcode : Instr → BitVec 8
  | .nop => 0x00
  | .gbit _ => 0x01
  | .gbits _ => 0x02
  | .sbit _ => 0x03
  | .sbits _ => 0x04
  | .rdieee => 0x08
  | .mkieee => 0x09
  | .unpk0 => 0x10
  | .unpk1 => 0x11
  | .unpk2 => 0x12
  | .unpk3 _ => 0x13
  | .unpk4 => 0x14
  | .unpk5 => 0x15
  | .unpk6 => 0x16
  | .unpk7 => 0x17
  | .chkend => 0x18
  | .skipsec => 0x19

/-- The W field of a command's word: its width, or 0 (R111). -/
def Instr.fieldW : Instr → BitVec 7
  | .gbit w | .gbits w | .sbit w | .sbits w => w
  | .nop | .rdieee | .mkieee | .unpk0 | .unpk1 | .unpk2 | .unpk3 _ | .unpk4 | .unpk5 | .unpk6 | .unpk7 | .chkend
  | .skipsec => 0

/-- The G field of a command's word (R111). -/
def Instr.fieldG : Instr → Bool
  | .unpk3 g => g
  | .nop | .gbit _ | .gbits _ | .sbit _ | .sbits _ | .rdieee | .mkieee | .unpk0 | .unpk1 | .unpk2 | .unpk4 | .unpk5
  | .unpk6 | .unpk7 | .chkend | .skipsec => false

/-- The 32-bit word of a command, `OOOOOOOO WWWWWWW G RRRRRRRRRRRRRRRR` (R111). -/
def encodeWord (i : Instr) : BitVec 32 := i.opcode ++ i.fieldW ++ BitVec.ofBool i.fieldG ++ (0 : BitVec 16)

/-- The 64-bit value to write to CMD for a command (R112). -/
def encode (i : Instr) : BitVec 64 := (encodeWord i).setWidth 64

/-- One row of the table of matches and masks that ends R114. -/
structure MatchRow where
  pattern : BitVec 32
  mask : BitVec 32
  deriving DecidableEq, Repr

/-- The match and mask of a command's row (R114; spec/opcode_table.json). -/
def Instr.matchRow : Instr → MatchRow
  | .nop => ⟨0x00000000, 0xFFFFFFFF⟩
  | .gbit _ => ⟨0x01000000, 0xFF01FFFF⟩
  | .gbits _ => ⟨0x02000000, 0xFF01FFFF⟩
  | .sbit _ => ⟨0x03000000, 0xFF01FFFF⟩
  | .sbits _ => ⟨0x04000000, 0xFF01FFFF⟩
  | .rdieee => ⟨0x08000000, 0xFFFFFFFF⟩
  | .mkieee => ⟨0x09000000, 0xFFFFFFFF⟩
  | .unpk0 => ⟨0x10000000, 0xFFFFFFFF⟩
  | .unpk1 => ⟨0x11000000, 0xFFFFFFFF⟩
  | .unpk2 => ⟨0x12000000, 0xFFFFFFFF⟩
  | .unpk3 _ => ⟨0x13000000, 0xFFFEFFFF⟩
  | .unpk4 => ⟨0x14000000, 0xFFFFFFFF⟩
  | .unpk5 => ⟨0x15000000, 0xFFFFFFFF⟩
  | .unpk6 => ⟨0x16000000, 0xFFFFFFFF⟩
  | .unpk7 => ⟨0x17000000, 0xFFFFFFFF⟩
  | .chkend => ⟨0x18000000, 0xFFFFFFFF⟩
  | .skipsec => ⟨0x19000000, 0xFFFFFFFF⟩

/-- The mnemonic of a command (R114). -/
def Instr.mnemonic : Instr → String
  | .nop => "NOP"
  | .gbit _ => "GBIT"
  | .gbits _ => "GBITS"
  | .sbit _ => "SBIT"
  | .sbits _ => "SBITS"
  | .rdieee => "RDIEEE"
  | .mkieee => "MKIEEE"
  | .unpk0 => "UNPK0"
  | .unpk1 => "UNPK1"
  | .unpk2 => "UNPK2"
  | .unpk3 _ => "UNPK3"
  | .unpk4 => "UNPK4"
  | .unpk5 => "UNPK5"
  | .unpk6 => "UNPK6"
  | .unpk7 => "UNPK7"
  | .chkend => "CHKEND"
  | .skipsec => "SKIPSEC"

/-- The assembler text of a command (R118): the mnemonic, then `w=<decimal>` for the four commands with a width, then
`g=1` for UNPK3 when G is set. -/
def Instr.asm : Instr → String
  | .gbit w => "GBIT w=" ++ toString w.toNat
  | .gbits w => "GBITS w=" ++ toString w.toNat
  | .sbit w => "SBIT w=" ++ toString w.toNat
  | .sbits w => "SBITS w=" ++ toString w.toNat
  | .unpk3 g => if g then "UNPK3 g=1" else "UNPK3"
  | .nop => "NOP"
  | .rdieee => "RDIEEE"
  | .mkieee => "MKIEEE"
  | .unpk0 => "UNPK0"
  | .unpk1 => "UNPK1"
  | .unpk2 => "UNPK2"
  | .unpk4 => "UNPK4"
  | .unpk5 => "UNPK5"
  | .unpk6 => "UNPK6"
  | .unpk7 => "UNPK7"
  | .chkend => "CHKEND"
  | .skipsec => "SKIPSEC"

/-- What the decoder reads from the `nbits` low bits of `w`, with every higher bit of CMD zero and MAX_W at its default of
64 (R6). The hardware stores no command: the value is the one written to CMD (R31, R110). -/
def decodeTableWord (nbits w : Nat) : Option Instr :=
  match decode 64 (BitVec.ofNat 64 (w % 2 ^ nbits)) with
  | .ok i => some i
  | .error _ => none

end Sys2Proof
end

