-- ==== Sys2Proof/Machine/Flags.lean ====
section
/-! DEFINITION. The registers that are views of other state: STATUS (spec/10_state.md R35; codes of spec/60_exceptions.md
R351), CTXFLAGS (R45) and PARAMS (R46). -/

namespace Sys2Proof.Machine

/-- The number of an error code (R351). -/
def ErrorCode.number : ErrorCode → Nat
  | .notGrib => 0x10
  | .wrongEdition => 0x11
  | .wrongSection => 0x12
  | .badOrder => 0x13
  | .badSectionLength => 0x14
  | .sectionPastMessage => 0x15
  | .noEnd => 0x16
  | .lengthMismatch => 0x17
  | .noPriorBitmap => 0x18
  | .shortPayload => 0x19
  | .noContext => 0x1A
  | .unrecognizedTemplate => 0x20
  | .predefinedBitmap => 0x21
  | .codecDisabled => 0x22
  | .unsupportedDrt => 0x23
  | .badNbits => 0x24
  | .codecFailed => 0x25
  | .sampleCount => 0x26
  | .geometryUnknown => 0x27
  | .badListWidth => 0x28
  | .noSpace => 0x30
  | .drtTooLong => 0x31
  | .illegalCmd => 0x40
  | .illegalWidth => 0x41
  | .srcRange => 0x42

/-- STATUS.CODE as a number (R351). -/
def StatusCode.number : StatusCode → Nat
  | .ok => 0x00
  | .okOpaque => 0x01
  | .error e => e.number
  | .faultOob => 0x70

/-- STATUS.CLASS (R35, R351): 0 success, 1 structural, 2 unsupported, 3 resource, 4 command, 7 fault. -/
def StatusCode.statusClass : StatusCode → Nat
  | .ok | .okOpaque => 0
  | .faultOob => 7
  | .error e =>
    match e with
    | .notGrib | .wrongEdition | .wrongSection | .badOrder | .badSectionLength | .sectionPastMessage | .noEnd
    | .lengthMismatch | .noPriorBitmap | .shortPayload | .noContext => 1
    | .unrecognizedTemplate | .predefinedBitmap | .codecDisabled | .unsupportedDrt | .badNbits | .codecFailed
    | .sampleCount | .geometryUnknown | .badListWidth => 2
    | .noSpace | .drtTooLong => 3
    | .illegalCmd | .illegalWidth | .srcRange => 4

/-- STATUS.BUSY: 1 exactly when PHASE is not IDLE (R48). -/
def State.busy (s : State) : Bool :=
  match s.phase with
  | .idle => false
  | .issued _ | .waiting _ | .answered _ _ => true

/-- STATUS.WAIT_EXT: 1 exactly when PHASE is WAITING (R48). -/
def State.waitExt (s : State) : Bool :=
  match s.phase with
  | .waiting _ => true
  | .idle | .issued _ | .answered _ _ => false

/-- The STATUS register (R35): CODE in bits 7:0, CLASS in 10:8, BUSY, WAIT_EXT and FAULT in bits 16, 17 and 18; its other
bits read 0. -/
def State.status (s : State) : Word :=
  zext64 (s.code.number + s.code.statusClass * 2 ^ 8 + s.busy.toNat * 2 ^ 16 + s.waitExt.toNat * 2 ^ 17 + s.fault.toNat * 2 ^ 18)

/-- The CTXFLAGS register (R45): NGPTS_VALID, DRT_VALID, HAVE_BMAP, GEOM_VALID in bits 0 to 3. -/
def ContextRegs.flags (c : ContextRegs) : Word :=
  zext64 (c.ngptsValid.toNat + c.drtValid.toNat * 2 + c.haveBmap.toNat * 4 + c.geomValid.toNat * 8)

/-- The PARAMS register (R46). -/
def paramsWord (c : Config) : Word :=
  zext64 (c.maxW.bits + c.hasJpeg2000.toNat * 2 ^ 8 + c.hasPng.toNat * 2 ^ 9 + c.hasAec.toNat * 2 ^ 10 +
    c.hasRle.toNat * 2 ^ 11 + c.rleParams.isSome.toNat * 2 ^ 12 + (decide (c.optListRule = .countEntries)).toNat * 2 ^ 13)

end Sys2Proof.Machine
end

