-- ==== Sys2Proof/Machine/HostPort.lean ====
section
/-! DEFINITION. The host port: the register map (spec/10_state.md R33-R46, R49, R50), the accesses of the host
(spec/20_memory.md R84, spec/49_control.md R341), and the host-program notation of spec/30_encoding.md R119. -/

namespace Sys2Proof.Machine

/-- The host-visible registers (R33). -/
inductive Reg where
  | cmd | status | ctrl | faultInfo
  | bitoff | count | skip | dst | src | value | cursor
  | result | nextoff | outLen | tplLen | listLen
  | msgStart | msgLen | discipline | edition | lastSec | ctxflags
  | ngpts | gdtNum | nx | ny | scan | pdtNum | nv | ndpts | drtNum | drtLen | bmapInd | seclen
  | params | bufsize | acells | drtmax
  | drtv (k : Nat)
  deriving DecidableEq, Repr

/-- The register map of R33, without the DRT latch file. -/
def regMap : List (Nat × Reg) :=
  [(0x000, .cmd), (0x008, .status), (0x010, .ctrl), (0x018, .faultInfo), (0x020, .bitoff), (0x028, .count), (0x030, .skip),
   (0x038, .dst), (0x040, .src), (0x048, .value), (0x050, .cursor), (0x058, .result), (0x060, .nextoff)] ++
  [(0x068, .outLen), (0x070, .tplLen), (0x078, .listLen), (0x080, .msgStart), (0x088, .msgLen), (0x090, .discipline),
   (0x098, .edition), (0x0A0, .lastSec), (0x0A8, .ctxflags), (0x0B0, .ngpts), (0x0B8, .gdtNum), (0x0C0, .nx)] ++
  [(0x0C8, .ny), (0x0D0, .scan), (0x0D8, .pdtNum), (0x0E0, .nv), (0x0E8, .ndpts), (0x0F0, .drtNum), (0x0F8, .drtLen),
   (0x100, .bmapInd), (0x108, .seclen), (0x110, .params), (0x118, .bufsize), (0x120, .acells), (0x128, .drtmax)]

/-- The register at a byte offset; none when the offset is unmapped or no multiple of 8 (R33, R50). DRTV[k] stands at
0x200 + 8k for k < DRT_MAX. -/
def regAt (c : Config) (offset : Nat) : Option Reg :=
  if offset < 0x200 then (regMap.find? (fun r => r.1 == offset)).map (·.2)
  else if offset % 8 = 0 ∧ (offset - 0x200) / 8 < c.drtMax then some (.drtv ((offset - 0x200) / 8))
  else none

/-- The value a host read of a register returns (R33-R46); no read has a side effect (R89). CMD and CTRL read 0 (R34, R36). -/
def readReg (s : State) : Reg → Word
  | .cmd => 0
  | .status => s.status
  | .ctrl => 0
  | .faultInfo => s.faultInfo
  | .bitoff => s.op.bitoff
  | .count => s.op.count
  | .skip => s.op.skip
  | .dst => s.op.dst
  | .src => s.op.src
  | .value => s.op.value
  | .cursor => s.op.cursor
  | .result => s.res.result
  | .nextoff => s.res.nextoff
  | .outLen => s.res.outLen
  | .tplLen => s.res.tplLen
  | .listLen => s.res.listLen
  | .msgStart => s.ctx.msgStart
  | .msgLen => s.ctx.msgLen
  | .discipline => s.ctx.discipline
  | .edition => s.ctx.edition
  | .lastSec => s.ctx.lastSec
  | .ctxflags => s.ctx.flags
  | .ngpts => s.ctx.ngpts
  | .gdtNum => s.ctx.gdtNum
  | .nx => s.ctx.nx
  | .ny => s.ctx.ny
  | .scan => s.ctx.scan
  | .pdtNum => s.ctx.pdtNum
  | .nv => s.ctx.nv
  | .ndpts => s.ctx.ndpts
  | .drtNum => s.ctx.drtNum
  | .drtLen => s.ctx.drtLen
  | .bmapInd => s.ctx.bmapInd
  | .seclen => s.ctx.seclen
  | .params => paramsWord s.cfg
  | .bufsize => zext64 s.cfg.bufBytes
  | .acells => zext64 s.cfg.aCells
  | .drtmax => zext64 s.cfg.drtMax
  | .drtv k => Sparse.read s.drtv k

/-- A host write to CMD (R34, R341, R356): ignored while STATUS.FAULT = 1; no move while BUSY = 1; otherwise the command is
issued. -/
def writeCmd (s : State) (v : Word) : Host.Outcome State Fault Refusal :=
  if s.fault then .next s
  else if s.busy then .refused .hostCmdWhileBusy
  else .next { s with phase := .issued v }

/-- A host write to CTRL (R36): a soft reset when bit 0 is 1, else nothing; bits 63:1 are ignored. -/
def writeCtrl (s : State) (v : Word) : State := if v.getLsbD 0 then s.softReset else s

/-- A host write of an operand register (R38, R49): it takes effect at once. A write to any read-only register is ignored
(R49). -/
def writeOperand (o : OperandRegs) (v : Word) : Reg → OperandRegs
  | .bitoff => { o with bitoff := v }
  | .count => { o with count := v }
  | .skip => { o with skip := v }
  | .dst => { o with dst := v }
  | .src => { o with src := v }
  | .value => { o with value := v }
  | .cursor => { o with cursor := v }
  | .cmd | .status | .ctrl | .faultInfo | .result | .nextoff | .outLen | .tplLen | .listLen | .msgStart | .msgLen
  | .discipline | .edition | .lastSec | .ctxflags | .ngpts | .gdtNum | .nx | .ny | .scan | .pdtNum | .nv | .ndpts
  | .drtNum | .drtLen | .bmapInd | .seclen | .params | .bufsize | .acells | .drtmax | .drtv _ => o

/-- A host write to a register (R34, R36, R38, R49). -/
def writeReg (s : State) (r : Reg) (v : Word) : Host.Outcome State Fault Refusal :=
  match r with
  | .cmd => writeCmd s v
  | .ctrl => .next (writeCtrl s v)
  | r => .next { s with op := writeOperand s.op v r }

/-- The registers that R93 leaves to the host while BUSY = 1: CMD and CTRL (R84) and the read-only STATUS. -/
def Reg.openWhileBusy : Reg → Bool
  | .cmd | .ctrl | .status => true
  | .faultInfo | .bitoff | .count | .skip | .dst | .src | .value | .cursor | .result | .nextoff | .outLen | .tplLen
  | .listLen | .msgStart | .msgLen | .discipline | .edition | .lastSec | .ctxflags | .ngpts | .gdtNum | .nx | .ny | .scan
  | .pdtNum | .nv | .ndpts | .drtNum | .drtLen | .bmapInd | .seclen | .params | .bufsize | .acells | .drtmax | .drtv _ =>
    false

/-- Whether the host may access a register now: always while BUSY = 0; while BUSY = 1, every register under R341, R400 and
R401, or those of `Reg.openWhileBusy` under R84 and R93 (log entry 7). What a write to CMD does then is in `writeCmd`. -/
def State.regOpen (s : State) (r : Reg) : Bool :=
  match s.cfg.busyRegisters with
  | .allowed => true
  | .excluded => !s.busy || r.openWhileBusy

/-- A register access of the host, with the checks of R50, then that of R84 and R93. -/
def withReg (s : State) (offset width : Nat) (use : Reg → Host.Outcome State Fault Refusal) :
    Host.Outcome State Fault Refusal :=
  if width ≠ 64 then .refused (.hostAccessWidth width)
  else
    match regAt s.cfg offset with
    | none => .fault (.hostUnmappedRegister offset)
    | some r => if s.regOpen r then use r else .refused .hostRegisterWhileBusy

/-- An access of the host to M (R84): only while BUSY = 0, and only below BUF_BYTES. -/
def withByte (s : State) (a : Nat) (t : State) : Host.Outcome State Fault Refusal :=
  if s.busy then .refused .hostStorageWhileBusy
  else if a < s.cfg.bufBytes then .next t
  else .fault (.hostMemoryRange a)

/-- An access of the host to A (R84): only while BUSY = 0, and only below A_CELLS. -/
def withCell (s : State) (i : Nat) (t : State) : Host.Outcome State Fault Refusal :=
  if s.busy then .refused .hostStorageWhileBusy
  else if i < s.cfg.aCells then .next t
  else .fault (.hostArrayRange i)

/-- The host port gives back a value. -/
def State.answer (s : State) (r : HostReply) : State := { s with reply := some r }

/-- The loop `wait` of R119: read STATUS; while BUSY is 1 the block makes a move and the host reads again. -/
def pollStatus (s : State) : State :=
  let t := s.answer (.reg s.status)
  if s.busy then { t with turns := .block :: .host .poll :: s.turns } else t

/-- One access of the host (R341). -/
def hostMove (m : HostMove) (s : State) : Host.Outcome State Fault Refusal :=
  match m with
  | .regRead offset width => withReg s offset width (fun r => .next (s.answer (.reg (readReg s r))))
  | .regWrite offset width v => withReg s offset width (fun r => writeReg s r v)
  | .mRead a => withByte s a (s.answer (.byte (Sparse.read s.mem a)))
  | .mWrite a b => withByte s a { s with mem := Sparse.write s.mem a b }
  | .aRead i => withCell s i (s.answer (.cell (Sparse.read s.arr i)))
  | .aWrite i v => withCell s i { s with arr := Sparse.write s.arr i v }
  | .poll => .next (pollStatus s)

/-! ### Host-program notation (R119) -/

/-- The offset of a register (R33). -/
def offsetOf (r : Reg) : Nat :=
  match r with
  | .drtv k => 0x200 + 8 * k
  | r => ((regMap.find? (fun e => e.2 == r)).map (·.1)).getD 0

/-- `wr REG, v` (R119). -/
def wr (r : Reg) (v : Nat) : List Turn := [.host (.regWrite (offsetOf r) 64 (zext64 v))]

/-- `rd REG` (R119). -/
def rd (r : Reg) : List Turn := [.host (.regRead (offsetOf r) 64)]

/-- `mw a: b0 b1 ...` (R119). -/
def mw (a : Nat) : List Byte → List Turn
  | [] => []
  | b :: bs => .host (.mWrite a b) :: mw (a + 1) bs

/-- `aw i: v0 v1 ...` (R119). -/
def aw (i : Nat) : List Word → List Turn
  | [] => []
  | v :: vs => .host (.aWrite i v) :: aw (i + 1) vs

/-- `cmd X` (R119). -/
def cmd (x : Instr) : List Turn := [.host (.regWrite (offsetOf .cmd) 64 (encode x))]

/-- `wait` (R119). -/
def wait : List Turn := [.host .poll]

/-- `issue X` (R119). -/
def issue (x : Instr) : List Turn := cmd x ++ wait

/-- `getbits p, w` (R119). -/
def getbits (p : Nat) (w : BitVec 7) : List Turn := wr .bitoff p ++ issue (.gbit w)

/-- `setbits p, w, v` (R119). -/
def setbits (p : Nat) (w : BitVec 7) (v : Nat) : List Turn := wr .bitoff p ++ wr .value v ++ issue (.sbit w)

end Sys2Proof.Machine
end

