-- ==== Sys2Proof/Machine/Life.lean ====
section
/-! DEFINITION. The life cycle of a command and the moves of the three agents (spec/49_control.md R341,
spec/44_decompress.md R300, spec/70_reset_and_hazards.md R401, R402). -/

namespace Sys2Proof.Machine

/-- The status a decoder error reports (R115, R351). -/
def decodeRaise : DecodeError → Raise
  | .illegalCmd => .error .illegalCmd
  | .illegalWidth => .error .illegalWidth

/-- Engine step 1 (R341): decode the value written to CMD and run the command, or report the decoder's error. -/
def engineStart (v : Word) (s : State) : Host.Outcome State Fault Refusal :=
  match decode s.cfg.maxW.bits v with
  | .error e => .next (s.raise (decodeRaise e))
  | .ok i => exec i s

/-- Engine step 2 (R341): UNPK7 goes on with the codec agent's answer. -/
def engineFinish (p : Pending) (ans : CodecAnswer) (s : State) : Host.Outcome State Fault Refusal :=
  endCommand s (runUnpk7Answer p ans s)

/-- The codec agent's own move (R300, R303, R402): what the oracle draws for the waiting request, an answer or none yet. -/
def codecDraw (p : Pending) (s : State) : State :=
  match Config.codecAnswer s.draws p.req with
  | none => { s with draws := s.draws + 1 }
  | some ans => { s with draws := s.draws + 1, phase := .answered p ans }

/-- The move that PHASE enables inside the block and its codec agent (R341); when the block is idle there is none, and it
waits for the host. -/
def blockMove (s : State) : Host.Outcome State Fault Refusal :=
  match s.phase with
  | .idle => .next s
  | .issued v => engineStart v s
  | .waiting p => .next (codecDraw p s)
  | .answered p ans => engineFinish p ans s

/-- An answer from the codec agent to the request of a serial number (R300). An answer to a request that is not waiting any
more was withdrawn by a soft reset, and is discarded (R391). -/
def codecMove (serial : Nat) (ans : CodecAnswer) (s : State) : State :=
  match s.phase with
  | .waiting p => if p.serial = serial then { s with phase := .answered p ans } else s
  | .idle | .issued _ | .answered _ _ => s

/-- One turn. -/
def runTurn (t : Turn) (s : State) : Host.Outcome State Fault Refusal :=
  match t with
  | .host m => hostMove m s
  | .block => blockMove s
  | .codec serial ans => .next (codecMove serial ans s)

/-- The next move: the first turn that stands in `turns`, or the block's own move when none does. -/
def nextMove (s : State) : Host.Outcome State Fault Refusal :=
  match s.turns with
  | [] => blockMove s
  | t :: rest => runTurn t { s with turns := rest }

/-- The CMD value whose decoding gives the command of the `nbits` low bits of `w`, as in `decodeTableWord`. -/
def fetchValue (nbits w : Nat) : Word := BitVec.ofNat 64 (w % 2 ^ nbits)

/-- The state in which that command has been issued and the engine moves next. -/
def State.issue (s : State) (v : Word) : State := { s with phase := .issued v, turns := .block :: s.turns }

end Sys2Proof.Machine
end

