-- ==== Sys2Proof/Machine/Step.lean ====
section
/-! DEFINITION. One step of the machine: one move of one agent (spec/49_control.md R341). -/

namespace Sys2Proof.Machine

/-- One atomic move (R341): a next state, a fault, or a refusal. -/
def step (s : State) : Host.Outcome State Fault Refusal := nextMove s

/-- `s` with the command of the `nbits` low bits of `w` issued and the engine to move next. The block fetches nothing: a
command is the value the host writes to CMD (R31), so this stands for that write (log entry 4). -/
def State.withFetchWord (s : State) (nbits w : Nat) : State := s.issue (fetchValue nbits w)

end Sys2Proof.Machine
end

