-- ==== Sys2Proof/Safety.lean ====
section
/-! DEFINITION. What a sound state of the block is (the invariant `State.Inv`), and the words the statements use: a section
that is ready to be opened, fields that lie in M, and the state a command leaves when it ends. -/

namespace Sys2Proof.Machine

/-- The values LAST_SEC may hold (spec/10_state.md R44): 0 to 8, or 0xFF when no message is open. -/
def legalLastSec : List Word := [0, 1, 2, 3, 4, 5, 6, 7, 8, 0xFF]

/-- What the engine holds while UNPK7 waits is good for its second step: the request was counted, the output fits in A, the
width is one that UNPK7 lets through, the section lies in M, and Section 7 may still be closed. -/
structure Pending.Sound (s : State) (p : Pending) : Prop where
  counted : p.serial < s.reqSerial
  fits : p.dst + p.n ≤ s.cfg.aCells
  width : 1 ≤ p.params.nb ∧ p.params.nb ≤ 32
  stored : p.a + p.len ≤ s.cfg.bufBytes
  order : s.ctx.lastSec = 6

/-- PHASE is sound (R48). -/
def PhaseSound (s : State) : Prop :=
  match s.phase with
  | .idle | .issued _ => True
  | .waiting p | .answered p _ => p.Sound s

/-- The invariant of the block: what holds after reset and after every step. -/
structure State.Inv (s : State) : Prop where
  /-- the parameters are within the bounds of R6 -/
  params : s.cfg.wf = true
  /-- M is in canonical form and lists no byte at or above BUF_BYTES (R40) -/
  mem : Memory.wf s.mem = true
  memRange : Sparse.below s.cfg.bufBytes s.mem = true
  /-- A is in canonical form and lists no cell at or above A_CELLS (R41) -/
  arr : Sparse.wf s.arr = true
  arrRange : Sparse.below s.cfg.aCells s.arr = true
  /-- DRTV is in canonical form and lists no entry at or above DRT_MAX (R43) -/
  drtv : Sparse.wf s.drtv = true
  drtvRange : Sparse.below s.cfg.drtMax s.drtv = true
  /-- DRT_LEN counts entries of DRTV (R43) -/
  drtLen : s.ctx.drtLen.toNat ≤ s.cfg.drtMax
  /-- LAST_SEC is a section number or 0xFF (R44) -/
  lastSec : s.ctx.lastSec ∈ legalLastSec
  /-- with no message open the whole message context is as after reset (R44) -/
  noMessage : s.ctx.lastSec = 0xFF → s.ctx = ContextRegs.reset
  /-- an open message is of edition 2 and at least 20 octets long (R44, R222) -/
  message : s.ctx.lastSec ≠ 0xFF → s.ctx.edition = 2 ∧ 20 ≤ s.ctx.msgLen.toNat
  /-- the geometry is valid only with a Section 3 (R45) -/
  geometry : s.ctx.geomValid = true → s.ctx.ngptsValid = true
  /-- STATUS.FAULT is 1 exactly when STATUS.CODE is FAULT_OOB (R355) -/
  faultCode : s.fault = true ↔ s.code = .faultOob
  /-- no command runs while STATUS.FAULT is 1 (R356) -/
  faultIdle : s.fault = true → s.phase = .idle
  /-- PHASE is sound (R48) -/
  phase : PhaseSound s

/-! ### Who moves next -/

/-- The host may access every register: BUSY is 0, or the block follows R341, R400 and R401 (log entry 7). -/
def State.RegistersOpen (s : State) : Prop := s.phase = .idle ∨ s.cfg.busyRegisters = .allowed

/-- The next move is the block's own: its turn comes first, or no turn is left. -/
def State.BlockMoves (s : State) : Prop := s.turns = [] ∨ ∃ rest, s.turns = .block :: rest

/-- The next move is engine step 1 of a command (R341). -/
def State.Starts (s : State) (i : Instr) : Prop :=
  s.BlockMoves ∧ ∃ v, s.phase = .issued v ∧ decode s.cfg.maxW.bits v = .ok i

/-- The next move is the host's soft reset (R36, R391). -/
def State.ResetsNext (s : State) : Prop :=
  ∃ v rest, s.turns = .host (.regWrite 0x010 64 v) :: rest ∧ v.getLsbD 0 = true

/-- The codec request of serial number n was sent earlier and is not waiting any more (log entry 5). -/
def State.Withdrawn (s : State) (n : Nat) : Prop := n < s.reqSerial ∧ ∀ p, s.phase = .waiting p → p.serial ≠ n

/-! ### Binary32 numbers -/

/-- The rational number a finite binary32 pattern stands for (R18); none for a NaN or an infinity. -/
def f32Rat (f : F32) : Option ℚ :=
  match f32Value f with
  | .finite neg mant exp => some ((if neg then -1 else 1) * mant * 2 ^ exp)
  | .inf _ | .nan => none

/-- `f` is `f32(q)` (R18): the nearest binary32 number, of two equally near the one with an even last place, an infinity from
the midpoint past the largest number on; the sign of a result is that of q also where it is rounded to zero (log entries 9
and 22). -/
structure NearestF32 (q : ℚ) (f : F32) : Prop where
  nearest : |q| < 2 ^ 128 - 2 ^ 103 → ∃ v, f32Rat f = some v ∧
    ∀ g w, f32Rat g = some w → |q - v| ≤ |q - w| ∧ (|q - v| = |q - w| → w ≠ v → f.getLsbD 0 = false)
  overflow : 2 ^ 128 - 2 ^ 103 ≤ |q| → f32Value f = .inf (decide (q < 0))
  sign : q ≠ 0 → f.getLsbD 31 = decide (q < 0)

/-! ### Fields and sections -/

/-- A field of w bits at bit offset p lies in M (R140): it has no bits, or its last byte is below BUF_BYTES. -/
def FieldInM (s : State) (p w : Nat) : Prop := w = 0 ∨ (p + w - 1) / 8 < s.cfg.bufBytes

/-- Every field of the batch of n w-bit fields lies in M (R140, R146). -/
def BatchInM (s : State) (w skip n : Nat) : Prop := ∀ i, i < n → FieldInM s (s.bitoff + i * (w + skip)) w

/-- Bit q of M belongs to the w-bit field at bit offset p (R9, R10). -/
def InField (p w q : Nat) : Prop := p ≤ q ∧ q < p + w

/-- Byte a of M holds no bit of the w-bit field at bit offset p. -/
def ByteOutside (p w a : Nat) : Prop := w = 0 ∨ a < p / 8 ∨ (p + w - 1) / 8 < a

/-- The section at CURSOR: its first byte address and its length field (R220). -/
def sectionAt (s : State) : Section := ⟨s.cursor, memRead s.mem s.cursor 4⟩

/-- The section at CURSOR may be opened as section k of at least `minLen` octets: the checks of R223. -/
structure SectionReady (s : State) (k minLen : Nat) : Prop where
  order : k ∈ successors s.ctx.lastSec.toNat
  headerInMessage : s.cursor + 5 + 4 ≤ s.ctx.msgStart.toNat + s.ctx.msgLen.toNat
  headerInM : s.cursor + 5 ≤ s.cfg.bufBytes
  number : memRead s.mem (s.cursor + 4) 1 = k
  length : minLen ≤ memRead s.mem s.cursor 4
  inMessage : s.cursor + memRead s.mem s.cursor 4 + 4 ≤ s.ctx.msgStart.toNat + s.ctx.msgLen.toNat
  inM : memRead s.mem s.cursor 4 = 0 ∨ s.cursor + memRead s.mem s.cursor 4 ≤ s.cfg.bufBytes

/-- `s` with a command ended: STATUS.CODE, the three output lengths and PHASE (R39, R350). -/
def State.ended (s : State) (code : StatusCode) (outLen tplLen listLen : Nat) : State :=
  { s with code := code, phase := .idle,
           res := { s.res with outLen := zext64 outLen, tplLen := zext64 tplLen, listLen := zext64 listLen } }

/-- `s` with an error of class 1 to 4 reported (R352): STATUS.CODE, the output lengths 0, the command ended. -/
def State.failed (s : State) (e : ErrorCode) : State := s.ended (.error e) 0 0 0

/-- `s` with FAULT_OOB reported for byte address a (R355). -/
def State.faulted (s : State) (a : Nat) : State :=
  { s.ended .faultOob 0 0 0 with fault := true, faultInfo := zext64 a }

/-- `s` with a bit-I/O or float command ended in success (R141-R144, R171, R172): n cells returned, and NEXTOFF holding the
bit offset p modulo 2^64. -/
def State.endedAt (s : State) (p n : Nat) : State :=
  { s with code := .ok, phase := .idle,
           res := { s.res with nextoff := zext64 p, outLen := zext64 n, tplLen := 0, listLen := 0 } }

/-- `s` with section k closed (R223): CURSOR past the section, LAST_SEC and SECLEN set. -/
def State.past (s : State) (k : Nat) (sec : Section) : State :=
  { s with op := { s.op with cursor := zext64 (sec.a + sec.len) },
           ctx := { s.ctx with lastSec := zext64 k, seclen := zext64 sec.len } }

/-- Cells d, d+1, ... of `arr'` hold `vals`, and every other cell is as in `arr`. -/
def CellsWritten (arr arr' : Sparse 64) (d : Nat) (vals : List Word) : Prop :=
  (∀ j, j < vals.length → Sparse.read arr' (d + j) = vals.getD j 0) ∧
    ∀ i, i < d ∨ d + vals.length ≤ i → Sparse.read arr' i = Sparse.read arr i

end Sys2Proof.Machine
end

