-- ==== Sys2Proof/Certificates/Slice0/Obligations.lean ====
section
/-! DEFINITION. The statements for the provers. Each docstring says which rule of spec/ the statement formalises; where a
clause rests on a choice of the model, it names the log entry. `State.ended`, `State.endedAt`, `State.failed`,
`State.faulted`, `State.past`, `FieldInM`, `SectionReady` and `CellsWritten` are in Sys2Proof/Safety.lean; a result given as
one of them with named fields replaced says that every other field of the state is as before (the frame). -/

open Sys2Proof Sys2Proof.Machine

/-! ### Encoding -/

/-- Every well-formed command is what its word decodes to (R111, R114, R115): no bit of an encoding is dropped. -/
def Obligations.DecodeInvertsEncode : Prop :=
  ∀ (maxW : Nat) (i : Instr), i.wf maxW = true → decode maxW (encode i) = .ok i

/-- A CMD value that decodes is the encoding of what it decodes to, and that command is well-formed (R114, R115): each value
has at most one meaning. -/
def Obligations.OnlyEncodingsDecode : Prop :=
  ∀ (maxW : Nat) (v : BitVec 64) (i : Instr), decode maxW v = .ok i → v = encode i ∧ i.wf maxW = true

/-- R114: a word decodes to a command of a row exactly when it has the row's match under the row's mask (and, in the four rows
with a free width, the width is at most MAX_W); a word that matches no row is illegal. -/
def Obligations.WordsDecodeByMatchAndMask : Prop :=
  ∀ (maxW : Nat) (word : BitVec 32),
    (∀ i : Instr,
      (∃ j, decode maxW (word.setWidth 64) = .ok j ∧ j.mnemonic = i.mnemonic) ↔
        (word &&& i.matchRow.mask = i.matchRow.pattern ∧
          (i.matchRow.mask = 0xFF01FFFF → (word.extractLsb' 17 7).toNat ≤ maxW))) ∧
      ((∀ i : Instr, word &&& i.matchRow.mask ≠ i.matchRow.pattern) →
        decode maxW (word.setWidth 64) = .error .illegalCmd)

/-- R115: the decoder's checks in their order, on every 64-bit CMD value, and what the engine reports for each error. -/
def Obligations.DecoderChecksInOrder : Prop :=
  ∀ (s : State) (v : BitVec 64),
    let opc := v.extractLsb' 24 8
    let w := v.extractLsb' 17 7
    let wide := opc ∈ [(0x01 : BitVec 8), 0x02, 0x03, 0x04]
    let illegal := decode s.cfg.maxW.bits v = .error .illegalCmd ∧ engineStart v s = .next (s.failed .illegalCmd)
    if v.extractLsb' 32 32 ≠ 0 then illegal
    else if opc ∉ [(0x00 : BitVec 8), 0x01, 0x02, 0x03, 0x04, 0x08, 0x09, 0x10, 0x11, 0x12, 0x13, 0x14, 0x15, 0x16, 0x17,
        0x18, 0x19] then illegal
    else if v.extractLsb' 0 16 ≠ 0 then illegal
    else if ¬wide ∧ w ≠ 0 then illegal
    else if opc ≠ 0x13 ∧ v.getLsbD 16 = true then illegal
    else if wide ∧ w.toNat > s.cfg.maxW.bits then
      decode s.cfg.maxW.bits v = .error .illegalWidth ∧ engineStart v s = .next (s.failed .illegalWidth)
    else ∃ i : Instr, decode s.cfg.maxW.bits v = .ok i ∧ i.opcode = opc ∧ i.fieldW = w ∧ i.fieldG = v.getLsbD 16 ∧
      engineStart v s = exec i s

/-- A word of every row of R114, written out from R111, with the command it decodes to, which it encodes, and that command's text
(R118, whose examples are among them); and the two errors of R115. -/
def Obligations.SampleWordsDecode : Prop :=
  (∀ row ∈ [((0x00000000 : BitVec 64), Instr.nop, "NOP"), (0x010A0000, .gbit 5, "GBIT w=5"), (0x02180000, .gbits 12, "GBITS w=12"),
        (0x03800000, .sbit 64, "SBIT w=64"), (0x04020000, .sbits 1, "SBITS w=1"), (0x08000000, .rdieee, "RDIEEE")] ++
      [(0x09000000, .mkieee, "MKIEEE"), (0x10000000, .unpk0, "UNPK0"), (0x11000000, .unpk1, "UNPK1"), (0x12000000, .unpk2, "UNPK2"),
        (0x13010000, .unpk3 true, "UNPK3 g=1"), (0x13000000, .unpk3 false, "UNPK3")] ++
      [(0x14000000, .unpk4, "UNPK4"), (0x15000000, .unpk5, "UNPK5"), (0x16000000, .unpk6, "UNPK6"), (0x17000000, .unpk7, "UNPK7"),
        (0x18000000, .chkend, "CHKEND"), (0x19000000, .skipsec, "SKIPSEC")],
    decode 64 row.1 = .ok row.2.1 ∧ encode row.2.1 = row.1 ∧ row.2.1.asm = row.2.2) ∧
    decode 32 0x01400000 = .ok (.gbit 32) ∧ decode 32 0x01420000 = .error .illegalWidth ∧
    decode 64 0x05000000 = .error .illegalCmd

/-! ### Bits and fields of M -/

/-- R9: buffer bit p is bit 7 - p mod 8 of byte p div 8. R10: a field's value is the sum of its bits, the first the most
significant; it is below 2^w; it depends on the bytes p div 8 .. (p + w - 1) div 8 alone. R12 (and R80): n bytes are read as one
big-endian integer, the first byte the most significant, so that one byte is itself; MemRead and MemWrite are the field of their
bits. -/
def Obligations.GetBitsIsBitSum : Prop :=
  (∀ (m : Memory) (p w : Nat),
    getBits m p w = ∑ j ∈ Finset.range w, (bitM m (p + j)).toNat * 2 ^ (w - 1 - j) ∧
      getBits m p 0 = 0 ∧ getBits m p w < 2 ^ w ∧
      ∀ m' : Memory, (∀ a, p / 8 ≤ a → a ≤ (p + w - 1) / 8 → Sparse.read m' a = Sparse.read m a) →
        getBits m' p w = getBits m p w) ∧
    ∀ (m : Memory) (p a n v : Nat),
      bitM m p = (Sparse.read m (p / 8)).getLsbD (7 - p % 8) ∧
        memRead m a n = ∑ j ∈ Finset.range n, (Sparse.read m (a + j)).toNat * 256 ^ (n - 1 - j) ∧
        memRead m a 1 = (Sparse.read m a).toNat ∧ memRead m a n = getBits m (8 * a) (8 * n) ∧
        memWrite m a n v = setBits m (8 * a) (8 * n) v

/-- R82: a field read in two parts. -/
def Obligations.GetBitsSplits : Prop :=
  ∀ (m : Memory) (p w k : Nat), k ≤ w → getBits m p w = getBits m p k * 2 ^ (w - k) + getBits m (p + k) (w - k)

/-- R11: a field write sets exactly the field's bits to the low w bits of the value, most significant first, keeps every other
bit and every byte the field has no bit in, and a read of the field then gives the value modulo 2^w. -/
def Obligations.SetBitsWritesOnlyItsBits : Prop :=
  ∀ (m : Memory) (p w v : Nat), Memory.wf m = true →
    (∀ q, bitM (setBits m p w v) q = if p ≤ q ∧ q < p + w then v.testBit (w - 1 - (q - p)) else bitM m q) ∧
      (∀ a, ByteOutside p w a → Sparse.read (setBits m p w v) a = Sparse.read m a) ∧
      getBits (setBits m p w v) p w = v % 2 ^ w ∧ Memory.wf (setBits m p w v) = true

/-! ### Bit-I/O commands -/

/-- R141: GBIT returns the field in RESULT and the offset past it in NEXTOFF and changes nothing else; a field that reaches
past M faults. -/
def Obligations.GbitExtractsField : Prop :=
  ∀ (w : BitVec 7) (s : State),
    (FieldInM s s.bitoff w.toNat →
      exec (.gbit w) s = .next { s.endedAt (s.bitoff + w.toNat) 0 with
        res := { (s.endedAt (s.bitoff + w.toNat) 0).res with result := zext64 (getBits s.mem s.bitoff w.toNat) } }) ∧
      (¬FieldInM s s.bitoff w.toNat →
        exec (.gbit w) s = .next (s.faulted (max (s.bitoff / 8) s.cfg.bufBytes))) ∧
      encodeWord (.gbit w) = 0x01#8 ++ w ++ 0#17 ∧ (Instr.gbit w).asm = "GBIT w=" ++ toString w.toNat

/-- R142: GBITS returns field i of the batch in cell DST + i and changes no other cell; NO_SPACE comes first, then the first
field in increasing index that reaches past M faults. -/
def Obligations.GbitsExtractsBatch : Prop :=
  ∀ (w : BitVec 7) (s : State), Sparse.wf s.arr = true →
    (s.cfg.aCells < s.dst + s.count → exec (.gbits w) s = .next (s.failed .noSpace)) ∧
      (s.dst + s.count ≤ s.cfg.aCells →
        (BatchInM s w.toNat s.skip s.count → ∃ arr',
          exec (.gbits w) s =
              .next { s.endedAt (s.bitoff + s.count * (w.toNat + s.skip)) s.count with arr := arr' } ∧
            CellsWritten s.arr arr' s.dst
              ((List.range s.count).map fun i => zext64 (getBits s.mem (s.bitoff + i * (w.toNat + s.skip)) w.toNat))) ∧
        ∀ k, k < s.count → BatchInM s w.toNat s.skip k → ¬FieldInM s (s.bitoff + k * (w.toNat + s.skip)) w.toNat →
          exec (.gbits w) s =
            .next (s.faulted (max ((s.bitoff + k * (w.toNat + s.skip)) / 8) s.cfg.bufBytes))) ∧
      encodeWord (.gbits w) = 0x02#8 ++ w ++ 0#17 ∧ (Instr.gbits w).asm = "GBITS w=" ++ toString w.toNat

/-- R143: SBIT writes the low W bits of VALUE to the field and keeps every other bit and byte of M; a field that reaches past M
faults. -/
def Obligations.SbitInsertsField : Prop :=
  ∀ (w : BitVec 7) (s : State), Memory.wf s.mem = true →
    (FieldInM s s.bitoff w.toNat → ∃ mem',
      exec (.sbit w) s = .next { s.endedAt (s.bitoff + w.toNat) 0 with mem := mem' } ∧
        (∀ q, bitM mem' q = if s.bitoff ≤ q ∧ q < s.bitoff + w.toNat
          then s.value.testBit (w.toNat - 1 - (q - s.bitoff)) else bitM s.mem q) ∧
        ∀ a, ByteOutside s.bitoff w.toNat a → Sparse.read mem' a = Sparse.read s.mem a) ∧
      (¬FieldInM s s.bitoff w.toNat →
        exec (.sbit w) s = .next (s.faulted (max (s.bitoff / 8) s.cfg.bufBytes))) ∧
      encodeWord (.sbit w) = 0x03#8 ++ w ++ 0#17 ∧ (Instr.sbit w).asm = "SBIT w=" ++ toString w.toNat

/-- R144: SBITS writes the low W bits of cell SRC + i to field i and keeps every other bit and byte of M; SRC_RANGE comes
first, then the first field in increasing index that reaches past M faults. -/
def Obligations.SbitsInsertsBatch : Prop :=
  ∀ (w : BitVec 7) (s : State), Memory.wf s.mem = true →
    let pos := fun i : Nat => s.bitoff + i * (w.toNat + s.skip)
    (s.cfg.aCells < s.src + s.count → exec (.sbits w) s = .next (s.failed .srcRange)) ∧
      (s.src + s.count ≤ s.cfg.aCells →
        (BatchInM s w.toNat s.skip s.count → ∃ mem',
          exec (.sbits w) s = .next { s.endedAt (pos s.count) 0 with mem := mem' } ∧
            (∀ i j, i < s.count → j < w.toNat →
              bitM mem' (pos i + j) = (Sparse.read s.arr (s.src + i)).toNat.testBit (w.toNat - 1 - j)) ∧
            (∀ q, (∀ i, i < s.count → ¬InField (pos i) w.toNat q) → bitM mem' q = bitM s.mem q) ∧
            ∀ a, (∀ i, i < s.count → ByteOutside (pos i) w.toNat a) → Sparse.read mem' a = Sparse.read s.mem a) ∧
        ∀ k, k < s.count → BatchInM s w.toNat s.skip k → ¬FieldInM s (pos k) w.toNat →
          exec (.sbits w) s = .next (s.faulted (max (pos k / 8) s.cfg.bufBytes))) ∧
      encodeWord (.sbits w) = 0x04#8 ++ w ++ 0#17 ∧ (Instr.sbits w).asm = "SBITS w=" ++ toString w.toNat

/-- R145, both commands ending OK: GBIT after SBIT at the same offset returns the value modulo 2^w, GBITS after SBITS returns each cell modulo 2^w, and
no bit outside the fields (the SKIP bits among them) has changed. -/
def Obligations.InsertThenExtractReturnsValue : Prop :=
  ∀ (w : BitVec 7) (s : State), Memory.wf s.mem = true → Sparse.wf s.arr = true → 1 ≤ w.toNat → w.toNat ≤ s.cfg.maxW.bits →
    (FieldInM s s.bitoff w.toNat → ∃ t u,
      exec (.sbit w) s = .next t ∧ exec (.gbit w) t = .next u ∧ t.code = .ok ∧ u.code = .ok ∧
        u.res.result = zext64 (s.value % 2 ^ w.toNat) ∧
        ∀ q, ¬InField s.bitoff w.toNat q → bitM u.mem q = bitM s.mem q) ∧
      (BatchInM s w.toNat s.skip s.count → s.src + s.count ≤ s.cfg.aCells → s.dst + s.count ≤ s.cfg.aCells → ∃ t u,
        exec (.sbits w) s = .next t ∧ exec (.gbits w) t = .next u ∧ t.code = .ok ∧ u.code = .ok ∧
          (∀ i, i < s.count →
            Sparse.read u.arr (s.dst + i) = zext64 ((Sparse.read s.arr (s.src + i)).toNat % 2 ^ w.toNat)) ∧
          ∀ q, (∀ i, i < s.count → ¬InField (s.bitoff + i * (w.toNat + s.skip)) w.toNat q) → bitM u.mem q = bitM s.mem q)

/-! ### Float commands -/

/-- R171: RDIEEE copies pattern i, the 32 bits at BITOFF + 32 i, to cell DST + i with high bits zero; NO_SPACE comes first,
then the first pattern in increasing index that reaches past M faults. -/
def Obligations.RdieeeCopiesPatterns : Prop :=
  ∀ (s : State), Sparse.wf s.arr = true →
    (s.cfg.aCells < s.dst + s.count → exec .rdieee s = .next (s.failed .noSpace)) ∧
      (s.dst + s.count ≤ s.cfg.aCells →
        (BatchInM s 32 0 s.count → ∃ arr',
          exec .rdieee s = .next { s.endedAt (s.bitoff + 32 * s.count) s.count with arr := arr' } ∧
            CellsWritten s.arr arr' s.dst
              ((List.range s.count).map fun i => zext64 (getBits s.mem (s.bitoff + 32 * i) 32))) ∧
        ∀ k, k < s.count → BatchInM s 32 0 k → ¬FieldInM s (s.bitoff + 32 * k) 32 →
          exec .rdieee s = .next (s.faulted (max ((s.bitoff + 32 * k) / 8) s.cfg.bufBytes))) ∧
      encodeWord .rdieee = 0x08000000 ∧ Instr.rdieee.asm = "RDIEEE"

/-- R172: MKIEEE writes bits 31:0 of cell SRC + i to the 32 bits at BITOFF + 32 i and keeps every other bit and byte of M;
SRC_RANGE comes first, then the first pattern in increasing index that reaches past M faults. -/
def Obligations.MkieeeWritesPatterns : Prop :=
  ∀ (s : State), Memory.wf s.mem = true →
    (s.cfg.aCells < s.src + s.count → exec .mkieee s = .next (s.failed .srcRange)) ∧
      (s.src + s.count ≤ s.cfg.aCells →
        (BatchInM s 32 0 s.count → ∃ mem',
          exec .mkieee s = .next { s.endedAt (s.bitoff + 32 * s.count) 0 with mem := mem' } ∧
            (∀ i, i < s.count →
              getBits mem' (s.bitoff + 32 * i) 32 = (Sparse.read s.arr (s.src + i)).toNat % 2 ^ 32) ∧
            (∀ q, ¬InField s.bitoff (32 * s.count) q → bitM mem' q = bitM s.mem q) ∧
            ∀ a, ByteOutside s.bitoff (32 * s.count) a → Sparse.read mem' a = Sparse.read s.mem a) ∧
        ∀ k, k < s.count → BatchInM s 32 0 k → ¬FieldInM s (s.bitoff + 32 * k) 32 →
          exec .mkieee s = .next (s.faulted (max ((s.bitoff + 32 * k) / 8) s.cfg.bufBytes))) ∧
      encodeWord .mkieee = 0x09000000 ∧ Instr.mkieee.asm = "MKIEEE"

/-- R173, both commands ending OK: RDIEEE after MKIEEE at the same BITOFF gives back the cells (those that hold binary32 patterns); MKIEEE of the cells
that RDIEEE at the same BITOFF returned leaves M as it was. -/
def Obligations.FloatRoundTrip : Prop :=
  ∀ (s : State), Memory.wf s.mem = true → Sparse.wf s.arr = true → BatchInM s 32 0 s.count →
    s.dst + s.count ≤ s.cfg.aCells →
    (s.src + s.count ≤ s.cfg.aCells → (∀ i, i < s.count → (Sparse.read s.arr (s.src + i)).toNat < 2 ^ 32) → ∃ t u,
      exec .mkieee s = .next t ∧ exec .rdieee t = .next u ∧ t.code = .ok ∧ u.code = .ok ∧
        ∀ i, i < s.count → Sparse.read u.arr (s.dst + i) = Sparse.read s.arr (s.src + i)) ∧
      ∃ t u, exec .rdieee s = .next t ∧ exec .mkieee { t with op := { t.op with src := t.op.dst } } = .next u ∧
        t.code = .ok ∧ u.code = .ok ∧ u.mem = s.mem

/-! ### Control -/

/-- R340: NOP reports success, clears the output lengths and changes nothing else. -/
def Obligations.NopReportsSuccess : Prop :=
  (∀ s : State, exec .nop s = .next (s.ended .ok 0 0 0)) ∧ encodeWord .nop = 0x00000000 ∧ Instr.nop.asm = "NOP"

/-! ### Opening sections -/

/-- R222: UNPK0 on every state: its refusals in their order, else the message context opened, three cells returned, CURSOR past
Section 0, and nothing else changed. -/
def Obligations.Unpk0OpensMessage : Prop :=
  ∀ (s : State), Sparse.wf s.arr = true →
    let a := s.cursor
    let disc := memRead s.mem (a + 6) 1
    let ed := memRead s.mem (a + 7) 1
    let len := memRead s.mem (a + 8) 8
    encodeWord .unpk0 = 0x10000000 ∧ Instr.unpk0.asm = "UNPK0" ∧
    if s.cfg.bufBytes < a + 16 then exec .unpk0 s = .next (s.faulted (max a s.cfg.bufBytes))
    else if memRead s.mem a 4 ≠ 0x47524942 then exec .unpk0 s = .next (s.failed .notGrib)
    else if ed ≠ 2 then exec .unpk0 s = .next (s.failed .wrongEdition)
    else if len < 20 then exec .unpk0 s = .next (s.failed .lengthMismatch)
    else if s.cfg.aCells < s.dst + 3 then exec .unpk0 s = .next (s.failed .noSpace)
    else ∃ arr',
      exec .unpk0 s = .next { s.ended .ok 3 0 0 with
        arr := arr'
        op := { s.op with cursor := zext64 (a + 16) }
        ctx := { msgStart := zext64 a, msgLen := zext64 len, discipline := zext64 disc, edition := 2, lastSec := 0,
                 ngptsValid := false, drtValid := false, haveBmap := false, geomValid := false, ngpts := 0, gdtNum := 0,
                 nx := 0, ny := 0, scan := 0, pdtNum := 0, nv := 0, ndpts := 0, drtNum := 0, drtLen := 0, bmapInd := 0,
                 seclen := 16 } } ∧
        CellsWritten s.arr arr' s.dst [zext64 disc, zext64 ed, zext64 len]

/-- R221: section k may follow LAST_SEC exactly where the pair stands in the table of R221. R223: what UNPK1 to UNPK7 check before
they read a section's body, in R223's order, each with its minimum length of R220; past all the checks the section is ready. -/
def Obligations.SectionChecksInOrder : Prop :=
  (∀ last k : Nat, k ∈ successors last ↔
    (last, k) ∈ [(0, 1), (1, 2), (1, 3), (2, 3), (3, 4), (4, 5), (5, 6), (6, 7), (7, 2), (7, 3), (7, 4), (7, 8)]) ∧
  ∀ (s : State) (i : Instr) (k minLen : Nat),
    (i, k, minLen) ∈ [(Instr.unpk1, 1, 21), (.unpk2, 2, 5), (.unpk3 false, 3, 14), (.unpk3 true, 3, 14), (.unpk4, 4, 9),
      (.unpk5, 5, 11), (.unpk6, 6, 6), (.unpk7, 7, 5)] →
    let a := s.cursor
    let len := memRead s.mem a 4
    let stop := s.ctx.msgStart.toNat + s.ctx.msgLen.toNat
    if k ∉ successors s.ctx.lastSec.toNat then exec i s = .next (s.failed .badOrder)
    else if stop < a + 5 + 4 then exec i s = .next (s.failed .sectionPastMessage)
    else if s.cfg.bufBytes < a + 5 then exec i s = .next (s.faulted (max a s.cfg.bufBytes))
    else if memRead s.mem (a + 4) 1 ≠ k then exec i s = .next (s.failed .wrongSection)
    else if len < minLen then exec i s = .next (s.failed .badSectionLength)
    else if stop < a + len + 4 then exec i s = .next (s.failed .sectionPastMessage)
    else if s.cfg.bufBytes < a + len then exec i s = .next (s.faulted s.cfg.bufBytes)
    else SectionReady s k minLen

/-- R221: LAST_SEC moves only along the table of R221, except that UNPK0 sets it to 0 from any value and a soft reset to 0xFF
(R391): of every command in its first step, and of every step of every agent in a sound state. -/
def Obligations.SectionsFollowTheOrder : Prop :=
  let table := [((0 : Word), (1 : Word)), (1, 2), (1, 3), (2, 3), (3, 4), (4, 5), (5, 6), (6, 7), (7, 2), (7, 3), (7, 4), (7, 8)]
  (∀ (i : Instr) (s t : State), exec i s = .next t → t.ctx.lastSec ≠ s.ctx.lastSec →
    (i = .unpk0 ∧ t.ctx.lastSec = 0) ∨ (s.ctx.lastSec, t.ctx.lastSec) ∈ table) ∧
    ∀ s t : State, s.Inv → step s = .next t → t.ctx.lastSec ≠ s.ctx.lastSec →
      (s.Starts .unpk0 ∧ t.ctx.lastSec = 0) ∨ (s.ResetsNext ∧ t.ctx.lastSec = 0xFF) ∨
        (s.ctx.lastSec, t.ctx.lastSec) ∈ table

/-! ### Section commands -/

/-- R224: UNPK1 on a ready section returns the 13 fields, each of the width and at the offset of R220, moves past the section,
and changes nothing else; without room it raises NO_SPACE. -/
def Obligations.Unpk1ReturnsIdentification : Prop :=
  ∀ (s : State), Sparse.wf s.arr = true → SectionReady s 1 21 →
    (s.cfg.aCells < s.dst + 13 → exec .unpk1 s = .next (s.failed .noSpace)) ∧
      (s.dst + 13 ≤ s.cfg.aCells → ∃ arr',
        exec .unpk1 s = .next { (s.ended .ok 13 0 0).past 1 (sectionAt s) with arr := arr' } ∧
          CellsWritten s.arr arr' s.dst
            ([(5, 2), (7, 2), (9, 1), (10, 1), (11, 1), (12, 2), (14, 1), (15, 1), (16, 1), (17, 1), (18, 1), (19, 1),
              (20, 1)].map fun f : Nat × Nat => zext64 (memRead s.mem (s.cursor + f.1) f.2)))

/-- R225: UNPK2 on a ready section returns the local-use octets, one a cell; a section of length 5 returns none. -/
def Obligations.Unpk2ReturnsLocalOctets : Prop :=
  ∀ (s : State), Sparse.wf s.arr = true → SectionReady s 2 5 →
    let n := memRead s.mem s.cursor 4 - 5
    (s.cfg.aCells < s.dst + n → exec .unpk2 s = .next (s.failed .noSpace)) ∧
      (s.dst + n ≤ s.cfg.aCells → ∃ arr',
        exec .unpk2 s = .next { (s.ended .ok n 0 0).past 2 (sectionAt s) with arr := arr' } ∧
          CellsWritten s.arr arr' s.dst
            ((List.range n).map fun j => zext64 (memRead s.mem (s.cursor + 5 + j) 1)))

/-- R226, a template in the ROM: UNPK3 returns the five header cells, the template values and the optional list, and sets
NGPTS, GDT_NUM, the geometry registers and their two flags, and nothing else of the context. The parameters are in the bounds of
R6 and R190, so that a geometry index is an index of the fixed entries (R190, R194). -/
def Obligations.Unpk3ReturnsGrid : Prop :=
  ∀ (g : Bool) (s : State) (desc : Descriptor) (vals : List Int) (a2 : Nat) (list : List Nat),
    s.cfg.wf = true → Sparse.wf s.arr = true → SectionReady s 3 14 →
    let a := s.cursor
    let np := memRead s.mem (a + 6) 4
    let no := memRead s.mem (a + 10) 1
    let t := memRead s.mem (a + 12) 2
    let geo : Int × Int × Int :=
      match desc.geometry with
      | none => (0, 0, 0)
      | some q => (vals.getD q.iNx 0, vals.getD q.iNy 0, vals.getD q.iScan 0)
    romLookup s.cfg.rom .grid t = some desc →
    readKnown s.mem desc (a + 14) (sectionAt s).stop = .ok (vals, a2) →
    optList s.cfg.optListRule s.mem no a2 (sectionAt s).stop = .ok list →
    (g = true → desc.geometry ≠ none) →
    s.dst + (5 + vals.length + list.length) ≤ s.cfg.aCells →
    ∃ arr',
      exec (.unpk3 g) s = .next { s.ended .ok (5 + vals.length + list.length) vals.length list.length with
        arr := arr'
        op := { s.op with cursor := zext64 (sectionAt s).stop }
        ctx := { s.ctx with lastSec := 3, seclen := zext64 (sectionAt s).len, ngpts := zext64 np, gdtNum := zext64 t,
                            nx := cell geo.1, ny := cell geo.2.1, scan := cell geo.2.2, ngptsValid := true,
                            geomValid := desc.geometry.isSome } } ∧
        CellsWritten s.arr arr' s.dst
          ([memRead s.mem (a + 5) 1, np, no, memRead s.mem (a + 11) 1, t].map zext64 ++ vals.map cell ++ list.map zext64)

/-- R226, a template not in the ROM and G = 0: UNPK3 reports OK_OPAQUE and returns the header cells and every octet from offset
14 on, one a cell, with the geometry zero and not valid. -/
def Obligations.Unpk3ReturnsOpaqueOctets : Prop :=
  ∀ (s : State), Sparse.wf s.arr = true → SectionReady s 3 14 →
    let a := s.cursor
    let n := (sectionAt s).len - 14
    let t := memRead s.mem (a + 12) 2
    romLookup s.cfg.rom .grid t = none → s.dst + (5 + n) ≤ s.cfg.aCells →
    ∃ arr',
      exec (.unpk3 false) s = .next { s.ended .okOpaque (5 + n) n 0 with
        arr := arr'
        op := { s.op with cursor := zext64 (sectionAt s).stop }
        ctx := { s.ctx with lastSec := 3, seclen := zext64 (sectionAt s).len, ngpts := zext64 (memRead s.mem (a + 6) 4),
                            gdtNum := zext64 t, nx := 0, ny := 0, scan := 0, ngptsValid := true, geomValid := false } } ∧
        CellsWritten s.arr arr' s.dst
          ([memRead s.mem (a + 5) 1, memRead s.mem (a + 6) 4, memRead s.mem (a + 10) 1, memRead s.mem (a + 11) 1, t].map
            zext64 ++ (List.range n).map fun j => zext64 (memRead s.mem (a + 14 + j) 1))

/-- R226, the refusals of UNPK3 after the section is opened, in their order. -/
def Obligations.Unpk3Refusals : Prop :=
  ∀ (g : Bool) (s : State), SectionReady s 3 14 →
    let a := s.cursor
    let no := memRead s.mem (a + 10) 1
    match romLookup s.cfg.rom .grid (memRead s.mem (a + 12) 2) with
    | none =>
      (g = true → exec (.unpk3 g) s = .next (s.failed .unrecognizedTemplate)) ∧
        (g = false → s.cfg.aCells < s.dst + (5 + ((sectionAt s).len - 14)) → exec (.unpk3 g) s = .next (s.failed .noSpace))
    | some desc =>
      (∀ e, readKnown s.mem desc (a + 14) (sectionAt s).stop = .error (.error e) →
        e = .badSectionLength ∧ exec (.unpk3 g) s = .next (s.failed .badSectionLength)) ∧
      ∀ vals a2, readKnown s.mem desc (a + 14) (sectionAt s).stop = .ok (vals, a2) →
        (∀ e, optList s.cfg.optListRule s.mem no a2 (sectionAt s).stop = .error (.error e) →
          e = .badListWidth ∧ exec (.unpk3 g) s = .next (s.failed .badListWidth)) ∧
        ∀ list, optList s.cfg.optListRule s.mem no a2 (sectionAt s).stop = .ok list →
          if g = true ∧ desc.geometry = none then exec (.unpk3 g) s = .next (s.failed .geometryUnknown)
          else s.cfg.aCells < s.dst + (5 + vals.length + list.length) → exec (.unpk3 g) s = .next (s.failed .noSpace)

/-- R227: the optional list under each value of OPT_LIST_RULE. -/
def Obligations.OptionalListEntries : Prop :=
  ∀ (m : Memory) (no a2 e : Nat),
    (∀ rule, optList rule m 0 a2 e = .ok []) ∧
      (1 ≤ no →
        ((e - a2) / no ∉ [1, 2, 4] → optList .countEntries m no a2 e = .error (.error .badListWidth)) ∧
        ((e - a2) / no ∈ [1, 2, 4] → ∃ l, optList .countEntries m no a2 e = .ok l ∧ l.length = no ∧
          ∀ j, j < no → l.getD j 0 = memRead m (a2 + (e - a2) / no * j) ((e - a2) / no)) ∧
        (8 < no → optList .widthOctets m no a2 e = .error (.error .badListWidth)) ∧
        (no ≤ 8 → ∃ l, optList .widthOctets m no a2 e = .ok l ∧ l.length = (e - a2) / no ∧
          ∀ j, j < l.length → l.getD j 0 = memRead m (a2 + no * j) no))

/-- R193 (with R192): the template reader checks that the fixed entries and then the extension end by e, and returns the value
of each entry at its own offset, sign-magnitude where signed, followed by the c 4-octet signed extension fields. R190: c is what
the extension rule gives for the values of the fixed entries: 0 without one; for a sum over indices of fixed entries that is at
least 0, that sum; for any other function, its value (log entry 11). R196 (general knowledge, log entry 8): for template 5.1 of
the default ROM c is `vals[10] + vals[12]`; its nine descriptors, and no other, are written out. -/
def Obligations.TemplateReaderValues : Prop :=
  (let u (o : OctetWidth) : TemplateEntry := ⟨o, false⟩
    let sg (o : OctetWidth) : TemplateEntry := ⟨o, true⟩
    let packed : List TemplateEntry := [u .four, sg .two, sg .two, u .one, u .one]
    ∀ (kind : TemplateKind) (n : Nat) (d : Descriptor), romLookup defaultRom kind n = some d ↔
      (kind, n, d) ∈ [(TemplateKind.grid, 0, Descriptor.mk
          [u .one, u .one, u .four, u .one, u .four, u .one, u .four, u .four, u .four, u .four, u .four, sg .four, u .four, u .one,
            sg .four, u .four, u .four, u .four, u .one] none (some ⟨7, 8, 18⟩)),
        (.product, 0, ⟨[u .one, u .one, u .one, u .one, u .one, u .two, u .one, u .one, u .four, u .one, sg .one, sg .four, u .one,
          sg .one, sg .four], none, none⟩),
        (.dataRep, 0, ⟨packed, none, none⟩),
        (.dataRep, 1, ⟨packed ++ [u .one, u .four, u .two, u .two, u .one, u .one, u .one, u .one, u .one, u .one],
          some (.sumOf [10, 12]), none⟩),
        (.dataRep, 40, ⟨packed ++ [u .one, u .one], none, none⟩), (.dataRep, 41, ⟨packed, none, none⟩),
        (.dataRep, 42, ⟨packed ++ [u .one, u .one, u .two], none, none⟩),
        (.dataRep, 40000, ⟨packed ++ [u .one, u .one], none, none⟩), (.dataRep, 40010, ⟨packed, none, none⟩)]) ∧
  ∀ (m : Memory) (d : Descriptor) (a e : Nat),
    let width := fun t : TemplateEntry => t.octets.count
    let need := (d.entries.map width).sum
    ∃ (vals : List Int) (c : Nat),
      vals.length = d.entries.length ∧
        (∀ j t, d.entries[j]? = some t →
          let raw := memRead m (a + ((d.entries.take j).map width).sum) (width t)
          vals.getD j 0 = if t.signed = true then signMagnitude (8 * width t) raw else (raw : Int)) ∧
        (d.extension = none → c = 0) ∧
        (∀ idx, d.extension = some (.sumOf idx) → (∀ i ∈ idx, i < d.entries.length) →
          0 ≤ (idx.map fun i => vals.getD i 0).sum → (c : Int) = (idx.map fun i => vals.getD i 0).sum) ∧
        (∀ k, d.extension = some (.uninterpreted k) → c = Config.freeExtensionCount k vals) ∧
        (romLookup defaultRom .dataRep 1 = some d → (c : Int) = vals.getD 10 0 + vals.getD 12 0) ∧
        if e < a + need then readKnown m d a e = .error (.error .badSectionLength)
        else if e < a + need + 4 * c then readKnown m d a e = .error (.error .badSectionLength)
        else ∃ ext : List Int, readKnown m d a e = .ok (vals ++ ext, a + need + 4 * c) ∧ ext.length = c ∧
          ∀ j, j < c → ext.getD j 0 = signMagnitude 32 (memRead m (a + need + 4 * j) 4)

/-- R13: the sign-magnitude value of an N-bit field, N >= 2: the low N-1 bits, negated when the top bit is set; a 64-bit cell
of it is its two's complement (R14, R42). -/
def Obligations.SignMagnitudeValue : Prop :=
  ∀ (n v : Nat), 2 ≤ n → v < 2 ^ n →
    signMagnitude n v = (if v < 2 ^ (n - 1) then (v : Int) else -((v : Int) - 2 ^ (n - 1))) ∧
      -(2 ^ (n - 1) - 1) ≤ signMagnitude n v ∧ signMagnitude n v ≤ 2 ^ (n - 1) - 1 ∧
      (n ≤ 64 → (cell (signMagnitude n v)).toInt = signMagnitude n v)

/-- R228: UNPK4 on a ready section: its refusals in their order, else the two header cells, the template values and the NV
coordinates, each the 32 bits of M at its place. -/
def Obligations.Unpk4ReturnsProduct : Prop :=
  ∀ (s : State), Sparse.wf s.arr = true → SectionReady s 4 9 →
    let a := s.cursor
    let nv := memRead s.mem (a + 5) 2
    let t := memRead s.mem (a + 7) 2
    match romLookup s.cfg.rom .product t with
    | none => exec .unpk4 s = .next (s.failed .unrecognizedTemplate)
    | some desc =>
      (∀ r, readKnown s.mem desc (a + 9) (sectionAt s).stop = .error r →
        exec .unpk4 s = .next (s.failed .badSectionLength)) ∧
      ∀ vals a2, readKnown s.mem desc (a + 9) (sectionAt s).stop = .ok (vals, a2) →
        if (sectionAt s).stop < a2 + 4 * nv then exec .unpk4 s = .next (s.failed .badSectionLength)
        else if s.cfg.aCells < s.dst + (2 + vals.length + nv) then exec .unpk4 s = .next (s.failed .noSpace)
        else ∃ arr',
          exec .unpk4 s = .next { s.ended .ok (2 + vals.length + nv) vals.length nv with
            arr := arr'
            op := { s.op with cursor := zext64 (sectionAt s).stop }
            ctx := { s.ctx with lastSec := 4, seclen := zext64 (sectionAt s).len, pdtNum := zext64 t, nv := zext64 nv } } ∧
            CellsWritten s.arr arr' s.dst
              ([nv, t].map zext64 ++ vals.map cell ++
                (List.range nv).map fun j => zext64 (getBits s.mem (8 * (a2 + 4 * j)) 32))

/-- R230: UNPK5 on a ready section: its refusals in their order, else the two header cells and the template values, which are
also latched in DRTV from entry 0 on, later entries keeping what they held. -/
def Obligations.Unpk5LatchesTemplate : Prop :=
  ∀ (s : State), Sparse.wf s.arr = true → Sparse.wf s.drtv = true → SectionReady s 5 11 →
    let a := s.cursor
    let nd := memRead s.mem (a + 5) 4
    let t := memRead s.mem (a + 9) 2
    match romLookup s.cfg.rom .dataRep t with
    | none => exec .unpk5 s = .next (s.failed .unrecognizedTemplate)
    | some desc =>
      (∀ r, readKnown s.mem desc (a + 11) (sectionAt s).stop = .error r →
        exec .unpk5 s = .next (s.failed .badSectionLength)) ∧
      ∀ vals a2, readKnown s.mem desc (a + 11) (sectionAt s).stop = .ok (vals, a2) →
        if s.cfg.drtMax < vals.length then exec .unpk5 s = .next (s.failed .drtTooLong)
        else if s.cfg.aCells < s.dst + (2 + vals.length) then exec .unpk5 s = .next (s.failed .noSpace)
        else ∃ arr' drtv',
          exec .unpk5 s = .next { s.ended .ok (2 + vals.length) vals.length 0 with
            arr := arr'
            drtv := drtv'
            op := { s.op with cursor := zext64 (sectionAt s).stop }
            ctx := { s.ctx with lastSec := 5, seclen := zext64 (sectionAt s).len, ndpts := zext64 nd, drtNum := zext64 t,
                                drtLen := zext64 vals.length, drtValid := true } } ∧
            CellsWritten s.arr arr' s.dst ([nd, t].map zext64 ++ vals.map cell) ∧
            CellsWritten s.drtv drtv' 0 (vals.map cell)

/-- R231: UNPK6 on a ready section, for each indicator: the refusals in their order; the NGPTS bitmap flags for indicator 0;
the indicator cell alone for 254 and 255. -/
def Obligations.Unpk6ReturnsBitmap : Prop :=
  ∀ (s : State), Sparse.wf s.arr = true → SectionReady s 6 6 →
    let a := s.cursor
    let ind := memRead s.mem (a + 5) 1
    let n := s.ctx.ngpts.toNat
    let ends := fun (flags : List Word) (bmap : Bool) => ∃ arr',
      exec .unpk6 s = .next { s.ended .ok (1 + flags.length) 0 flags.length with
        arr := arr'
        op := { s.op with cursor := zext64 (sectionAt s).stop }
        ctx := { s.ctx with lastSec := 6, seclen := zext64 (sectionAt s).len, bmapInd := zext64 ind, haveBmap := bmap } } ∧
        CellsWritten s.arr arr' s.dst (zext64 ind :: flags)
    if ind = 0 then
      if s.ctx.ngptsValid = false then exec .unpk6 s = .next (s.failed .noContext)
      else if (sectionAt s).len < 6 + (n + 7) / 8 then exec .unpk6 s = .next (s.failed .badSectionLength)
      else if s.cfg.aCells < s.dst + (1 + n) then exec .unpk6 s = .next (s.failed .noSpace)
      else ends ((List.range n).map fun i => zext64 (bitM s.mem (8 * (a + 6) + i)).toNat) true
    else if ind = 254 then
      if s.ctx.haveBmap = false then exec .unpk6 s = .next (s.failed .noPriorBitmap)
      else if s.cfg.aCells < s.dst + 1 then exec .unpk6 s = .next (s.failed .noSpace)
      else ends [] true
    else if ind = 255 then
      if s.cfg.aCells < s.dst + 1 then exec .unpk6 s = .next (s.failed .noSpace) else ends [] s.ctx.haveBmap
    else exec .unpk6 s = .next (s.failed .predefinedBitmap)

/-- R232: CHKEND on every state: its refusals in their order, else CURSOR past the end marker, LAST_SEC 8, SECLEN 4, and nothing
else changed. -/
def Obligations.ChkendClosesMessage : Prop :=
  ∀ (s : State),
    let a := s.cursor
    encodeWord .chkend = 0x18000000 ∧ Instr.chkend.asm = "CHKEND" ∧
    if s.ctx.lastSec ≠ 7 then exec .chkend s = .next (s.failed .badOrder)
    else if s.cfg.bufBytes < a + 4 then exec .chkend s = .next (s.faulted (max a s.cfg.bufBytes))
    else if memRead s.mem a 4 ≠ 0x37373737 then exec .chkend s = .next (s.failed .noEnd)
    else if a + 4 ≠ s.ctx.msgStart.toNat + s.ctx.msgLen.toNat then exec .chkend s = .next (s.failed .lengthMismatch)
    else exec .chkend s = .next ((s.ended .ok 0 0 0).past 8 ⟨a, 4⟩)

/-- R233: SKIPSEC on every state: its refusals in their order, else RESULT holds the section's number, CURSOR is past the
section, the flags the section's context needs are cleared, and nothing else is changed. -/
def Obligations.SkipsecPassesSection : Prop :=
  ∀ (s : State),
    let a := s.cursor
    let len := memRead s.mem a 4
    let k := memRead s.mem (a + 4) 1
    let stop := s.ctx.msgStart.toNat + s.ctx.msgLen.toNat
    let least := [0, 21, 5, 14, 9, 11, 6, 5].getD k 0
    encodeWord .skipsec = 0x19000000 ∧ Instr.skipsec.asm = "SKIPSEC" ∧
    if s.ctx.lastSec = 8 ∨ s.ctx.lastSec = 0xFF then exec .skipsec s = .next (s.failed .badOrder)
    else if stop < a + 5 + 4 then exec .skipsec s = .next (s.failed .sectionPastMessage)
    else if s.cfg.bufBytes < a + 5 then exec .skipsec s = .next (s.faulted (max a s.cfg.bufBytes))
    else if k < 1 ∨ 7 < k then exec .skipsec s = .next (s.failed .wrongSection)
    else if k ∉ successors s.ctx.lastSec.toNat then exec .skipsec s = .next (s.failed .badOrder)
    else if len < least then exec .skipsec s = .next (s.failed .badSectionLength)
    else if stop < a + len + 4 then exec .skipsec s = .next (s.failed .sectionPastMessage)
    else exec .skipsec s = .next { s.ended .ok 0 0 0 with
      res := { s.res with result := zext64 k, outLen := 0, tplLen := 0, listLen := 0 }
      op := { s.op with cursor := zext64 (a + len) }
      ctx := { s.ctx with lastSec := zext64 k, seclen := zext64 len,
                          ngptsValid := s.ctx.ngptsValid && k != 3, geomValid := s.ctx.geomValid && k != 3,
                          drtValid := s.ctx.drtValid && k != 5 } }

/-! ### Section 7 -/

/-- R293: where the reconstruction parameters come from: DRTV[0..3] for every algorithm but run-length, which needs RLE_PARAMS. -/
def Obligations.ParametersComeFromDrtv : Prop :=
  ∀ (s : State),
    (∀ alg, alg ≠ Algorithm.rle →
      linearParams s alg = if s.ctx.drtLen.toNat < 4 then none
        else some { rpat := (Sparse.read s.drtv 0).extractLsb' 0 32, e := (Sparse.read s.drtv 1).toInt,
                    d := (Sparse.read s.drtv 2).toInt, nb := (Sparse.read s.drtv 3).toNat }) ∧
      (s.cfg.rleParams = none → linearParams s .rle = none) ∧
      ∀ rule, s.cfg.rleParams = some rule →
        linearParams s .rle = some (rleParamsOf rule ((List.range s.ctx.drtLen.toNat).map fun k => Sparse.read s.drtv k))

/-- R291, the default DISPATCH (general knowledge, log entry 8). R292, the refusals of UNPK7's first step after the section is
opened, in their order, with the enable parameter of each algorithm (R291; SIMPLE has none). -/
def Obligations.Unpk7Refusals : Prop :=
  (∀ (n : Nat) (alg : Algorithm), dispatchLookup defaultDispatch n = some alg ↔
    (n, alg) ∈ [(0, Algorithm.simple), (40, .jpeg2000), (40000, .jpeg2000), (41, .png), (40010, .png), (42, .aec), (200, .rle)]) ∧
  ∀ (s : State), SectionReady s 7 5 →
    let n := s.ctx.ndpts.toNat
    if s.ctx.drtValid = false then exec .unpk7 s = .next (s.failed .noContext)
    else
      match dispatchLookup s.cfg.dispatch s.ctx.drtNum.toNat with
      | none => exec .unpk7 s = .next (s.failed .unsupportedDrt)
      | some alg =>
        if (alg = .jpeg2000 ∧ s.cfg.hasJpeg2000 = false) ∨ (alg = .png ∧ s.cfg.hasPng = false) ∨
            (alg = .aec ∧ s.cfg.hasAec = false) ∨ (alg = .rle ∧ s.cfg.hasRle = false) then
          exec .unpk7 s = .next (s.failed .codecDisabled)
        else
          match linearParams s alg with
          | none => exec .unpk7 s = .next (s.failed .unsupportedDrt)
          | some p =>
            if s.cfg.aCells < s.dst + n then exec .unpk7 s = .next (s.failed .noSpace)
            else if 32 < p.nb then exec .unpk7 s = .next (s.failed .badNbits)
            else (alg = .simple ∧ 8 * ((sectionAt s).len - 5) < n * p.nb ∧ p.nb ≠ 0) →
              exec .unpk7 s = .next (s.failed .shortPayload)

/-- R306: bit width 0, for every algorithm: every output cell is the reference pattern unchanged, whatever the payload holds,
and the section is closed. -/
def Obligations.ConstantFieldCopiesReference : Prop :=
  ∀ (s : State) (alg : Algorithm) (p : LinearParams), Sparse.wf s.arr = true → SectionReady s 7 5 → s.ctx.drtValid = true →
    dispatchLookup s.cfg.dispatch s.ctx.drtNum.toNat = some alg → hasAlgorithm s.cfg alg = true →
    linearParams s alg = some p → s.dst + s.ctx.ndpts.toNat ≤ s.cfg.aCells → p.nb = 0 →
    ∃ arr',
      exec .unpk7 s = .next { (s.ended .ok s.ctx.ndpts.toNat 0 0).past 7 (sectionAt s) with arr := arr' } ∧
        CellsWritten s.arr arr' s.dst (List.replicate s.ctx.ndpts.toNat (p.rpat.setWidth 64))

/-- R305: simple packing: output cell i is RECON of the nb-bit field at bit offset 8 (a + 5) + i nb, and the section is closed. -/
def Obligations.SimplePackingReconstructs : Prop :=
  ∀ (s : State) (p : LinearParams), Sparse.wf s.arr = true → SectionReady s 7 5 → s.ctx.drtValid = true →
    dispatchLookup s.cfg.dispatch s.ctx.drtNum.toNat = some .simple → linearParams s .simple = some p →
    s.dst + s.ctx.ndpts.toNat ≤ s.cfg.aCells → 1 ≤ p.nb → p.nb ≤ 32 →
    s.ctx.ndpts.toNat * p.nb ≤ 8 * ((sectionAt s).len - 5) →
    ∃ arr',
      exec .unpk7 s = .next { (s.ended .ok s.ctx.ndpts.toNat 0 0).past 7 (sectionAt s) with arr := arr' } ∧
        CellsWritten s.arr arr' s.dst
          ((List.range s.ctx.ndpts.toNat).map fun i =>
            (recon s.cfg.recon (getBits s.mem (8 * (s.cursor + 5) + i * p.nb) p.nb) p).setWidth 64)

/-- R292 and R300, an external algorithm: UNPK7 sends one request with a copy of the payload and waits; nothing else changes.
The field `reqSerial`, which counts requests, is the model's own (log entry 5). -/
def Obligations.ExternalFieldSendsRequest : Prop :=
  ∀ (s : State) (alg : Algorithm) (p : LinearParams), SectionReady s 7 5 → s.ctx.drtValid = true →
    dispatchLookup s.cfg.dispatch s.ctx.drtNum.toNat = some alg → alg ≠ .simple → hasAlgorithm s.cfg alg = true →
    linearParams s alg = some p → s.dst + s.ctx.ndpts.toNat ≤ s.cfg.aCells → 1 ≤ p.nb → p.nb ≤ 32 →
    exec .unpk7 s = .next { s with
      reqSerial := s.reqSerial + 1
      phase := .waiting
        { serial := s.reqSerial, a := s.cursor, len := (sectionAt s).len, dst := s.dst, n := s.ctx.ndpts.toNat, params := p,
          req := { algorithm := alg, drtNum := s.ctx.drtNum,
                   payload := (List.range ((sectionAt s).len - 5)).map fun j => Sparse.read s.mem (s.cursor + 5 + j),
                   width := s.ctx.ndpts.toNat, height := 1, depth := p.nb,
                   drtValues := (List.range s.ctx.drtLen.toNat).map fun k => Sparse.read s.drtv k,
                   codecCfg := s.cfg.codecCfg } } }

/-- R304 (and the second step of R292): the codec agent's answer checked, and the samples reconstructed into A from the copies
the waiting state holds. -/
def Obligations.CodecAnswerIsChecked : Prop :=
  ∀ (s : State) (p : Pending), Sparse.wf s.arr = true →
    engineFinish p .fail s = .next (s.failed .codecFailed) ∧
      ∀ xs : List Nat,
        (xs.length ≠ p.n → engineFinish p (.samples xs) s = .next (s.failed .sampleCount)) ∧
        (xs.length = p.n → (∃ x ∈ xs, 2 ^ p.params.nb ≤ x) →
          engineFinish p (.samples xs) s = .next (s.failed .codecFailed)) ∧
        (xs.length = p.n → (∀ x ∈ xs, x < 2 ^ p.params.nb) → ∃ arr',
          engineFinish p (.samples xs) s = .next { (s.ended .ok p.n 0 0).past 7 ⟨p.a, p.len⟩ with arr := arr' } ∧
            CellsWritten s.arr arr' p.dst (xs.map fun x => (recon s.cfg.recon x p.params).setWidth 64))

/-- R401: the second step of UNPK7 does not read the operand registers: what the host writes to them while the engine waits
changes nothing but those registers, and CURSOR is the same where the step writes it, which is where it ends OK. -/
def Obligations.SecondStepUsesCopies : Prop :=
  ∀ (s t : State) (p : Pending) (ans : CodecAnswer) (op' : OperandRegs), engineFinish p ans s = .next t →
    ∃ u, engineFinish p ans { s with op := op' } = .next u ∧ { u with op := t.op } = t ∧
      u.op.cursor = (if t.code = .ok then t.op.cursor else op'.cursor) ∧
      ∀ o ∈ [OperandRegs.bitoff, OperandRegs.count, OperandRegs.skip, OperandRegs.dst, OperandRegs.src, OperandRegs.value],
        o u.op = o op'

/-- R311: with E = 0 and D = 0, STEP32 of a sample is `f32(X) (+) r`, and with the reference 0.0 it is `f32(X)`: the nearest
binary32 number, the sample itself below 2^24. Every output cell of UNPK7 has bits 63:32 zero. -/
def Obligations.SimplePackingIdentity : Prop :=
  (∀ (x : Nat) (rpat : F32), x < 2 ^ 32 →
    reconStep32 x 0x00000000 0 0 = f32OfNat x ∧ reconStep32 x rpat 0 0 = f32Add (f32OfNat x) rpat ∧
      NearestF32 x (f32OfNat x) ∧ (x < 2 ^ 24 → f32Rat (f32OfNat x) = some x)) ∧
    ∀ (rule : ReconRule) (p : LinearParams) (xs : List Nat), ∀ c ∈ reconCells rule p xs, c.extractLsb' 32 32 = 0

/-- R310 (with `f32` of R18): STEP32 is the sample times 2^E, plus the reference, times 10^(-D), each operation and each operand
rounded to the nearest binary32 number; what the operations make of zeros, infinities and NaNs; a NaN reference comes out
quieted, with its payload, where the scale makes no NaN of its own. EXACT rounds the exact real once. That a negative product
which rounds to zero is -0 is the model's choice (log entry 22), and what EXACT makes of an infinite reference and of a result
too small for binary32 is its reading (log entry 9). -/
def Obligations.ReconRoundsEachStep : Prop :=
  (∀ (x : Nat) (rpat : F32) (e d : Int),
    reconStep32 x rpat e d = f32Mul (f32Add (f32Mul (f32OfNat x) (f32Pow2 e)) rpat) (f32Pow10Neg d) ∧
      NearestF32 x (f32OfNat x) ∧ NearestF32 (10 ^ (-d)) (f32Pow10Neg d) ∧
      (e < -149 → f32Pow2 e = 0x00000000) ∧ (127 < e → f32Pow2 e = 0x7F800000) ∧
      (-149 ≤ e → e ≤ 127 → f32Rat (f32Pow2 e) = some (2 ^ e)) ∧
      (f32Value rpat = .nan → e ≤ 127 → x < 2 ^ 32 → reconStep32 x rpat e d = rpat ||| 0x00400000) ∧
      (∀ r, f32Rat rpat = some r → NearestF32 ((x * 2 ^ e + r) * 10 ^ (-d)) (reconExact x rpat e d)) ∧
      (f32Value rpat = .nan → reconExact x rpat e d = rpat ||| 0x00400000) ∧
      ∀ n, f32Value rpat = .inf n → reconExact x rpat e d = rpat) ∧
    ∀ a b : F32,
      (∀ v w, f32Rat a = some v → f32Rat b = some w →
        NearestF32 (v * w) (f32Mul a b) ∧ NearestF32 (v + w) (f32Add a b) ∧
          (v * w = 0 → (f32Mul a b).getLsbD 31 = (a.getLsbD 31 ^^ b.getLsbD 31)) ∧
          (v + w = 0 → (f32Add a b).getLsbD 31 = (a.getLsbD 31 && b.getLsbD 31))) ∧
      (f32Value a = .nan → f32Mul a b = a ||| 0x00400000 ∧ f32Add a b = a ||| 0x00400000) ∧
      (f32Value a ≠ .nan → f32Value b = .nan → f32Mul a b = b ||| 0x00400000 ∧ f32Add a b = b ||| 0x00400000) ∧
      (∀ n m, f32Value a = .inf n → f32Value b = .inf m →
        f32Value (f32Mul a b) = .inf (n ^^ m) ∧ f32Add a b = if n = m then a else 0x7FC00000) ∧
      ∀ n v, f32Value a = .inf n → f32Rat b = some v →
        f32Add a b = a ∧ f32Add b a = a ∧ (v = 0 → f32Mul a b = 0x7FC00000 ∧ f32Mul b a = 0x7FC00000) ∧
          (v ≠ 0 → f32Value (f32Mul a b) = .inf (n ^^ b.getLsbD 31) ∧ f32Value (f32Mul b a) = .inf (n ^^ b.getLsbD 31))

/-! ### Errors and the fault -/

/-- R352: a command that ends with an error code of class 1 to 4, whichever of its engine steps ends it and the decoder's errors
among them, has changed STATUS.CODE and the output lengths, and nothing else. -/
def Obligations.ErrorsChangeNothingElse : Prop :=
  (∀ (i : Instr) (s t : State) (e : ErrorCode),
    exec i s = .next t → t.phase = .idle → t.code = .error e → t = s.failed e) ∧
    ∀ (s t : State) (e : ErrorCode),
      s.phase ≠ .idle → blockMove s = .next t → t.phase = .idle → t.code = .error e → t = s.failed e

/-- R355: a command that ends with FAULT_OOB, whichever of its engine steps ends it, has changed what an error changes, set
STATUS.FAULT and written FAULT_INFO, and nothing else; and FAULT_INFO is a byte address at or above BUF_BYTES, in every instance
with parameters in the bounds of R6. -/
def Obligations.FaultChangesNothingElse : Prop :=
  (∀ (i : Instr) (s t : State), exec i s = .next t → t.phase = .idle → t.code = .faultOob →
    t = s.faulted t.faultInfo.toNat ∧ (s.cfg.wf = true → s.cfg.bufBytes ≤ t.faultInfo.toNat)) ∧
    ∀ s t : State, s.phase ≠ .idle → blockMove s = .next t → t.phase = .idle → t.code = .faultOob →
      t = s.faulted t.faultInfo.toNat ∧ (s.cfg.wf = true → s.cfg.bufBytes ≤ t.faultInfo.toNat)

/-- R356: while STATUS.FAULT is 1, a write to CMD changes nothing, the host's other accesses work, and no step but a soft reset
clears the fault. -/
def Obligations.FaultIsSticky : Prop :=
  ∀ (s : State), s.fault = true →
    (∀ v, hostMove (.regWrite 0x000 64 v) s = .next s) ∧
      (∀ off r, s.RegistersOpen → regAt s.cfg off = some r →
        hostMove (.regRead off 64) s = .next { s with reply := some (.reg (readReg s r)) }) ∧
      (s.phase = .idle → ∀ a b, a < s.cfg.bufBytes →
        hostMove (.mRead a) s = .next { s with reply := some (.byte (Sparse.read s.mem a)) } ∧
          hostMove (.mWrite a b) s = .next { s with mem := Sparse.write s.mem a b }) ∧
      (s.phase = .idle → ∀ i v, i < s.cfg.aCells →
        hostMove (.aRead i) s = .next { s with reply := some (.cell (Sparse.read s.arr i)) } ∧
          hostMove (.aWrite i v) s = .next { s with arr := Sparse.write s.arr i v }) ∧
      ∀ t, step s = .next t → t.fault = false →
        ∃ v rest, s.turns = .host (.regWrite 0x010 64 v) :: rest ∧ v.getLsbD 0 = true

/-- R35 and the numbers of R351: the fields of STATUS: CODE and its class, each code with its own number, BUSY and WAIT_EXT from
PHASE (R48), FAULT, and the reserved bits 0. -/
def Obligations.StatusFields : Prop :=
  ∀ (s : State),
    (s.code, (s.status.extractLsb' 0 8).toNat, (s.status.extractLsb' 8 3).toNat) ∈
        [(StatusCode.ok, 0x00, 0), (.okOpaque, 0x01, 0), (.error .notGrib, 0x10, 1), (.error .wrongEdition, 0x11, 1),
          (.error .wrongSection, 0x12, 1), (.error .badOrder, 0x13, 1), (.error .badSectionLength, 0x14, 1)] ++
        [(.error .sectionPastMessage, 0x15, 1), (.error .noEnd, 0x16, 1), (.error .lengthMismatch, 0x17, 1),
          (.error .noPriorBitmap, 0x18, 1), (.error .shortPayload, 0x19, 1), (.error .noContext, 0x1A, 1)] ++
        [(.error .unrecognizedTemplate, 0x20, 2), (.error .predefinedBitmap, 0x21, 2), (.error .codecDisabled, 0x22, 2),
          (.error .unsupportedDrt, 0x23, 2), (.error .badNbits, 0x24, 2), (.error .codecFailed, 0x25, 2),
          (.error .sampleCount, 0x26, 2), (.error .geometryUnknown, 0x27, 2), (.error .badListWidth, 0x28, 2)] ++
        [(.error .noSpace, 0x30, 3), (.error .drtTooLong, 0x31, 3), (.error .illegalCmd, 0x40, 4),
          (.error .illegalWidth, 0x41, 4), (.error .srcRange, 0x42, 4), (.faultOob, 0x70, 7)] ∧
      (s.status.extractLsb' 11 5).toNat = 0 ∧ s.status.getLsbD 16 = decide (s.phase ≠ .idle) ∧
      (s.status.getLsbD 17 = true ↔ ∃ p, s.phase = .waiting p) ∧ s.status.getLsbD 18 = s.fault ∧
      (s.status.extractLsb' 19 45).toNat = 0

/-- R46 and the fields of R45: what PARAMS, BUFSIZE, ACELLS, DRTMAX and CTXFLAGS read, bit by bit. -/
def Obligations.ParameterAndFlagFields : Prop :=
  ∀ (s : State),
    let p := readReg s .params
    let f := readReg s .ctxflags
    (p.extractLsb' 0 8).toNat = s.cfg.maxW.bits ∧ p.getLsbD 8 = s.cfg.hasJpeg2000 ∧ p.getLsbD 9 = s.cfg.hasPng ∧
      p.getLsbD 10 = s.cfg.hasAec ∧ p.getLsbD 11 = s.cfg.hasRle ∧ p.getLsbD 12 = s.cfg.rleParams.isSome ∧
      (p.getLsbD 13 = true ↔ s.cfg.optListRule = .countEntries) ∧ (p.extractLsb' 14 50).toNat = 0 ∧
      readReg s .bufsize = zext64 s.cfg.bufBytes ∧ readReg s .acells = zext64 s.cfg.aCells ∧
      readReg s .drtmax = zext64 s.cfg.drtMax ∧
      f.getLsbD 0 = s.ctx.ngptsValid ∧ f.getLsbD 1 = s.ctx.drtValid ∧ f.getLsbD 2 = s.ctx.haveBmap ∧
      f.getLsbD 3 = s.ctx.geomValid ∧ (f.extractLsb' 4 60).toNat = 0

/-! ### The life cycle and the host port -/

/-- A step is one move of R341, on the state less the turn it used. Where a command has been issued and the block moves next, it is
the command's meaning, or the decoder's error (R115); where a request waits, what the codec agent draws (log entry 10); where an
answer has come, engine step 2; where the block is idle, nothing. Where a turn of the host or an answer from outside comes first,
it is that move. A command placed by `withFetchWord` is run by the very next step. A poll reads STATUS and, while BUSY is 1, has
the block move and polls again (R119). Turns, poll and `withFetchWord` are the model's own (log entries 2 and 4). -/
def Obligations.StepRunsDecodedCommand : Prop :=
  (∀ s : State,
    let u : State := { s with turns := s.turns.tail }
    (s.BlockMoves →
      (s.phase = .idle → step s = .next u) ∧
        (∀ v, s.phase = .issued v →
          (∀ i, decode s.cfg.maxW.bits v = .ok i → step s = exec i u) ∧
            (decode s.cfg.maxW.bits v = .error .illegalCmd → step s = .next (u.failed .illegalCmd)) ∧
            (decode s.cfg.maxW.bits v = .error .illegalWidth → step s = .next (u.failed .illegalWidth))) ∧
        (∀ p, s.phase = .waiting p → step s = .next (match Config.codecAnswer s.draws p.req with
          | none => { u with draws := s.draws + 1 }
          | some ans => { u with draws := s.draws + 1, phase := .answered p ans })) ∧
        ∀ p ans, s.phase = .answered p ans → step s = engineFinish p ans u) ∧
      (∀ m rest, s.turns = .host m :: rest → step s = hostMove m u) ∧
      (∀ n ans rest, s.turns = .codec n ans :: rest → step s = .next (codecMove n ans u)) ∧
      hostMove .poll s = .next { s with
        reply := some (.reg s.status)
        turns := if s.phase = .idle then s.turns else .block :: .host .poll :: s.turns }) ∧
  ∀ (s : State) (i : Instr),
    (∀ v, s.phase = .issued v → decode s.cfg.maxW.bits v = .ok i →
      (s.turns = [] → step s = exec i s) ∧ ∀ rest, s.turns = .block :: rest → step s = exec i { s with turns := rest }) ∧
      ∀ nbits w, decode s.cfg.maxW.bits (BitVec.ofNat 64 (w % 2 ^ nbits)) = .ok i →
        step (s.withFetchWord nbits w) = exec i { s with phase := .issued (BitVec.ofNat 64 (w % 2 ^ nbits)) }

/-- R34: a write to CMD issues the command when the block is idle and not faulted, is ignored when it is faulted, and has no move
when it is busy; reads of CMD return 0. -/
def Obligations.CmdWriteIssuesCommand : Prop :=
  ∀ (s : State) (v : Word),
    (s.phase = .idle → s.fault = false → hostMove (.regWrite 0x000 64 v) s = .next { s with phase := .issued v }) ∧
      (s.fault = true → hostMove (.regWrite 0x000 64 v) s = .next s) ∧
      (s.phase ≠ .idle → s.fault = false → hostMove (.regWrite 0x000 64 v) s = .refused .hostCmdWhileBusy) ∧
      hostMove (.regRead 0x000 64) s = .next { s with reply := some (.reg 0) }

/-- R49 (with the offsets of R33): a host write to an operand register sets that register; a write to any read-only register
changes nothing. While BUSY is 1 this is so where the registers are open to the host (log entry 7), and for STATUS always. -/
def Obligations.RegisterWritesChangeOperandsOnly : Prop :=
  ∀ (s : State) (v : Word),
    (s.RegistersOpen →
      hostMove (.regWrite 0x020 64 v) s = .next { s with op := { s.op with bitoff := v } } ∧
        hostMove (.regWrite 0x028 64 v) s = .next { s with op := { s.op with count := v } } ∧
        hostMove (.regWrite 0x030 64 v) s = .next { s with op := { s.op with skip := v } } ∧
        hostMove (.regWrite 0x038 64 v) s = .next { s with op := { s.op with dst := v } } ∧
        hostMove (.regWrite 0x040 64 v) s = .next { s with op := { s.op with src := v } } ∧
        hostMove (.regWrite 0x048 64 v) s = .next { s with op := { s.op with value := v } } ∧
        hostMove (.regWrite 0x050 64 v) s = .next { s with op := { s.op with cursor := v } } ∧
        (∀ off ∈ 0x018 :: (List.range 27).map (fun k => 0x058 + 8 * k), hostMove (.regWrite off 64 v) s = .next s) ∧
        ∀ k, k < s.cfg.drtMax → hostMove (.regWrite (0x200 + 8 * k) 64 v) s = .next s) ∧
      hostMove (.regWrite 0x008 64 v) s = .next s

/-- R50 and R84: the host accesses that have no move, each of which the host port faults or refuses under a name of its own (log
entry 6): a register access at an unmapped offset or one that is no multiple of 8, or of another width than 64 bits; an access to
M or A while BUSY is 1, or at or above BUF_BYTES or A_CELLS; and, in a block that follows R84 and R93 where they differ from R341
(log entry 7), an access while BUSY is 1 to a register other than CMD, CTRL and STATUS. -/
def Obligations.AccessesWithoutMove : Prop :=
  ∀ (s : State) (off width a : Nat) (v : Word) (b : Byte),
    (width ≠ 64 → hostMove (.regRead off width) s = .refused (.hostAccessWidth width) ∧
      hostMove (.regWrite off width v) s = .refused (.hostAccessWidth width)) ∧
      (off % 8 ≠ 0 ∨ (0x130 ≤ off ∧ off < 0x200) ∨ 0x200 + 8 * s.cfg.drtMax ≤ off →
        hostMove (.regRead off 64) s = .fault (.hostUnmappedRegister off) ∧
          hostMove (.regWrite off 64 v) s = .fault (.hostUnmappedRegister off)) ∧
      (off % 8 = 0 → off < 0x130 ∨ (0x200 ≤ off ∧ off < 0x200 + 8 * s.cfg.drtMax) →
        (∃ r, regAt s.cfg off = some r) ∧
          (s.phase ≠ .idle → s.cfg.busyRegisters = .excluded → off ∉ [0x000, 0x008, 0x010] →
            hostMove (.regRead off 64) s = .refused .hostRegisterWhileBusy ∧
              hostMove (.regWrite off 64 v) s = .refused .hostRegisterWhileBusy)) ∧
      (s.phase ≠ .idle →
        hostMove (.mRead a) s = .refused .hostStorageWhileBusy ∧ hostMove (.mWrite a b) s = .refused .hostStorageWhileBusy ∧
          hostMove (.aRead a) s = .refused .hostStorageWhileBusy ∧
          hostMove (.aWrite a v) s = .refused .hostStorageWhileBusy) ∧
      (s.phase = .idle → s.cfg.bufBytes ≤ a →
        hostMove (.mRead a) s = .fault (.hostMemoryRange a) ∧ hostMove (.mWrite a b) s = .fault (.hostMemoryRange a)) ∧
      (s.phase = .idle → s.cfg.aCells ≤ a →
        hostMove (.aRead a) s = .fault (.hostArrayRange a) ∧ hostMove (.aWrite a v) s = .fault (.hostArrayRange a))

/-- R33, R84, R89 and R341: a host read gives back the value of the register that R33 puts at its offset, of the byte of M or of the
cell of A, and changes nothing of the block; a host write of M or A changes that byte or cell alone. The value given back stands
in the model's field `reply` (log entry 2). -/
def Obligations.HostReadsAndStorageWrites : Prop :=
  ∀ (s : State),
    (∀ row ∈ [(0x000, (0 : Word)), (0x008, s.status), (0x010, 0)],
      hostMove (.regRead row.1 64) s = .next { s with reply := some (.reg row.2) }) ∧
      (s.RegistersOpen →
        (∀ row ∈ [(0x018, s.faultInfo), (0x020, s.op.bitoff), (0x028, s.op.count), (0x030, s.op.skip), (0x038, s.op.dst),
              (0x040, s.op.src), (0x048, s.op.value), (0x050, s.op.cursor), (0x058, s.res.result), (0x060, s.res.nextoff)] ++
            [(0x068, s.res.outLen), (0x070, s.res.tplLen), (0x078, s.res.listLen), (0x080, s.ctx.msgStart),
              (0x088, s.ctx.msgLen), (0x090, s.ctx.discipline), (0x098, s.ctx.edition), (0x0A0, s.ctx.lastSec),
              (0x0A8, s.ctx.flags), (0x0B0, s.ctx.ngpts), (0x0B8, s.ctx.gdtNum), (0x0C0, s.ctx.nx)] ++
            [(0x0C8, s.ctx.ny), (0x0D0, s.ctx.scan), (0x0D8, s.ctx.pdtNum), (0x0E0, s.ctx.nv), (0x0E8, s.ctx.ndpts),
              (0x0F0, s.ctx.drtNum), (0x0F8, s.ctx.drtLen), (0x100, s.ctx.bmapInd), (0x108, s.ctx.seclen),
              (0x110, paramsWord s.cfg), (0x118, zext64 s.cfg.bufBytes), (0x120, zext64 s.cfg.aCells),
              (0x128, zext64 s.cfg.drtMax)],
          hostMove (.regRead row.1 64) s = .next { s with reply := some (.reg row.2) }) ∧
        ∀ k, k < s.cfg.drtMax →
          hostMove (.regRead (0x200 + 8 * k) 64) s = .next { s with reply := some (.reg (Sparse.read s.drtv k)) }) ∧
      (s.phase = .idle → Memory.wf s.mem = true → ∀ a b, a < s.cfg.bufBytes →
        hostMove (.mRead a) s = .next { s with reply := some (.byte (Sparse.read s.mem a)) } ∧
          ∃ mem', hostMove (.mWrite a b) s = .next { s with mem := mem' } ∧ Sparse.read mem' a = b ∧
            ∀ c, c ≠ a → Sparse.read mem' c = Sparse.read s.mem c) ∧
      (s.phase = .idle → Sparse.wf s.arr = true → ∀ i v, i < s.cfg.aCells →
        hostMove (.aRead i) s = .next { s with reply := some (.cell (Sparse.read s.arr i)) } ∧
          ∃ arr', hostMove (.aWrite i v) s = .next { s with arr := arr' } ∧ Sparse.read arr' i = v ∧
            ∀ c, c ≠ i → Sparse.read arr' c = Sparse.read s.arr c) ∧
      ∀ (t : State) (m : HostMove), hostMove m s = .next t →
        (∃ off w, m = .regRead off w) ∨ (∃ a, m = .mRead a) ∨ (∃ i, m = .aRead i) → t = { s with reply := t.reply }

/-- R391 and R36: a write of 1 to CTRL.SRST in any PHASE gives the state after power-on reset of the same instance, with M and A
as they were; every request sent before it is withdrawn, no later step makes a withdrawn request wait again, and an answer to one
changes nothing. That the model's own fields stay, and that requests have serial numbers, is the model's (log entries 5 and 20). -/
def Obligations.SoftResetKeepsMemories : Prop :=
  ∀ (s : State) (v : Word),
    (v.getLsbD 0 = true →
      let t := { State.powerOn s.cfg s.mem s.arr with
        turns := s.turns, reply := s.reply, reqSerial := s.reqSerial, draws := s.draws }
      hostMove (.regWrite 0x010 64 v) s = .next t ∧ ∀ n, n < s.reqSerial → t.Withdrawn n) ∧
      (s.Inv → ∀ p, s.phase = .waiting p → p.serial < s.reqSerial) ∧
      (∀ n, s.Withdrawn n → (∀ ans, codecMove n ans s = s) ∧ ∀ t, step s = .next t → t.Withdrawn n) ∧
      (v.getLsbD 0 = false → hostMove (.regWrite 0x010 64 v) s = .next s) ∧
      hostMove (.regRead 0x010 64) s = .next { s with reply := some (.reg 0) }

/-- R390: after power-on reset every register reads 0, except LAST_SEC, which reads 0xFF, and the four constants; PHASE is IDLE;
M and A are whatever they are. -/
def Obligations.PowerOnResetValues : Prop :=
  ∀ (cfg : Config) (mem : Memory) (arr : Sparse 64),
    let s := State.powerOn cfg mem arr
    (∀ r, r ∉ [Reg.lastSec, .params, .bufsize, .acells, .drtmax] → readReg s r = 0) ∧ readReg s .lastSec = 0xFF ∧
      readReg s .params = paramsWord cfg ∧ readReg s .bufsize = zext64 cfg.bufBytes ∧
      readReg s .acells = zext64 cfg.aCells ∧ readReg s .drtmax = zext64 cfg.drtMax ∧
      s.phase = .idle ∧ s.mem = mem ∧ s.arr = arr ∧ s.cfg = cfg

/-- R99: no step changes the parameters, the ROM and CODEC_CFG among them. -/
def Obligations.ParametersNeverChange : Prop :=
  ∀ (s t : State), step s = .next t → t.cfg = s.cfg

/-- R94, R300 and R402: while a request waits, the agent's own move leaves it waiting or answers it, and changes nothing else but
the model's draw counter (log entry 10); an answer to it moves PHASE to ANSWERED; an answer to another request, or to one that a
soft reset withdrew, is discarded (R391). That a serial number tells requests apart is the model's choice (log entry 5). -/
def Obligations.CodecAgentTouchesNothing : Prop :=
  ∀ (s t : State) (p : Pending) (n : Nat) (ans : CodecAnswer),
    (s.phase = .waiting p → blockMove s = .next t →
      (t.phase = .waiting p ∨ ∃ a, t.phase = .answered p a) ∧ t = { s with phase := t.phase, draws := s.draws + 1 }) ∧
      (s.phase = .waiting p → codecMove p.serial ans s = { s with phase := .answered p ans }) ∧
      ((∀ q, s.phase = .waiting q → q.serial ≠ n) → codecMove n ans s = s)

/-! ### Whole-machine rules -/

/-- R40 and R84: no command but SBIT, SBITS and MKIEEE writes M, in either engine step: a step after which M is not the same is the
first step of one of these or the host's own write of a byte. -/
def Obligations.OnlyInsertersWriteM : Prop :=
  (∀ (i : Instr) (s t : State), exec i s = .next t → t.mem ≠ s.mem →
    (∃ w, i = .sbit w) ∨ (∃ w, i = .sbits w) ∨ i = .mkieee) ∧
    ∀ s t : State, step s = .next t → t.mem ≠ s.mem →
      (∃ i, s.Starts i ∧ ((∃ w, i = .sbit w) ∨ (∃ w, i = .sbits w) ∨ i = .mkieee)) ∨
        ∃ a b rest, s.turns = .host (.mWrite a b) :: rest

/-- R41 and R84: no command but SBITS and MKIEEE reads A, in either engine step: on two states that differ in A alone, the other
commands, the decoder's errors, the wait and the second step of UNPK7 write the same cells with the same values, and end in states
that differ in A alone. -/
def Obligations.OnlyPackersReadA : Prop :=
  (∀ (i : Instr) (s t : State) (arr' : Sparse 64), (∀ w, i ≠ .sbits w) → i ≠ .mkieee → exec i s = .next t →
    ∃ d vs, t.arr = Sparse.writeRun s.arr d vs ∧
      exec i { s with arr := arr' } = .next { t with arr := Sparse.writeRun arr' d vs }) ∧
    ∀ (s t : State) (arr' : Sparse 64),
      (∀ v i, s.phase = .issued v → decode s.cfg.maxW.bits v = .ok i → (∀ w, i ≠ .sbits w) ∧ i ≠ .mkieee) →
      blockMove s = .next t → ∃ d vs, t.arr = Sparse.writeRun s.arr d vs ∧
        blockMove { s with arr := arr' } = .next { t with arr := Sparse.writeRun arr' d vs }

/-- The invariant of Sys2Proof/Safety.lean holds after power-on reset of every instance with parameters in the bounds of R6, and
after State.reset, whose parameters are the defaults of R6 where R6 gives one. -/
def Obligations.ResetIsSound : Prop :=
  (∀ (cfg : Config) (mem : Memory) (arr : Sparse 64), cfg.wf = true → Memory.wf mem = true → Sparse.wf arr = true →
    Sparse.below cfg.bufBytes mem = true → Sparse.below cfg.aCells arr = true → (State.powerOn cfg mem arr).Inv) ∧
    State.reset.Inv ∧ State.reset.cfg.maxW = .w64 ∧ State.reset.cfg.drtMax = 64 ∧ State.reset.cfg.rom = defaultRom ∧
    State.reset.cfg.dispatch = defaultDispatch ∧ State.reset.cfg.recon = .step32 ∧ State.reset.cfg.optListRule = .countEntries

/-- Every step of every agent keeps the invariant: M, A and DRTV stay canonical and in range, LAST_SEC a legal value, STATUS.FAULT
and the FAULT_OOB code together, no command running while faulted, and the waiting UNPK7 able to finish. -/
def Obligations.StepKeepsInvariant : Prop :=
  ∀ (s t : State), s.Inv → step s = .next t → t.Inv
end

