-- ==== Sys2Proof/Laws/Sparse.lean ====
section
/-! SUPPORT. The laws of sparse memories: a read after a write, the canonical form and the address bound kept by every
write, and that a canonical memory is determined by what it reads as. -/

namespace Sys2Proof.Machine

variable {n : Nat}

@[simp] theorem Sparse.read_nil (a : Nat) : Sparse.read ([] : Sparse n) a = Sparse.unlisted n := rfl

theorem Sparse.read_cons (k : Nat) (v : BitVec n) (m : Sparse n) (a : Nat) :
    Sparse.read ((k, v) :: m) a = if k = a then v else Sparse.read m a := rfl

theorem Sparse.wfFrom_cons {lo k : Nat} {v : BitVec n} {m : Sparse n} :
    Sparse.wfFrom lo ((k, v) :: m) = true ↔ lo ≤ k ∧ v ≠ Sparse.unlisted n ∧ Sparse.wfFrom (k + 1) m = true := by
  simp [Sparse.wfFrom, and_assoc]

theorem Sparse.wfFrom_mono {lo lo' : Nat} {m : Sparse n} (h : Sparse.wfFrom lo m = true) (hle : lo' ≤ lo) :
    Sparse.wfFrom lo' m = true := by
  cases m with
  | nil => rfl
  | cons e m =>
    obtain ⟨k, v⟩ := e
    rw [Sparse.wfFrom_cons] at h ⊢
    exact ⟨hle.trans h.1, h.2⟩

theorem Sparse.read_of_lt {lo a : Nat} {m : Sparse n} (h : Sparse.wfFrom lo m = true) (ha : a < lo) :
    Sparse.read m a = Sparse.unlisted n := by
  induction m generalizing lo with
  | nil => rfl
  | cons e m ih =>
    obtain ⟨k, v⟩ := e
    rw [Sparse.wfFrom_cons] at h
    rw [Sparse.read_cons, if_neg (by omega), ih h.2.2 (by omega)]

theorem Sparse.wfFrom_write {lo a : Nat} {v : BitVec n} {m : Sparse n} (h : Sparse.wfFrom lo m = true) (ha : lo ≤ a) :
    Sparse.wfFrom lo (Sparse.write m a v) = true := by
  induction m generalizing lo with
  | nil =>
    rw [Sparse.write]
    split
    · rfl
    · rw [Sparse.wfFrom_cons]; exact ⟨ha, ‹_›, rfl⟩
  | cons e m ih =>
    obtain ⟨k, w⟩ := e
    have h' := Sparse.wfFrom_cons.mp h
    rw [Sparse.write]
    split
    · split
      · exact h
      · exact Sparse.wfFrom_cons.mpr ⟨ha, ‹_›, Sparse.wfFrom_cons.mpr ⟨by omega, h'.2⟩⟩
    · split
      · split
        · exact Sparse.wfFrom_mono h'.2.2 (by omega)
        · exact Sparse.wfFrom_cons.mpr ⟨ha, ‹_›, by subst a; exact h'.2.2⟩
      · exact Sparse.wfFrom_cons.mpr ⟨h'.1, h'.2.1, ih h'.2.2 (by omega)⟩

/-- A write keeps the canonical form. -/
theorem Sparse.wf_write {a : Nat} {v : BitVec n} {m : Sparse n} (h : Sparse.wf m = true) :
    Sparse.wf (Sparse.write m a v) = true :=
  Sparse.wfFrom_write h (Nat.zero_le a)

theorem Sparse.read_write_from {lo a b : Nat} {v : BitVec n} {m : Sparse n} (h : Sparse.wfFrom lo m = true) :
    Sparse.read (Sparse.write m a v) b = if b = a then v else Sparse.read m b := by
  induction m generalizing lo with
  | nil =>
    rw [Sparse.write]
    split
    · simp_all
    · simp [Sparse.read_cons, eq_comm]
  | cons e m ih =>
    obtain ⟨k, w⟩ := e
    have h' := Sparse.wfFrom_cons.mp h
    rw [Sparse.write]
    by_cases hb : b = a
    · subst hb
      rw [if_pos rfl]
      split
      · split
        · rw [Sparse.read_of_lt (lo := k) (Sparse.wfFrom_cons.mpr ⟨le_rfl, h'.2⟩) ‹_›]; simp_all
        · simp [Sparse.read_cons]
      · split
        · split
          · rw [Sparse.read_of_lt h'.2.2 (by omega)]; simp_all
          · simp [Sparse.read_cons]
        · rw [Sparse.read_cons, if_neg (by omega), ih h'.2.2, if_pos rfl]
    · rw [if_neg hb]
      split
      · split
        · rfl
        · rw [Sparse.read_cons, if_neg (Ne.symm hb)]
      · split
        · subst a
          split
          · rw [Sparse.read_cons, if_neg (Ne.symm hb)]
          · rw [Sparse.read_cons, if_neg (Ne.symm hb), Sparse.read_cons, if_neg (Ne.symm hb)]
        · rw [Sparse.read_cons, Sparse.read_cons, ih h'.2.2, if_neg hb]

/-- A read after a write: the written value at its address, every other address as before. -/
theorem Sparse.read_write {a b : Nat} {v : BitVec n} {m : Sparse n} (h : Sparse.wf m = true) :
    Sparse.read (Sparse.write m a v) b = if b = a then v else Sparse.read m b :=
  Sparse.read_write_from h

theorem Sparse.below_cons {bound k : Nat} {v : BitVec n} {m : Sparse n} :
    Sparse.below bound ((k, v) :: m) = true ↔ k < bound ∧ Sparse.below bound m = true := by
  simp [Sparse.below]

/-- A write below the bound keeps every listed address below it. -/
theorem Sparse.below_write {bound a : Nat} {v : BitVec n} {m : Sparse n} (h : Sparse.below bound m = true) (ha : a < bound) :
    Sparse.below bound (Sparse.write m a v) = true := by
  induction m with
  | nil =>
    rw [Sparse.write]
    split
    · rfl
    · exact Sparse.below_cons.mpr ⟨ha, rfl⟩
  | cons e m ih =>
    obtain ⟨k, w⟩ := e
    have h' := Sparse.below_cons.mp h
    rw [Sparse.write]
    split
    · split
      · exact h
      · exact Sparse.below_cons.mpr ⟨ha, h⟩
    · split
      · split
        · exact h'.2
        · exact Sparse.below_cons.mpr ⟨ha, h'.2⟩
      · exact Sparse.below_cons.mpr ⟨h'.1, ih h'.2⟩

/-- A run of writes keeps the canonical form. -/
theorem Sparse.wf_writeRun {d : Nat} {vs : List (BitVec n)} {m : Sparse n} (h : Sparse.wf m = true) :
    Sparse.wf (Sparse.writeRun m d vs) = true := by
  induction vs generalizing m d with
  | nil => exact h
  | cons v vs ih => exact ih (Sparse.wf_write h)

/-- A run of writes that ends below the bound keeps every listed address below it. -/
theorem Sparse.below_writeRun {bound d : Nat} {vs : List (BitVec n)} {m : Sparse n} (h : Sparse.below bound m = true)
    (hd : d + vs.length ≤ bound) : Sparse.below bound (Sparse.writeRun m d vs) = true := by
  induction vs generalizing m d with
  | nil => exact h
  | cons v vs ih =>
    simp only [List.length_cons] at hd
    exact ih (Sparse.below_write h (by omega)) (by omega)

/-- A read after a run of writes. -/
theorem Sparse.read_writeRun {d b : Nat} {vs : List (BitVec n)} {m : Sparse n} (h : Sparse.wf m = true) :
    Sparse.read (Sparse.writeRun m d vs) b = if d ≤ b ∧ b < d + vs.length then vs.getD (b - d) 0 else Sparse.read m b := by
  induction vs generalizing m d with
  | nil => simp [Sparse.writeRun, show ¬(d ≤ b ∧ b < d) by omega]
  | cons v vs ih =>
    rw [Sparse.writeRun, ih (Sparse.wf_write h), Sparse.read_write h]
    simp only [List.length_cons]
    by_cases hb : b = d
    · subst hb; simp
    · by_cases hr : d + 1 ≤ b ∧ b < d + 1 + vs.length
      · rw [if_pos hr, if_pos (by omega), show b - d = (b - (d + 1)) + 1 by omega]; simp
      · rw [if_neg hr, if_neg hb, if_neg (by omega)]

@[simp] theorem Sparse.writeRun_nil (m : Sparse n) (d : Nat) : Sparse.writeRun m d [] = m := rfl

@[simp] theorem Sparse.length_readRun (m : Sparse n) (d k : Nat) : (Sparse.readRun m d k).length = k := by
  simp [Sparse.readRun]

@[simp] theorem Sparse.getElem_readRun (m : Sparse n) (d k i : Nat) (hi : i < (Sparse.readRun m d k).length) :
    (Sparse.readRun m d k)[i] = Sparse.read m (d + i) := by
  simp [Sparse.readRun]

/-- An address at or above a bound that the listed addresses are below reads as unlisted. -/
theorem Sparse.read_of_below {bound a : Nat} {m : Sparse n} (h : Sparse.below bound m = true) (ha : bound ≤ a) :
    Sparse.read m a = Sparse.unlisted n := by
  induction m with
  | nil => rfl
  | cons e m ih =>
    obtain ⟨k, v⟩ := e
    have h' := Sparse.below_cons.mp h
    rw [Sparse.read_cons, if_neg (by omega), ih h'.2]

theorem Sparse.ext_from {lo : Nat} {m m' : Sparse n} (h : Sparse.wfFrom lo m = true) (h' : Sparse.wfFrom lo m' = true)
    (heq : ∀ a, Sparse.read m a = Sparse.read m' a) : m = m' := by
  induction m generalizing lo m' with
  | nil =>
    cases m' with
    | nil => rfl
    | cons e m' =>
      obtain ⟨k, v⟩ := e
      have := heq k
      simp [Sparse.read_cons] at this
      exact absurd this.symm (Sparse.wfFrom_cons.mp h').2.1
  | cons e m ih =>
    obtain ⟨k, v⟩ := e
    have hm := Sparse.wfFrom_cons.mp h
    cases m' with
    | nil =>
      have := heq k
      simp [Sparse.read_cons] at this
      exact absurd this hm.2.1
    | cons e' m' =>
      obtain ⟨k', v'⟩ := e'
      have hm' := Sparse.wfFrom_cons.mp h'
      have hk : k = k' := by
        rcases Nat.lt_trichotomy k k' with hlt | rfl | hlt
        · have := heq k
          rw [Sparse.read_cons, if_pos rfl, Sparse.read_of_lt (lo := k') (Sparse.wfFrom_cons.mpr ⟨le_rfl, hm'.2⟩) hlt] at this
          exact absurd this hm.2.1
        · rfl
        · have := heq k'
          rw [Sparse.read_cons (k := k'), if_pos rfl,
            Sparse.read_of_lt (lo := k) (Sparse.wfFrom_cons.mpr ⟨le_rfl, hm.2⟩) hlt] at this
          exact absurd this.symm hm'.2.1
      subst hk
      have hv : v = v' := by have := heq k; simpa [Sparse.read_cons] using this
      subst hv
      congr 1
      refine ih hm.2.2 hm'.2.2 (fun a => ?_)
      by_cases ha : k = a
      · subst ha
        rw [Sparse.read_of_lt hm.2.2 (by omega), Sparse.read_of_lt hm'.2.2 (by omega)]
      · have := heq a
        rwa [Sparse.read_cons, Sparse.read_cons, if_neg ha, if_neg ha] at this

/-- Equal memories are equal data: canonical memories that read the same everywhere are the same list. -/
theorem Sparse.ext_of_read {m m' : Sparse n} (h : Sparse.wf m = true) (h' : Sparse.wf m' = true)
    (heq : ∀ a, Sparse.read m a = Sparse.read m' a) : m = m' :=
  Sparse.ext_from h h' heq

/-- The canonical form holds of the memory that lists nothing: M, A and DRTV of State.reset. -/
@[simp] theorem Sparse.wf_nil : Sparse.wf ([] : Sparse n) = true := rfl

@[simp] theorem Sparse.below_nil (bound : Nat) : Sparse.below bound ([] : Sparse n) = true := rfl

theorem State.reset_memory_wf : Memory.wf State.reset.mem = true := rfl

end Sys2Proof.Machine
end

