-- ==== Sys2Proof/Laws/Bits.lean ====
section
/-! SUPPORT. The laws of bits and fields of M: one bit read after one bit written, and the canonical form and address bound
kept by the writers of fields. -/

namespace Sys2Proof.Machine

theorem getLsbD_setByteBit (x : Byte) (i j : Nat) (b : Bool) (hi : i < 8) :
    (setByteBit x i b).getLsbD j = if j = i then b else x.getLsbD j := by
  by_cases hj : j < 8
  · by_cases hji : j = i
    · subst hji; cases b <;> simp [setByteBit, hj]
    · by_cases hlt : j < i
      · cases b <;> simp [setByteBit, hj, hji, hlt]
      · cases b <;> simp [setByteBit, hj, hji, show j - i ≠ 0 by omega]
  · have h0 : ∀ y : Byte, y.getLsbD j = false := fun y => BitVec.getLsbD_of_ge y j (by omega)
    rw [h0, h0, if_neg (by omega)]

/-- Writing one buffer bit changes that bit and no other. -/
theorem bitM_setBitM {m : Memory} (h : Memory.wf m = true) (p q : Nat) (b : Bool) :
    bitM (setBitM m p b) q = if q = p then b else bitM m q := by
  unfold bitM setBitM
  rw [Sparse.read_write h]
  by_cases hq : q / 8 = p / 8
  · rw [if_pos hq, getLsbD_setByteBit _ _ _ _ (by omega), hq]
    by_cases hqp : q = p
    · subst hqp; simp
    · rw [if_neg hqp, if_neg (by omega)]
  · rw [if_neg hq, if_neg (fun e => hq (by rw [e]))]

/-- Writing one buffer bit leaves every other byte alone. -/
theorem read_setBitM {m : Memory} (h : Memory.wf m = true) (p a : Nat) (b : Bool) (ha : a ≠ p / 8) :
    Sparse.read (setBitM m p b) a = Sparse.read m a := by
  unfold setBitM
  rw [Sparse.read_write h, if_neg ha]

theorem wf_setBitM {m : Memory} (h : Memory.wf m = true) (p : Nat) (b : Bool) : Memory.wf (setBitM m p b) = true :=
  Sparse.wf_write h

theorem below_setBitM {bound : Nat} {m : Memory} (h : Sparse.below bound m = true) {p : Nat} (hp : p / 8 < bound) (b : Bool) :
    Sparse.below bound (setBitM m p b) = true :=
  Sparse.below_write h hp

/-- Writing a field keeps the canonical form. -/
theorem wf_setBits {m : Memory} (h : Memory.wf m = true) (p w v : Nat) : Memory.wf (setBits m p w v) = true := by
  induction w generalizing m p with
  | zero => exact h
  | succ w ih => exact ih (wf_setBitM h p _) (p + 1)

/-- Writing a field that ends below the bound keeps every listed address below it. -/
theorem below_setBits {bound : Nat} {m : Memory} (h : Sparse.below bound m = true) {p w : Nat} (v : Nat)
    (hp : w = 0 ∨ (p + w - 1) / 8 < bound) : Sparse.below bound (setBits m p w v) = true := by
  induction w generalizing m p with
  | zero => exact h
  | succ w ih =>
    have hp' : (p + w) / 8 < bound := by rcases hp with hp | hp; · omega
                                         · simpa using hp
    refine ih (below_setBitM h ?_ _) ?_
    · exact lt_of_le_of_lt (Nat.div_le_div_right (by omega)) hp'
    · rcases Nat.eq_zero_or_pos w with hw | hw
      · exact .inl hw
      · exact .inr (by rwa [show p + 1 + w - 1 = p + w by omega])

/-- Writing batched fields keeps the canonical form. -/
theorem wf_writeFields {m : Memory} (h : Memory.wf m = true) (p0 w skip i : Nat) (cs : List Word) :
    Memory.wf (writeFields m p0 w skip i cs) = true := by
  induction cs generalizing m i with
  | nil => exact h
  | cons c cs ih => exact ih (wf_setBits h _ _ _) (i + 1)

/-- Writing batched fields that each end below the bound keeps every listed address below it. -/
theorem below_writeFields {bound : Nat} {m : Memory} (h : Sparse.below bound m = true) (p0 w skip i : Nat) (cs : List Word)
    (hb : ∀ j, i ≤ j → j < i + cs.length → w = 0 ∨ (fieldPos p0 w skip j + w - 1) / 8 < bound) :
    Sparse.below bound (writeFields m p0 w skip i cs) = true := by
  induction cs generalizing m i with
  | nil => exact h
  | cons c cs ih =>
    simp only [List.length_cons] at hb
    exact ih (below_setBits h _ (hb i le_rfl (by omega))) (i + 1) (fun j h1 h2 => hb j (by omega) (by omega))

@[simp] theorem getBits_zero (m : Memory) (p : Nat) : getBits m p 0 = 0 := rfl

theorem getBits_succ (m : Memory) (p w : Nat) : getBits m p (w + 1) = 2 * getBits m p w + (bitM m (p + w)).toNat := rfl

/-- A w-bit field is below 2^w. -/
theorem getBits_lt (m : Memory) (p w : Nat) : getBits m p w < 2 ^ w := by
  induction w with
  | zero => simp
  | succ w ih =>
    have : (bitM m (p + w)).toNat ≤ 1 := by cases bitM m (p + w) <;> simp
    rw [getBits_succ, pow_succ]; omega

/-- A field depends on its own bits alone. -/
theorem getBits_congr {m m' : Memory} {p w : Nat} (h : ∀ q, p ≤ q → q < p + w → bitM m q = bitM m' q) :
    getBits m p w = getBits m' p w := by
  induction w with
  | zero => rfl
  | succ w ih => rw [getBits_succ, getBits_succ, ih (fun q h1 h2 => h q h1 (by omega)), h (p + w) (by omega) (by omega)]

@[simp] theorem length_readFields (m : Memory) (p0 w skip n : Nat) : (readFields m p0 w skip n).length = n := by
  simp [readFields]

@[simp] theorem length_memOctets (m : Memory) (a n : Nat) : (memOctets m a n).length = n := by simp [memOctets]

end Sys2Proof.Machine
end

