-- ==== Sys2Proof/Laws/State.lean ====
section
/-! SUPPORT. One lemma for each field under each update of the state, so that no proof unfolds a record update. -/

namespace Sys2Proof.Machine

variable (s : State)

/-! ### State.commit -/

@[simp] theorem State.commit_cfg (code : StatusCode) (d : Nat) (out : List Word) (tpl lst : Nat) : (s.commit code d out tpl lst).cfg = s.cfg := rfl
@[simp] theorem State.commit_mem (code : StatusCode) (d : Nat) (out : List Word) (tpl lst : Nat) : (s.commit code d out tpl lst).mem = s.mem := rfl
@[simp] theorem State.commit_arr (code : StatusCode) (d : Nat) (out : List Word) (tpl lst : Nat) : (s.commit code d out tpl lst).arr = Sparse.writeRun s.arr d out := rfl
@[simp] theorem State.commit_drtv (code : StatusCode) (d : Nat) (out : List Word) (tpl lst : Nat) : (s.commit code d out tpl lst).drtv = s.drtv := rfl
@[simp] theorem State.commit_code (code : StatusCode) (d : Nat) (out : List Word) (tpl lst : Nat) : (s.commit code d out tpl lst).code = code := rfl
@[simp] theorem State.commit_fault (code : StatusCode) (d : Nat) (out : List Word) (tpl lst : Nat) : (s.commit code d out tpl lst).fault = s.fault := rfl
@[simp] theorem State.commit_faultInfo (code : StatusCode) (d : Nat) (out : List Word) (tpl lst : Nat) : (s.commit code d out tpl lst).faultInfo = s.faultInfo := rfl
@[simp] theorem State.commit_op (code : StatusCode) (d : Nat) (out : List Word) (tpl lst : Nat) : (s.commit code d out tpl lst).op = s.op := rfl
@[simp] theorem State.commit_res (code : StatusCode) (d : Nat) (out : List Word) (tpl lst : Nat) : (s.commit code d out tpl lst).res = { s.res with outLen := zext64 out.length, tplLen := zext64 tpl, listLen := zext64 lst } := rfl
@[simp] theorem State.commit_ctx (code : StatusCode) (d : Nat) (out : List Word) (tpl lst : Nat) : (s.commit code d out tpl lst).ctx = s.ctx := rfl
@[simp] theorem State.commit_phase (code : StatusCode) (d : Nat) (out : List Word) (tpl lst : Nat) : (s.commit code d out tpl lst).phase = .idle := rfl
@[simp] theorem State.commit_turns (code : StatusCode) (d : Nat) (out : List Word) (tpl lst : Nat) : (s.commit code d out tpl lst).turns = s.turns := rfl
@[simp] theorem State.commit_reply (code : StatusCode) (d : Nat) (out : List Word) (tpl lst : Nat) : (s.commit code d out tpl lst).reply = s.reply := rfl
@[simp] theorem State.commit_reqSerial (code : StatusCode) (d : Nat) (out : List Word) (tpl lst : Nat) : (s.commit code d out tpl lst).reqSerial = s.reqSerial := rfl
@[simp] theorem State.commit_draws (code : StatusCode) (d : Nat) (out : List Word) (tpl lst : Nat) : (s.commit code d out tpl lst).draws = s.draws := rfl

/-! ### State.raise -/

@[simp] theorem State.raise_error_cfg (e : ErrorCode) : (s.raise (.error e)).cfg = s.cfg := rfl
@[simp] theorem State.raise_error_mem (e : ErrorCode) : (s.raise (.error e)).mem = s.mem := rfl
@[simp] theorem State.raise_error_arr (e : ErrorCode) : (s.raise (.error e)).arr = s.arr := rfl
@[simp] theorem State.raise_error_drtv (e : ErrorCode) : (s.raise (.error e)).drtv = s.drtv := rfl
@[simp] theorem State.raise_error_code (e : ErrorCode) : (s.raise (.error e)).code = .error e := rfl
@[simp] theorem State.raise_error_fault (e : ErrorCode) : (s.raise (.error e)).fault = s.fault := rfl
@[simp] theorem State.raise_error_faultInfo (e : ErrorCode) : (s.raise (.error e)).faultInfo = s.faultInfo := rfl
@[simp] theorem State.raise_error_op (e : ErrorCode) : (s.raise (.error e)).op = s.op := rfl
@[simp] theorem State.raise_error_res (e : ErrorCode) : (s.raise (.error e)).res = { s.res with outLen := 0, tplLen := 0, listLen := 0 } := rfl
@[simp] theorem State.raise_error_ctx (e : ErrorCode) : (s.raise (.error e)).ctx = s.ctx := rfl
@[simp] theorem State.raise_error_phase (e : ErrorCode) : (s.raise (.error e)).phase = .idle := rfl
@[simp] theorem State.raise_error_turns (e : ErrorCode) : (s.raise (.error e)).turns = s.turns := rfl
@[simp] theorem State.raise_error_reply (e : ErrorCode) : (s.raise (.error e)).reply = s.reply := rfl
@[simp] theorem State.raise_error_reqSerial (e : ErrorCode) : (s.raise (.error e)).reqSerial = s.reqSerial := rfl
@[simp] theorem State.raise_error_draws (e : ErrorCode) : (s.raise (.error e)).draws = s.draws := rfl

/-! ### State.raise -/

@[simp] theorem State.raise_oob_cfg (a : Nat) : (s.raise (.oob a)).cfg = s.cfg := rfl
@[simp] theorem State.raise_oob_mem (a : Nat) : (s.raise (.oob a)).mem = s.mem := rfl
@[simp] theorem State.raise_oob_arr (a : Nat) : (s.raise (.oob a)).arr = s.arr := rfl
@[simp] theorem State.raise_oob_drtv (a : Nat) : (s.raise (.oob a)).drtv = s.drtv := rfl
@[simp] theorem State.raise_oob_code (a : Nat) : (s.raise (.oob a)).code = .faultOob := rfl
@[simp] theorem State.raise_oob_fault (a : Nat) : (s.raise (.oob a)).fault = true := rfl
@[simp] theorem State.raise_oob_faultInfo (a : Nat) : (s.raise (.oob a)).faultInfo = zext64 a := rfl
@[simp] theorem State.raise_oob_op (a : Nat) : (s.raise (.oob a)).op = s.op := rfl
@[simp] theorem State.raise_oob_res (a : Nat) : (s.raise (.oob a)).res = { s.res with outLen := 0, tplLen := 0, listLen := 0 } := rfl
@[simp] theorem State.raise_oob_ctx (a : Nat) : (s.raise (.oob a)).ctx = s.ctx := rfl
@[simp] theorem State.raise_oob_phase (a : Nat) : (s.raise (.oob a)).phase = .idle := rfl
@[simp] theorem State.raise_oob_turns (a : Nat) : (s.raise (.oob a)).turns = s.turns := rfl
@[simp] theorem State.raise_oob_reply (a : Nat) : (s.raise (.oob a)).reply = s.reply := rfl
@[simp] theorem State.raise_oob_reqSerial (a : Nat) : (s.raise (.oob a)).reqSerial = s.reqSerial := rfl
@[simp] theorem State.raise_oob_draws (a : Nat) : (s.raise (.oob a)).draws = s.draws := rfl

/-! ### State.closeSection -/

@[simp] theorem State.closeSection_cfg (k : Nat) (sec : Section) : (s.closeSection k sec).cfg = s.cfg := rfl
@[simp] theorem State.closeSection_mem (k : Nat) (sec : Section) : (s.closeSection k sec).mem = s.mem := rfl
@[simp] theorem State.closeSection_arr (k : Nat) (sec : Section) : (s.closeSection k sec).arr = s.arr := rfl
@[simp] theorem State.closeSection_drtv (k : Nat) (sec : Section) : (s.closeSection k sec).drtv = s.drtv := rfl
@[simp] theorem State.closeSection_code (k : Nat) (sec : Section) : (s.closeSection k sec).code = s.code := rfl
@[simp] theorem State.closeSection_fault (k : Nat) (sec : Section) : (s.closeSection k sec).fault = s.fault := rfl
@[simp] theorem State.closeSection_faultInfo (k : Nat) (sec : Section) : (s.closeSection k sec).faultInfo = s.faultInfo := rfl
@[simp] theorem State.closeSection_op (k : Nat) (sec : Section) : (s.closeSection k sec).op = { s.op with cursor := zext64 sec.stop } := rfl
@[simp] theorem State.closeSection_res (k : Nat) (sec : Section) : (s.closeSection k sec).res = s.res := rfl
@[simp] theorem State.closeSection_ctx (k : Nat) (sec : Section) : (s.closeSection k sec).ctx = { s.ctx with lastSec := zext64 k, seclen := zext64 sec.len } := rfl
@[simp] theorem State.closeSection_phase (k : Nat) (sec : Section) : (s.closeSection k sec).phase = s.phase := rfl
@[simp] theorem State.closeSection_turns (k : Nat) (sec : Section) : (s.closeSection k sec).turns = s.turns := rfl
@[simp] theorem State.closeSection_reply (k : Nat) (sec : Section) : (s.closeSection k sec).reply = s.reply := rfl
@[simp] theorem State.closeSection_reqSerial (k : Nat) (sec : Section) : (s.closeSection k sec).reqSerial = s.reqSerial := rfl
@[simp] theorem State.closeSection_draws (k : Nat) (sec : Section) : (s.closeSection k sec).draws = s.draws := rfl

/-! ### State.setNextoff -/

@[simp] theorem State.setNextoff_cfg (p : Nat) : (s.setNextoff p).cfg = s.cfg := rfl
@[simp] theorem State.setNextoff_mem (p : Nat) : (s.setNextoff p).mem = s.mem := rfl
@[simp] theorem State.setNextoff_arr (p : Nat) : (s.setNextoff p).arr = s.arr := rfl
@[simp] theorem State.setNextoff_drtv (p : Nat) : (s.setNextoff p).drtv = s.drtv := rfl
@[simp] theorem State.setNextoff_code (p : Nat) : (s.setNextoff p).code = s.code := rfl
@[simp] theorem State.setNextoff_fault (p : Nat) : (s.setNextoff p).fault = s.fault := rfl
@[simp] theorem State.setNextoff_faultInfo (p : Nat) : (s.setNextoff p).faultInfo = s.faultInfo := rfl
@[simp] theorem State.setNextoff_op (p : Nat) : (s.setNextoff p).op = s.op := rfl
@[simp] theorem State.setNextoff_res (p : Nat) : (s.setNextoff p).res = { s.res with nextoff := zext64 p } := rfl
@[simp] theorem State.setNextoff_ctx (p : Nat) : (s.setNextoff p).ctx = s.ctx := rfl
@[simp] theorem State.setNextoff_phase (p : Nat) : (s.setNextoff p).phase = s.phase := rfl
@[simp] theorem State.setNextoff_turns (p : Nat) : (s.setNextoff p).turns = s.turns := rfl
@[simp] theorem State.setNextoff_reply (p : Nat) : (s.setNextoff p).reply = s.reply := rfl
@[simp] theorem State.setNextoff_reqSerial (p : Nat) : (s.setNextoff p).reqSerial = s.reqSerial := rfl
@[simp] theorem State.setNextoff_draws (p : Nat) : (s.setNextoff p).draws = s.draws := rfl

/-! ### State.setResult -/

@[simp] theorem State.setResult_cfg (v : Nat) : (s.setResult v).cfg = s.cfg := rfl
@[simp] theorem State.setResult_mem (v : Nat) : (s.setResult v).mem = s.mem := rfl
@[simp] theorem State.setResult_arr (v : Nat) : (s.setResult v).arr = s.arr := rfl
@[simp] theorem State.setResult_drtv (v : Nat) : (s.setResult v).drtv = s.drtv := rfl
@[simp] theorem State.setResult_code (v : Nat) : (s.setResult v).code = s.code := rfl
@[simp] theorem State.setResult_fault (v : Nat) : (s.setResult v).fault = s.fault := rfl
@[simp] theorem State.setResult_faultInfo (v : Nat) : (s.setResult v).faultInfo = s.faultInfo := rfl
@[simp] theorem State.setResult_op (v : Nat) : (s.setResult v).op = s.op := rfl
@[simp] theorem State.setResult_res (v : Nat) : (s.setResult v).res = { s.res with result := zext64 v } := rfl
@[simp] theorem State.setResult_ctx (v : Nat) : (s.setResult v).ctx = s.ctx := rfl
@[simp] theorem State.setResult_phase (v : Nat) : (s.setResult v).phase = s.phase := rfl
@[simp] theorem State.setResult_turns (v : Nat) : (s.setResult v).turns = s.turns := rfl
@[simp] theorem State.setResult_reply (v : Nat) : (s.setResult v).reply = s.reply := rfl
@[simp] theorem State.setResult_reqSerial (v : Nat) : (s.setResult v).reqSerial = s.reqSerial := rfl
@[simp] theorem State.setResult_draws (v : Nat) : (s.setResult v).draws = s.draws := rfl

/-! ### State.setMem -/

@[simp] theorem State.setMem_cfg (m : Memory) : (s.setMem m).cfg = s.cfg := rfl
@[simp] theorem State.setMem_mem (m : Memory) : (s.setMem m).mem = m := rfl
@[simp] theorem State.setMem_arr (m : Memory) : (s.setMem m).arr = s.arr := rfl
@[simp] theorem State.setMem_drtv (m : Memory) : (s.setMem m).drtv = s.drtv := rfl
@[simp] theorem State.setMem_code (m : Memory) : (s.setMem m).code = s.code := rfl
@[simp] theorem State.setMem_fault (m : Memory) : (s.setMem m).fault = s.fault := rfl
@[simp] theorem State.setMem_faultInfo (m : Memory) : (s.setMem m).faultInfo = s.faultInfo := rfl
@[simp] theorem State.setMem_op (m : Memory) : (s.setMem m).op = s.op := rfl
@[simp] theorem State.setMem_res (m : Memory) : (s.setMem m).res = s.res := rfl
@[simp] theorem State.setMem_ctx (m : Memory) : (s.setMem m).ctx = s.ctx := rfl
@[simp] theorem State.setMem_phase (m : Memory) : (s.setMem m).phase = s.phase := rfl
@[simp] theorem State.setMem_turns (m : Memory) : (s.setMem m).turns = s.turns := rfl
@[simp] theorem State.setMem_reply (m : Memory) : (s.setMem m).reply = s.reply := rfl
@[simp] theorem State.setMem_reqSerial (m : Memory) : (s.setMem m).reqSerial = s.reqSerial := rfl
@[simp] theorem State.setMem_draws (m : Memory) : (s.setMem m).draws = s.draws := rfl

/-! ### State.sendRequest -/

@[simp] theorem State.sendRequest_cfg (p : Pending) : (s.sendRequest p).cfg = s.cfg := rfl
@[simp] theorem State.sendRequest_mem (p : Pending) : (s.sendRequest p).mem = s.mem := rfl
@[simp] theorem State.sendRequest_arr (p : Pending) : (s.sendRequest p).arr = s.arr := rfl
@[simp] theorem State.sendRequest_drtv (p : Pending) : (s.sendRequest p).drtv = s.drtv := rfl
@[simp] theorem State.sendRequest_code (p : Pending) : (s.sendRequest p).code = s.code := rfl
@[simp] theorem State.sendRequest_fault (p : Pending) : (s.sendRequest p).fault = s.fault := rfl
@[simp] theorem State.sendRequest_faultInfo (p : Pending) : (s.sendRequest p).faultInfo = s.faultInfo := rfl
@[simp] theorem State.sendRequest_op (p : Pending) : (s.sendRequest p).op = s.op := rfl
@[simp] theorem State.sendRequest_res (p : Pending) : (s.sendRequest p).res = s.res := rfl
@[simp] theorem State.sendRequest_ctx (p : Pending) : (s.sendRequest p).ctx = s.ctx := rfl
@[simp] theorem State.sendRequest_phase (p : Pending) : (s.sendRequest p).phase = .waiting p := rfl
@[simp] theorem State.sendRequest_turns (p : Pending) : (s.sendRequest p).turns = s.turns := rfl
@[simp] theorem State.sendRequest_reply (p : Pending) : (s.sendRequest p).reply = s.reply := rfl
@[simp] theorem State.sendRequest_reqSerial (p : Pending) : (s.sendRequest p).reqSerial = s.reqSerial + 1 := rfl
@[simp] theorem State.sendRequest_draws (p : Pending) : (s.sendRequest p).draws = s.draws := rfl

/-! ### State.softReset -/

@[simp] theorem State.softReset_cfg : (s.softReset).cfg = s.cfg := rfl
@[simp] theorem State.softReset_mem : (s.softReset).mem = s.mem := rfl
@[simp] theorem State.softReset_arr : (s.softReset).arr = s.arr := rfl
@[simp] theorem State.softReset_drtv : (s.softReset).drtv = [] := rfl
@[simp] theorem State.softReset_code : (s.softReset).code = .ok := rfl
@[simp] theorem State.softReset_fault : (s.softReset).fault = false := rfl
@[simp] theorem State.softReset_faultInfo : (s.softReset).faultInfo = 0 := rfl
@[simp] theorem State.softReset_op : (s.softReset).op = OperandRegs.reset := rfl
@[simp] theorem State.softReset_res : (s.softReset).res = ResultRegs.reset := rfl
@[simp] theorem State.softReset_ctx : (s.softReset).ctx = ContextRegs.reset := rfl
@[simp] theorem State.softReset_phase : (s.softReset).phase = .idle := rfl
@[simp] theorem State.softReset_turns : (s.softReset).turns = s.turns := rfl
@[simp] theorem State.softReset_reply : (s.softReset).reply = s.reply := rfl
@[simp] theorem State.softReset_reqSerial : (s.softReset).reqSerial = s.reqSerial := rfl
@[simp] theorem State.softReset_draws : (s.softReset).draws = s.draws := rfl

/-! ### State.answer -/

@[simp] theorem State.answer_cfg (r : HostReply) : (s.answer r).cfg = s.cfg := rfl
@[simp] theorem State.answer_mem (r : HostReply) : (s.answer r).mem = s.mem := rfl
@[simp] theorem State.answer_arr (r : HostReply) : (s.answer r).arr = s.arr := rfl
@[simp] theorem State.answer_drtv (r : HostReply) : (s.answer r).drtv = s.drtv := rfl
@[simp] theorem State.answer_code (r : HostReply) : (s.answer r).code = s.code := rfl
@[simp] theorem State.answer_fault (r : HostReply) : (s.answer r).fault = s.fault := rfl
@[simp] theorem State.answer_faultInfo (r : HostReply) : (s.answer r).faultInfo = s.faultInfo := rfl
@[simp] theorem State.answer_op (r : HostReply) : (s.answer r).op = s.op := rfl
@[simp] theorem State.answer_res (r : HostReply) : (s.answer r).res = s.res := rfl
@[simp] theorem State.answer_ctx (r : HostReply) : (s.answer r).ctx = s.ctx := rfl
@[simp] theorem State.answer_phase (r : HostReply) : (s.answer r).phase = s.phase := rfl
@[simp] theorem State.answer_turns (r : HostReply) : (s.answer r).turns = s.turns := rfl
@[simp] theorem State.answer_reply (r : HostReply) : (s.answer r).reply = some r := rfl
@[simp] theorem State.answer_reqSerial (r : HostReply) : (s.answer r).reqSerial = s.reqSerial := rfl
@[simp] theorem State.answer_draws (r : HostReply) : (s.answer r).draws = s.draws := rfl

/-! ### State.issue -/

@[simp] theorem State.issue_cfg (v : Word) : (s.issue v).cfg = s.cfg := rfl
@[simp] theorem State.issue_mem (v : Word) : (s.issue v).mem = s.mem := rfl
@[simp] theorem State.issue_arr (v : Word) : (s.issue v).arr = s.arr := rfl
@[simp] theorem State.issue_drtv (v : Word) : (s.issue v).drtv = s.drtv := rfl
@[simp] theorem State.issue_code (v : Word) : (s.issue v).code = s.code := rfl
@[simp] theorem State.issue_fault (v : Word) : (s.issue v).fault = s.fault := rfl
@[simp] theorem State.issue_faultInfo (v : Word) : (s.issue v).faultInfo = s.faultInfo := rfl
@[simp] theorem State.issue_op (v : Word) : (s.issue v).op = s.op := rfl
@[simp] theorem State.issue_res (v : Word) : (s.issue v).res = s.res := rfl
@[simp] theorem State.issue_ctx (v : Word) : (s.issue v).ctx = s.ctx := rfl
@[simp] theorem State.issue_phase (v : Word) : (s.issue v).phase = .issued v := rfl
@[simp] theorem State.issue_turns (v : Word) : (s.issue v).turns = .block :: s.turns := rfl
@[simp] theorem State.issue_reply (v : Word) : (s.issue v).reply = s.reply := rfl
@[simp] theorem State.issue_reqSerial (v : Word) : (s.issue v).reqSerial = s.reqSerial := rfl
@[simp] theorem State.issue_draws (v : Word) : (s.issue v).draws = s.draws := rfl

/-! ### State.setCursor -/

@[simp] theorem State.setCursor_cfg (a : Nat) : (s.setCursor a).cfg = s.cfg := rfl
@[simp] theorem State.setCursor_mem (a : Nat) : (s.setCursor a).mem = s.mem := rfl
@[simp] theorem State.setCursor_arr (a : Nat) : (s.setCursor a).arr = s.arr := rfl
@[simp] theorem State.setCursor_drtv (a : Nat) : (s.setCursor a).drtv = s.drtv := rfl
@[simp] theorem State.setCursor_code (a : Nat) : (s.setCursor a).code = s.code := rfl
@[simp] theorem State.setCursor_fault (a : Nat) : (s.setCursor a).fault = s.fault := rfl
@[simp] theorem State.setCursor_faultInfo (a : Nat) : (s.setCursor a).faultInfo = s.faultInfo := rfl
@[simp] theorem State.setCursor_op (a : Nat) : (s.setCursor a).op = { s.op with cursor := zext64 a } := rfl
@[simp] theorem State.setCursor_res (a : Nat) : (s.setCursor a).res = s.res := rfl
@[simp] theorem State.setCursor_ctx (a : Nat) : (s.setCursor a).ctx = s.ctx := rfl
@[simp] theorem State.setCursor_phase (a : Nat) : (s.setCursor a).phase = s.phase := rfl
@[simp] theorem State.setCursor_turns (a : Nat) : (s.setCursor a).turns = s.turns := rfl
@[simp] theorem State.setCursor_reply (a : Nat) : (s.setCursor a).reply = s.reply := rfl
@[simp] theorem State.setCursor_reqSerial (a : Nat) : (s.setCursor a).reqSerial = s.reqSerial := rfl
@[simp] theorem State.setCursor_draws (a : Nat) : (s.setCursor a).draws = s.draws := rfl

/-! ### State.setCtx -/

@[simp] theorem State.setCtx_cfg (c : ContextRegs) : (s.setCtx c).cfg = s.cfg := rfl
@[simp] theorem State.setCtx_mem (c : ContextRegs) : (s.setCtx c).mem = s.mem := rfl
@[simp] theorem State.setCtx_arr (c : ContextRegs) : (s.setCtx c).arr = s.arr := rfl
@[simp] theorem State.setCtx_drtv (c : ContextRegs) : (s.setCtx c).drtv = s.drtv := rfl
@[simp] theorem State.setCtx_code (c : ContextRegs) : (s.setCtx c).code = s.code := rfl
@[simp] theorem State.setCtx_fault (c : ContextRegs) : (s.setCtx c).fault = s.fault := rfl
@[simp] theorem State.setCtx_faultInfo (c : ContextRegs) : (s.setCtx c).faultInfo = s.faultInfo := rfl
@[simp] theorem State.setCtx_op (c : ContextRegs) : (s.setCtx c).op = s.op := rfl
@[simp] theorem State.setCtx_res (c : ContextRegs) : (s.setCtx c).res = s.res := rfl
@[simp] theorem State.setCtx_ctx (c : ContextRegs) : (s.setCtx c).ctx = c := rfl
@[simp] theorem State.setCtx_phase (c : ContextRegs) : (s.setCtx c).phase = s.phase := rfl
@[simp] theorem State.setCtx_turns (c : ContextRegs) : (s.setCtx c).turns = s.turns := rfl
@[simp] theorem State.setCtx_reply (c : ContextRegs) : (s.setCtx c).reply = s.reply := rfl
@[simp] theorem State.setCtx_reqSerial (c : ContextRegs) : (s.setCtx c).reqSerial = s.reqSerial := rfl
@[simp] theorem State.setCtx_draws (c : ContextRegs) : (s.setCtx c).draws = s.draws := rfl

/-! ### State.latchDrt -/

@[simp] theorem State.latchDrt_cfg (vals : List Word) : (s.latchDrt vals).cfg = s.cfg := rfl
@[simp] theorem State.latchDrt_mem (vals : List Word) : (s.latchDrt vals).mem = s.mem := rfl
@[simp] theorem State.latchDrt_arr (vals : List Word) : (s.latchDrt vals).arr = s.arr := rfl
@[simp] theorem State.latchDrt_drtv (vals : List Word) : (s.latchDrt vals).drtv = Sparse.writeRun s.drtv 0 vals := rfl
@[simp] theorem State.latchDrt_code (vals : List Word) : (s.latchDrt vals).code = s.code := rfl
@[simp] theorem State.latchDrt_fault (vals : List Word) : (s.latchDrt vals).fault = s.fault := rfl
@[simp] theorem State.latchDrt_faultInfo (vals : List Word) : (s.latchDrt vals).faultInfo = s.faultInfo := rfl
@[simp] theorem State.latchDrt_op (vals : List Word) : (s.latchDrt vals).op = s.op := rfl
@[simp] theorem State.latchDrt_res (vals : List Word) : (s.latchDrt vals).res = s.res := rfl
@[simp] theorem State.latchDrt_ctx (vals : List Word) : (s.latchDrt vals).ctx = s.ctx := rfl
@[simp] theorem State.latchDrt_phase (vals : List Word) : (s.latchDrt vals).phase = s.phase := rfl
@[simp] theorem State.latchDrt_turns (vals : List Word) : (s.latchDrt vals).turns = s.turns := rfl
@[simp] theorem State.latchDrt_reply (vals : List Word) : (s.latchDrt vals).reply = s.reply := rfl
@[simp] theorem State.latchDrt_reqSerial (vals : List Word) : (s.latchDrt vals).reqSerial = s.reqSerial := rfl
@[simp] theorem State.latchDrt_draws (vals : List Word) : (s.latchDrt vals).draws = s.draws := rfl

end Sys2Proof.Machine
end

