-- ==== Sys2Proof/Laws/Run.lean ====
section
/-! SUPPORT. What the shared operations of a command can do: the checks, opening a section, and the end of a command. Each
lemma says it once; the command lemmas cite them and unfold nothing. -/

namespace Sys2Proof.Machine

/-- A computation followed by another returns when both do. -/
theorem bind_ok {α β : Type} {x : Except Raise α} {f : α → Except Raise β} {b : β} :
    (x >>= f) = .ok b ↔ ∃ a, x = .ok a ∧ f a = .ok b := by
  cases x <;> simp [bind, Except.bind]

/-- A computation followed by another raises when the first does, or returns and the second raises. -/
theorem bind_error {α β : Type} {x : Except Raise α} {f : α → Except Raise β} {r : Raise} :
    (x >>= f) = .error r ↔ x = .error r ∨ ∃ a, x = .ok a ∧ f a = .error r := by
  cases x <;> simp [bind, Except.bind]

@[simp] theorem need_ok {b : Bool} {r : Raise} {u : Unit} : need b r = .ok u ↔ b = true := by
  cases b <;> simp [need]

@[simp] theorem need_error {b : Bool} {r r' : Raise} : need b r = .error r' ↔ b = false ∧ r = r' := by
  cases b <;> simp [need]

/-- A check that holds lets the rest of the computation run. -/
theorem need_bind {α : Type} {b : Bool} {r : Raise} {f : Unit → Except Raise α} (h : b = true) :
    (need b r >>= f) = f () := by
  subst h; rfl

/-- A check that fails ends the computation. -/
theorem need_bind_raise {α : Type} {b : Bool} {r : Raise} {f : Unit → Except Raise α} (h : b = false) :
    (need b r >>= f) = .error r := by
  subst h; rfl

/-- A computation that has returned goes on with its value. -/
theorem ok_bind {α β : Type} {x : Except Raise α} {a : α} {f : α → Except Raise β} (h : x = .ok a) : (x >>= f) = f a := by
  subst h; rfl

/-- A computation that has raised ends there. -/
theorem error_bind {α β : Type} {x : Except Raise α} {r : Raise} {f : α → Except Raise β} (h : x = .error r) :
    (x >>= f) = .error r := by
  subst h; rfl

/-- A field of w bits at bit offset p lies in M (R140): it has no bit, or its last byte is below BUF_BYTES. -/
theorem checkM_ok {s : State} {p w : Nat} {u : Unit} :
    checkM s p w = .ok u ↔ (w = 0 ∨ (p + w - 1) / 8 < s.cfg.bufBytes) := by
  simp only [checkM, need_ok, Bool.not_eq_true', Bool.and_eq_false_iff, decide_eq_false_iff_not, not_lt, ge_iff_le, not_le]
  omega

/-- The access check raises FAULT_OOB alone, with the first byte address at or above BUF_BYTES that the field touches. -/
theorem checkM_error {s : State} {p w : Nat} {r : Raise} :
    checkM s p w = .error r ↔
      w ≠ 0 ∧ s.cfg.bufBytes ≤ (p + w - 1) / 8 ∧ r = .oob (max (p / 8) s.cfg.bufBytes) := by
  simp only [checkM, need_error, Bool.not_eq_false', Bool.and_eq_true, decide_eq_true_eq, ge_iff_le, eq_comm (a := r)]
  constructor
  · rintro ⟨⟨h1, h2⟩, h3⟩; exact ⟨by omega, h2, h3⟩
  · rintro ⟨h1, h2, h3⟩; exact ⟨⟨by omega, h2⟩, h3⟩

@[simp] theorem needSpace_ok {s : State} {d n : Nat} {u : Unit} : needSpace s d n = .ok u ↔ d + n ≤ s.cfg.aCells := by
  simp [needSpace]

@[simp] theorem needSource_ok {s : State} {q n : Nat} {u : Unit} : needSource s q n = .ok u ↔ q + n ≤ s.cfg.aCells := by
  simp [needSource]

/-- All of n batched fields lie in M. -/
theorem checkFields_ok {s : State} {p0 w skip i n : Nat} {u : Unit} :
    checkFields s p0 w skip i n = .ok u ↔
      ∀ j, i ≤ j → j < i + n → w = 0 ∨ (fieldPos p0 w skip j + w - 1) / 8 < s.cfg.bufBytes := by
  induction n generalizing i with
  | zero => simp [checkFields]; omega
  | succ n ih =>
    rw [checkFields, bind_ok]
    constructor
    · rintro ⟨a, h1, h2⟩ j hj1 hj2
      rcases Nat.eq_or_lt_of_le hj1 with rfl | hlt
      · exact checkM_ok.mp h1
      · exact ih.mp h2 j hlt (by omega)
    · intro h
      exact ⟨(), checkM_ok.mpr (h i le_rfl (by omega)), ih.mpr (fun j h1 h2 => h j (by omega) (by omega))⟩

/-- The checks of batched fields raise for the first field that reaches past M, with its address (R354). -/
theorem checkFields_error {s : State} {p0 w skip i n : Nat} {r : Raise} :
    checkFields s p0 w skip i n = .error r ↔ ∃ j, i ≤ j ∧ j < i + n ∧ w ≠ 0 ∧
      (∀ k, i ≤ k → k < j → (fieldPos p0 w skip k + w - 1) / 8 < s.cfg.bufBytes) ∧
      s.cfg.bufBytes ≤ (fieldPos p0 w skip j + w - 1) / 8 ∧ r = .oob (max (fieldPos p0 w skip j / 8) s.cfg.bufBytes) := by
  induction n generalizing i with
  | zero => simp [checkFields]; omega
  | succ n ih =>
    rw [checkFields, bind_error, checkM_error]
    simp only [ih, checkM_ok, exists_const]
    constructor
    · rintro (⟨h1, h2, h3⟩ | ⟨h0, j, h1, h2, h3, h4, h5, h6⟩)
      · exact ⟨i, le_rfl, by omega, h1, fun k _ _ => by omega, h2, h3⟩
      · refine ⟨j, by omega, by omega, h3, fun k hk1 hk2 => ?_, h5, h6⟩
        rcases Nat.eq_or_lt_of_le hk1 with rfl | hlt
        · exact h0.resolve_left h3
        · exact h4 k hlt hk2
    · rintro ⟨j, h1, h2, h3, h4, h5, h6⟩
      rcases Nat.eq_or_lt_of_le h1 with rfl | hlt
      · exact .inl ⟨h3, h5, h6⟩
      · exact .inr ⟨.inr (h4 i le_rfl hlt), j, hlt, by omega, h3, fun k _ hk => h4 k (by omega) hk, h5, h6⟩

/-- A batch whose first field starts below 2^64 raises with an address below 2^64, in M of at most 2^60 bytes: the field before
the one that reaches past M lies in M. -/
theorem checkFields_error_lt {s : State} {p0 w skip n a : Nat} (hb : s.cfg.bufBytes < 2 ^ 60) (hp : p0 < 2 ^ 64)
    (hs : skip < 2 ^ 64) (h : checkFields s p0 w skip 0 n = .error (.oob a)) :
    s.cfg.bufBytes ≤ a ∧ a < 2 ^ 64 := by
  obtain ⟨j, -, -, h0, h1, -, h2⟩ := checkFields_error.mp h
  cases h2
  refine ⟨le_max_right _ _, max_lt ?_ (by omega)⟩
  cases j with
  | zero => simp only [fieldPos]; omega
  | succ j =>
    have := h1 j (Nat.zero_le j) (Nat.lt_succ_self j)
    simp only [fieldPos, Nat.succ_mul] at this ⊢
    omega

@[simp] theorem orRaise_ok {α : Type} {x : Option α} {r : Raise} {a : α} : orRaise x r = .ok a ↔ x = some a := by
  cases x <;> simp [orRaise]

@[simp] theorem orRaise_error {α : Type} {x : Option α} {r r' : Raise} :
    orRaise x r = .error r' ↔ x = none ∧ r = r' := by
  cases x <;> simp [orRaise]

/-- A command ends in its staged state at a commit, and in the state before it with the effects of the raise at a raise. -/
theorem endCommand_next {s t : State} {run : Except Raise State} :
    endCommand s run = .next t ↔ run = .ok t ∨ ∃ r, run = .error r ∧ t = s.raise r := by
  cases run <;> simp [endCommand, eq_comm]

/-- A command always ends in a next state. -/
theorem endCommand_answers (s : State) (run : Except Raise State) : ∃ t, endCommand s run = .next t := by
  cases run <;> exact ⟨_, rfl⟩

theorem endCommand_ok (s t : State) : endCommand s (.ok t) = .next t := rfl

theorem endCommand_error (s : State) (r : Raise) : endCommand s (.error r) = .next (s.raise r) := rfl

/-- What an opened section is (R223): it starts at CURSOR, its header carries its number and its length, and it ends inside
the message and inside M. -/
structure Opened (s : State) (k minLen : Nat) (sec : Section) : Prop where
  start : sec.a = s.op.cursor.toNat
  len : sec.len = memRead s.mem s.op.cursor.toNat 4
  number : memRead s.mem (s.op.cursor.toNat + 4) 1 = k
  order : k ∈ successors s.ctx.lastSec.toNat
  atLeast : minLen ≤ sec.len
  headerInside : sec.a + 5 + 4 ≤ s.ctx.msgStart.toNat + s.ctx.msgLen.toNat
  inside : sec.stop + 4 ≤ s.ctx.msgStart.toNat + s.ctx.msgLen.toNat
  headerStored : sec.a + 5 ≤ s.cfg.bufBytes
  stored : sec.len = 0 ∨ sec.stop ≤ s.cfg.bufBytes

theorem pastMessage_eq_false {s : State} {x : Nat} :
    s.pastMessage x = false ↔ x + 4 ≤ s.ctx.msgStart.toNat + s.ctx.msgLen.toNat := by
  simp [State.pastMessage]

/-- Opening a section succeeds exactly on the states of `Opened`. -/
theorem openSection_ok {s : State} {k minLen : Nat} {sec : Section} :
    openSection s k minLen = .ok sec ↔ Opened s k minLen sec := by
  simp only [openSection, bind_ok, need_ok, checkM_ok, Bool.not_eq_true', pastMessage_eq_false, List.contains_iff_mem,
    beq_iff_eq, decide_eq_true_eq]
  constructor
  · rintro ⟨_, h1, _, h2, _, h3, _, h4, _, h5, _, h6, _, h7, h8⟩
    cases h8
    exact ⟨rfl, rfl, h4, h1, h5, h2, h6, by simp only; omega, by simp only [Section.stop]; omega⟩
  · rintro ⟨ha, hl, hn, ho, hm, hh, hi, hhs, hs⟩
    obtain ⟨a, len⟩ := sec
    simp only [Section.stop] at *
    subst ha hl
    exact ⟨(), ho, (), hh, (), .inr (by omega), (), hn, (), hm, (), hi, (), by omega, rfl⟩

/-- Where opening a section raises FAULT_OOB, the address is that of CURSOR, or BUF_BYTES where CURSOR lies below it. -/
theorem openSection_oob {s : State} {k minLen a : Nat} (h : openSection s k minLen = .error (.oob a)) :
    a = max s.op.cursor.toNat s.cfg.bufBytes := by
  simp only [openSection, bind_error, need_error, checkM_error, reduceCtorEq, and_false, false_or, Raise.oob.injEq,
    Nat.mul_div_cancel_left _ (show 0 < 8 by decide)] at h
  obtain ⟨_, -, _, -, h | ⟨_, -, _, -, _, -, _, -, h | ⟨_, h⟩⟩⟩ := h
  · exact h.2.2
  · exact h.2.2
  · exact h.elim

theorem memRead_lt (m : Memory) (a n : Nat) : memRead m a n < 2 ^ (8 * n) := getBits_lt m _ _

end Sys2Proof.Machine
end

