-- ==== Sys2Proof/Laws/Commands.lean ====
section
/-! SUPPORT. What each command can do when it commits: one inversion lemma for each meaning. -/

namespace Sys2Proof.Machine

variable {s t : State}

theorem runGbit_ok {w : Nat} :
    runGbit w s = .ok t ↔ (w = 0 ∨ (s.bitoff + w - 1) / 8 < s.cfg.bufBytes) ∧
      t = ((s.setResult (getBits s.mem s.bitoff w)).setNextoff (s.bitoff + w)).commit .ok 0 [] 0 0 := by
  simp [runGbit, bind_ok, checkM_ok, eq_comm (a := t)]

theorem runGbits_ok {w : Nat} :
    runGbits w s = .ok t ↔ s.dst + s.count ≤ s.cfg.aCells ∧
      (∀ j, j < s.count → w = 0 ∨ (fieldPos s.bitoff w s.skip j + w - 1) / 8 < s.cfg.bufBytes) ∧
      t = (s.setNextoff (fieldPos s.bitoff w s.skip s.count)).commit .ok s.dst
        (readFields s.mem s.bitoff w s.skip s.count) 0 0 := by
  simp [runGbits, bind_ok, checkFields_ok, eq_comm (a := t)]

theorem runSbit_ok {w : Nat} :
    runSbit w s = .ok t ↔ (w = 0 ∨ (s.bitoff + w - 1) / 8 < s.cfg.bufBytes) ∧
      t = ((s.setMem (setBits s.mem s.bitoff w s.value)).setNextoff (s.bitoff + w)).commit .ok 0 [] 0 0 := by
  simp [runSbit, bind_ok, checkM_ok, eq_comm (a := t)]

theorem runSbits_ok {w : Nat} :
    runSbits w s = .ok t ↔ s.src + s.count ≤ s.cfg.aCells ∧
      (∀ j, j < s.count → w = 0 ∨ (fieldPos s.bitoff w s.skip j + w - 1) / 8 < s.cfg.bufBytes) ∧
      t = ((s.setMem (writeFields s.mem s.bitoff w s.skip 0 (Sparse.readRun s.arr s.src s.count))).setNextoff
        (fieldPos s.bitoff w s.skip s.count)).commit .ok 0 [] 0 0 := by
  simp [runSbits, bind_ok, checkFields_ok, eq_comm (a := t)]

theorem runRdieee_ok :
    runRdieee s = .ok t ↔ s.dst + s.count ≤ s.cfg.aCells ∧
      (∀ j, j < s.count → (fieldPos s.bitoff 32 0 j + 32 - 1) / 8 < s.cfg.bufBytes) ∧
      t = (s.setNextoff (s.bitoff + 32 * s.count)).commit .ok s.dst (readFloats s.mem s.bitoff s.count) 0 0 := by
  simp [runRdieee, bind_ok, checkFields_ok, eq_comm (a := t)]

theorem runMkieee_ok :
    runMkieee s = .ok t ↔ s.src + s.count ≤ s.cfg.aCells ∧
      (∀ j, j < s.count → (fieldPos s.bitoff 32 0 j + 32 - 1) / 8 < s.cfg.bufBytes) ∧
      t = ((s.setMem (writeFields s.mem s.bitoff 32 0 0 (Sparse.readRun s.arr s.src s.count))).setNextoff
        (s.bitoff + 32 * s.count)).commit .ok 0 [] 0 0 := by
  simp [runMkieee, bind_ok, checkFields_ok, eq_comm (a := t)]

/-- What UNPK0 does when it commits, and on which states it does. -/
theorem runUnpk0_ok :
    runUnpk0 s = .ok t ↔ s.cursor + 16 ≤ s.cfg.bufBytes ∧ memRead s.mem s.cursor 4 = gribMarker ∧
      memRead s.mem (s.cursor + 7) 1 = 2 ∧ 20 ≤ memRead s.mem (s.cursor + 8) 8 ∧ s.dst + 3 ≤ s.cfg.aCells ∧
      t = ((s.commit .ok s.dst [zext64 (memRead s.mem (s.cursor + 6) 1), zext64 (memRead s.mem (s.cursor + 7) 1),
              zext64 (memRead s.mem (s.cursor + 8) 8)] 0 0).setCursor (s.cursor + 16)).setCtx
            (openContext s.cursor (memRead s.mem (s.cursor + 6) 1) (memRead s.mem (s.cursor + 7) 1)
              (memRead s.mem (s.cursor + 8) 8)) := by
  have h : (128 = 0 ∨ (8 * s.cursor + 128 - 1) / 8 < s.cfg.bufBytes) ↔ s.cursor + 16 ≤ s.cfg.bufBytes := by omega
  simp only [runUnpk0, bind_ok, need_ok, needSpace_ok, checkM_ok, beq_iff_eq, decide_eq_true_eq, exists_const, h,
    Except.ok.injEq, eq_comm (a := t)]

theorem runUnpk1_ok :
    runUnpk1 s = .ok t ↔ ∃ sec, Opened s 1 21 sec ∧ s.dst + 13 ≤ s.cfg.aCells ∧
      t = (s.commit .ok s.dst ((readOctetFields s.mem (sec.a + 5) identificationWidths).map zext64) 0 0).closeSection 1
        sec := by
  simp [runUnpk1, bind_ok, openSection_ok, eq_comm (a := t)]

theorem runUnpk2_ok :
    runUnpk2 s = .ok t ↔ ∃ sec, Opened s 2 5 sec ∧ s.dst + (sec.len - 5) ≤ s.cfg.aCells ∧
      t = (s.commit .ok s.dst ((memOctets s.mem (sec.a + 5) (sec.len - 5)).map zext64) 0 0).closeSection 2 sec := by
  simp [runUnpk2, bind_ok, openSection_ok, eq_comm (a := t)]

theorem runUnpk3_ok {g : Bool} :
    runUnpk3 g s = .ok t ↔ ∃ sec, Opened s 3 14 sec ∧ ∃ b,
      gridBody s g sec (memRead s.mem (sec.a + 12) 2) (memRead s.mem (sec.a + 10) 1) = .ok b ∧
      s.dst + (5 + b.vals.length + b.list.length) ≤ s.cfg.aCells ∧
      t = ((s.commit b.code s.dst
              ([memRead s.mem (sec.a + 5) 1, memRead s.mem (sec.a + 6) 4, memRead s.mem (sec.a + 10) 1,
                memRead s.mem (sec.a + 11) 1, memRead s.mem (sec.a + 12) 2].map zext64 ++ b.vals.map cell ++
                b.list.map zext64) b.vals.length b.list.length).setCtx
            (gridContext s.ctx (memRead s.mem (sec.a + 6) 4) (memRead s.mem (sec.a + 12) 2) b.geometry)).closeSection
          3 sec := by
  simp only [runUnpk3, bind_ok, needSpace_ok, openSection_ok, exists_const, Except.ok.injEq, eq_comm (a := t)]

theorem runUnpk4_ok :
    runUnpk4 s = .ok t ↔ ∃ sec, Opened s 4 9 sec ∧ ∃ desc,
      romLookup s.cfg.rom .product (memRead s.mem (sec.a + 7) 2) = some desc ∧ ∃ r,
      readKnown s.mem desc (sec.a + 9) sec.stop = .ok r ∧
      r.2 + 4 * memRead s.mem (sec.a + 5) 2 ≤ sec.stop ∧
      s.dst + (2 + r.1.length + memRead s.mem (sec.a + 5) 2) ≤ s.cfg.aCells ∧
      t = ((s.commit .ok s.dst
              ([memRead s.mem (sec.a + 5) 2, memRead s.mem (sec.a + 7) 2].map zext64 ++ r.1.map cell ++
                readFloats s.mem (8 * r.2) (memRead s.mem (sec.a + 5) 2)) r.1.length
              (memRead s.mem (sec.a + 5) 2)).setCtx
            (productContext s.ctx (memRead s.mem (sec.a + 7) 2) (memRead s.mem (sec.a + 5) 2))).closeSection 4 sec := by
  simp only [runUnpk4, bind_ok, openSection_ok]
  refine exists_congr fun sec => and_congr_right fun _ => ?_
  cases romLookup s.cfg.rom .product (memRead s.mem (sec.a + 7) 2) with
  | none => simp
  | some desc =>
    simp only [bind_ok, need_ok, needSpace_ok, decide_eq_true_eq, exists_const, Except.ok.injEq, eq_comm (a := t),
      Option.some.injEq, exists_eq_left']

theorem runUnpk5_ok :
    runUnpk5 s = .ok t ↔ ∃ sec, Opened s 5 11 sec ∧ ∃ desc,
      romLookup s.cfg.rom .dataRep (memRead s.mem (sec.a + 9) 2) = some desc ∧ ∃ r,
      readKnown s.mem desc (sec.a + 11) sec.stop = .ok r ∧ r.1.length ≤ s.cfg.drtMax ∧
      s.dst + (2 + r.1.length) ≤ s.cfg.aCells ∧
      t = (((s.commit .ok s.dst
              ([memRead s.mem (sec.a + 5) 4, memRead s.mem (sec.a + 9) 2].map zext64 ++ r.1.map cell) r.1.length
              0).latchDrt (r.1.map cell)).setCtx
            (dataRepContext s.ctx (memRead s.mem (sec.a + 5) 4) (memRead s.mem (sec.a + 9) 2) r.1.length)).closeSection
          5 sec := by
  simp only [runUnpk5, bind_ok, openSection_ok]
  refine exists_congr fun sec => and_congr_right fun _ => ?_
  cases romLookup s.cfg.rom .dataRep (memRead s.mem (sec.a + 9) 2) with
  | none => simp
  | some desc =>
    simp only [bind_ok, need_ok, needSpace_ok, decide_eq_true_eq, exists_const, Except.ok.injEq, eq_comm (a := t),
      Option.some.injEq, exists_eq_left']

theorem runUnpk6_ok :
    runUnpk6 s = .ok t ↔ ∃ sec, Opened s 6 6 sec ∧ ∃ b, bitmapBody s sec (memRead s.mem (sec.a + 5) 1) = .ok b ∧
      t = ((s.commit .ok s.dst (zext64 (memRead s.mem (sec.a + 5) 1) :: b.1) 0 b.1.length).setCtx
            (bitmapContext s.ctx (memRead s.mem (sec.a + 5) 1) b.2)).closeSection 6 sec := by
  simp only [runUnpk6, bind_ok, openSection_ok, Except.ok.injEq, eq_comm (a := t)]

theorem runChkend_ok :
    runChkend s = .ok t ↔ s.ctx.lastSec = 7 ∧ s.cursor + 4 ≤ s.cfg.bufBytes ∧ memRead s.mem s.cursor 4 = endMarker ∧
      s.cursor + 4 = s.ctx.msgStart.toNat + s.ctx.msgLen.toNat ∧
      t = (s.commit .ok 0 [] 0 0).closeSection 8 ⟨s.cursor, 4⟩ := by
  have h : (32 = 0 ∨ (8 * s.cursor + 32 - 1) / 8 < s.cfg.bufBytes) ↔ s.cursor + 4 ≤ s.cfg.bufBytes := by omega
  simp only [runChkend, bind_ok, need_ok, checkM_ok, beq_iff_eq, exists_const, h, Except.ok.injEq, eq_comm (a := t)]

theorem runSkipsec_ok :
    runSkipsec s = .ok t ↔ ∃ k, memRead s.mem (s.cursor + 4) 1 = k ∧ s.ctx.lastSec ≠ 8 ∧ s.ctx.lastSec ≠ 0xFF ∧
      s.cursor + 5 + 4 ≤ s.ctx.msgStart.toNat + s.ctx.msgLen.toNat ∧ s.cursor + 5 ≤ s.cfg.bufBytes ∧ 1 ≤ k ∧ k ≤ 7 ∧
      k ∈ successors s.ctx.lastSec.toNat ∧ minLength k ≤ memRead s.mem s.cursor 4 ∧
      s.cursor + memRead s.mem s.cursor 4 + 4 ≤ s.ctx.msgStart.toNat + s.ctx.msgLen.toNat ∧
      t = (((s.setResult k).commit .ok 0 [] 0 0).setCtx (skipContext s.ctx k)).closeSection k
          ⟨s.cursor, memRead s.mem s.cursor 4⟩ := by
  have h : (40 = 0 ∨ (8 * s.cursor + 40 - 1) / 8 < s.cfg.bufBytes) ↔ s.cursor + 5 ≤ s.cfg.bufBytes := by omega
  simp only [runSkipsec, bind_ok, need_ok, checkM_ok, Bool.not_eq_true', Bool.or_eq_false_iff, beq_eq_false_iff_ne,
    pastMessage_eq_false, Bool.and_eq_true, decide_eq_true_eq, List.contains_iff_mem, exists_const, h, Except.ok.injEq,
    eq_comm (a := t), exists_eq_left', and_assoc]

/-- What UNPK7's checks establish before it decompresses (R292). -/
theorem runUnpk7_ok :
    runUnpk7 s = .ok t ↔ ∃ sec, Opened s 7 5 sec ∧ s.ctx.drtValid = true ∧ ∃ alg,
      dispatchLookup s.cfg.dispatch s.ctx.drtNum.toNat = some alg ∧ hasAlgorithm s.cfg alg = true ∧ ∃ p,
      linearParams s alg = some p ∧ s.dst + s.ctx.ndpts.toNat ≤ s.cfg.aCells ∧ decompress s sec alg p = .ok t := by
  simp only [runUnpk7, bind_ok, need_ok, needSpace_ok, openSection_ok, orRaise_ok, exists_const]

/-- How UNPK7 goes on after its checks: it writes n cells and closes the section, or it sends a request. -/
theorem decompress_ok {sec : Section} {alg : Algorithm} {p : LinearParams} (h : decompress s sec alg p = .ok t) :
    (∃ out, out.length = s.ctx.ndpts.toNat ∧ t = finish7 s sec s.dst out) ∨
      (p.nb ≠ 0 ∧ p.nb ≤ 32 ∧ alg ≠ .simple ∧ t = s.sendRequest (pendingOf s sec alg p)) := by
  unfold decompress at h
  simp only at h
  split at h
  · cases h; exact .inl ⟨_, List.length_replicate, rfl⟩
  · split at h
    · cases h
    · cases alg <;> simp only at h
      case simple =>
        split at h
        · cases h
        · cases h
          exact .inl ⟨_, by simp [reconCells, simpleSamples], rfl⟩
      all_goals
        cases h
        exact .inr ⟨‹_›, by omega, by simp, rfl⟩

theorem runUnpk7Answer_ok {p : Pending} {ans : CodecAnswer} :
    runUnpk7Answer p ans s = .ok t ↔ ∃ xs, ans = .samples xs ∧ xs.length = p.n ∧ (∀ x ∈ xs, x < 2 ^ p.params.nb) ∧
      t = finish7 s ⟨p.a, p.len⟩ p.dst (reconCells s.cfg.recon p.params xs) := by
  cases ans with
  | fail => simp [runUnpk7Answer]
  | samples xs => simp [runUnpk7Answer, bind_ok, eq_comm (a := t)]

/-- The computation of a command, apart from its end. -/
def runOf (i : Instr) (s : State) : Except Raise State :=
  match i with
  | .nop => .ok (s.commit .ok 0 [] 0 0)
  | .gbit w => runGbit w.toNat s
  | .gbits w => runGbits w.toNat s
  | .sbit w => runSbit w.toNat s
  | .sbits w => runSbits w.toNat s
  | .rdieee => runRdieee s
  | .mkieee => runMkieee s
  | .unpk0 => runUnpk0 s
  | .unpk1 => runUnpk1 s
  | .unpk2 => runUnpk2 s
  | .unpk3 g => runUnpk3 g s
  | .unpk4 => runUnpk4 s
  | .unpk5 => runUnpk5 s
  | .unpk6 => runUnpk6 s
  | .unpk7 => runUnpk7 s
  | .chkend => runChkend s
  | .skipsec => runSkipsec s

/-- Every command is the end of its computation. -/
theorem exec_eq (i : Instr) (s : State) : exec i s = endCommand s (runOf i s) := by cases i <;> rfl

/-- What a command can do: commit its staged state, or raise. -/
theorem exec_next {i : Instr} : exec i s = .next t ↔ runOf i s = .ok t ∨ ∃ r, runOf i s = .error r ∧ t = s.raise r := by
  rw [exec_eq, endCommand_next]

/-- The values of a recognized template: its fixed fields, then its extension. -/
theorem readKnown_ok {m : Memory} {d : Descriptor} {a e : Nat} {r : List Int × Nat} :
    readKnown m d a e = .ok r ↔ ∃ c, c = extensionCount d (readEntries m a d.entries) ∧
      a + fixedOctets d.entries ≤ e ∧ a + fixedOctets d.entries + 4 * c ≤ e ∧
      r = (readEntries m a d.entries ++ readExtension m (a + fixedOctets d.entries) c,
           a + fixedOctets d.entries + 4 * c) := by
  simp [readKnown, bind_ok, eq_comm (a := r)]

@[simp] theorem length_readEntries (m : Memory) (a : Nat) (ts : List TemplateEntry) :
    (readEntries m a ts).length = ts.length := by
  induction ts generalizing a with
  | nil => rfl
  | cons t ts ih => simp [readEntries, ih]

@[simp] theorem length_readExtension (m : Memory) (a c : Nat) : (readExtension m a c).length = c := by
  simp [readExtension]

@[simp] theorem length_readFloats (m : Memory) (p n : Nat) : (readFloats m p n).length = n := by simp [readFloats]

@[simp] theorem length_bitmapCells (m : Memory) (a n : Nat) : (bitmapCells m a n).length = n := by simp [bitmapCells]

@[simp] theorem length_readOctetFields (m : Memory) (o : Nat) (ws : List Nat) :
    (readOctetFields m o ws).length = ws.length := by
  induction ws generalizing o with
  | nil => rfl
  | cons w ws ih => simp [readOctetFields, ih]

@[simp] theorem length_reconCells (rule : ReconRule) (p : LinearParams) (xs : List Nat) :
    (reconCells rule p xs).length = xs.length := by simp [reconCells]

/-- What UNPK6 returns fits in A from DST on, beside the indicator cell. -/
theorem bitmapBody_fits {sec : Section} {ind : Nat} {b : List Word × Bool} (h : bitmapBody s sec ind = .ok b) :
    s.dst + (1 + b.1.length) ≤ s.cfg.aCells := by
  unfold bitmapBody at h
  split at h
  · simp only [bind_ok, needSpace_ok] at h
    obtain ⟨_, -, _, -, _, h3, h4⟩ := h
    cases h4; simpa using h3
  · split at h
    · simp only [bind_ok, needSpace_ok] at h
      obtain ⟨_, -, _, h2, h3⟩ := h
      cases h3; simpa using h2
    · split at h
      · simp only [bind_ok, needSpace_ok] at h
        obtain ⟨_, h1, h2⟩ := h
        cases h2; simpa using h1
      · cases h

end Sys2Proof.Machine
end

