-- ==== Sys2Proof/Laws/Float.lean ====
section
/-! SUPPORT. The rounding of spec/00_scope.md R18: `f32` gives the nearest binary32 number. The unit in the last place is
2^q; every binary32 number is a multiple of it or lies below the binade, so rounding the quotient to an integer is enough. -/

namespace Sys2Proof.Machine

theorem pow2_pos (i : Int) : 0 < pow2 i := Nat.pos_of_ne_zero (by simp [pow2])

/-- 2^i as the quotient of the two naturals that `pow2` gives. -/
theorem pow2_div (i : Int) : (pow2 i : ℚ) / pow2 (-i) = 2 ^ i := by
  obtain ⟨n, rfl | rfl⟩ := i.eq_nat_or_neg <;> simp [pow2]

/-- The binary exponent brackets the quotient. -/
theorem binaryExponent_spec {num den : Nat} (hn : 0 < num) (hd : 0 < den) :
    (2 : ℚ) ^ binaryExponent num den ≤ (num : ℚ) / den ∧ (num : ℚ) / den < 2 ^ (binaryExponent num den + 1) := by
  have hd' : (0 : ℚ) < den := by exact_mod_cast hd
  have n1 : (2 : ℚ) ^ Nat.log2 num ≤ num := by exact_mod_cast Nat.log2_self_le hn.ne'
  have n2 : (num : ℚ) < 2 ^ (Nat.log2 num + 1) := by exact_mod_cast Nat.lt_log2_self
  have d1 : (2 : ℚ) ^ Nat.log2 den ≤ den := by exact_mod_cast Nat.log2_self_le hd.ne'
  have d2 : (den : ℚ) < 2 ^ (Nat.log2 den + 1) := by exact_mod_cast Nat.lt_log2_self
  have key : ∀ l : Int, (num * pow2 (-l) ≥ den * pow2 l ↔ (2 : ℚ) ^ l ≤ (num : ℚ) / den) := by
    intro l
    rw [← pow2_div l, div_le_div_iff₀ (by exact_mod_cast pow2_pos _) hd', mul_comm (pow2 l : ℚ)]
    norm_cast
  set l : Int := (Nat.log2 num : Int) - Nat.log2 den with hl
  have up : (num : ℚ) / den < 2 ^ (l + 1) := by
    rw [div_lt_iff₀ hd', hl, show (Nat.log2 num : Int) - Nat.log2 den + 1 = ((Nat.log2 num + 1 : Nat) : Int) - Nat.log2 den by
      push_cast; ring, zpow_sub₀ (by norm_num), zpow_natCast, zpow_natCast]
    calc (num : ℚ) < 2 ^ (Nat.log2 num + 1) := n2
      _ = 2 ^ (Nat.log2 num + 1) / 2 ^ Nat.log2 den * 2 ^ Nat.log2 den := by field_simp
      _ ≤ _ := by gcongr
  have lo : (2 : ℚ) ^ (l - 1) ≤ (num : ℚ) / den := by
    rw [le_div_iff₀ hd', hl, show (Nat.log2 num : Int) - Nat.log2 den - 1 = (Nat.log2 num : Int) - ((Nat.log2 den + 1 : Nat) : Int) by
      push_cast; ring, zpow_sub₀ (by norm_num), zpow_natCast, zpow_natCast]
    calc (2 : ℚ) ^ Nat.log2 num / 2 ^ (Nat.log2 den + 1) * den ≤ 2 ^ Nat.log2 num / 2 ^ (Nat.log2 den + 1) * 2 ^ (Nat.log2 den + 1) := by gcongr
      _ = 2 ^ Nat.log2 num := by field_simp
      _ ≤ _ := n1
  unfold binaryExponent
  simp only [← hl]
  split
  · exact ⟨(key l).1 ‹_›, up⟩
  · exact ⟨lo, by rw [sub_add_cancel]; exact lt_of_not_ge (fun h => ‹¬_› ((key l).2 h))⟩

/-- `roundDiv` is within half of the quotient, and even on a tie. -/
theorem roundDiv_spec (num : Nat) {den : Nat} (hd : 0 < den) :
    2 * (roundDiv num den * den) ≤ 2 * num + den ∧ 2 * num ≤ 2 * (roundDiv num den * den) + den ∧
      (2 * (roundDiv num den * den) = 2 * num + den ∨ 2 * num = 2 * (roundDiv num den * den) + den →
        roundDiv num den % 2 = 0) := by
  unfold roundDiv
  simp only
  have h1 := Nat.div_add_mod num den
  have h2 := Nat.mod_lt num hd
  generalize num / den = q at *
  generalize num % den = r at *
  have h3 : q * den = den * q := mul_comm _ _
  have h4 : (q + 1) * den = den * q + den := by ring
  split
  · exact ⟨by omega, by omega, by omega⟩
  · split
    · exact ⟨by omega, by omega, by omega⟩
    · rcases Nat.mod_two_eq_zero_or_one q with hq | hq
      · rw [hq, Nat.add_zero]; exact ⟨by omega, by omega, by omega⟩
      · rw [hq]; exact ⟨by omega, by omega, by omega⟩

/-- `roundDiv` is the nearest integer to the quotient, the even one on a tie. -/
theorem roundDiv_nearest (num : Nat) {den : Nat} (hd : 0 < den) (k : Int) :
    |(num : ℚ) / den - roundDiv num den| ≤ |(num : ℚ) / den - k| ∧
      (|(num : ℚ) / den - roundDiv num den| = |(num : ℚ) / den - k| → k ≠ roundDiv num den → roundDiv num den % 2 = 0) := by
  obtain ⟨h1, h2, h3⟩ := roundDiv_spec num hd
  set m := roundDiv num den
  have hd' : (0 : ℚ) < den := by exact_mod_cast hd
  have e1 : (m : ℚ) ≤ (num : ℚ) / den + 1 / 2 := by
    rw [div_add' _ _ _ hd'.ne', le_div_iff₀ hd']
    have : (2 * (m * den) : ℚ) ≤ 2 * num + den := by exact_mod_cast h1
    linarith
  have e2 : (num : ℚ) / den ≤ m + 1 / 2 := by
    rw [div_le_iff₀ hd']
    have : (2 * num : ℚ) ≤ 2 * (m * den) + den := by exact_mod_cast h2
    linarith
  have half : |(num : ℚ) / den - m| = 1 / 2 → m % 2 = 0 := by
    intro h
    refine h3 ?_
    rcases abs_eq (by norm_num : (0 : ℚ) ≤ 1 / 2) |>.1 h with h | h
    · right
      have : (num : ℚ) = m * den + den / 2 := by
        rw [sub_eq_iff_eq_add, div_eq_iff hd'.ne'] at h; linarith
      have : (2 * num : ℚ) = 2 * (m * den) + den := by linarith
      exact_mod_cast this
    · left
      have : (num : ℚ) = m * den - den / 2 := by
        rw [sub_eq_iff_eq_add, div_eq_iff hd'.ne'] at h; linarith
      have : (2 * (m * den) : ℚ) = 2 * num + den := by linarith
      exact_mod_cast this
  have le_half : |(num : ℚ) / den - m| ≤ 1 / 2 := abs_le.2 ⟨by linarith, by linarith⟩
  by_cases hk : k = m
  · subst hk
    exact ⟨by simp, fun _ h => absurd rfl h⟩
  · have far : (1 : ℚ) ≤ |(k : ℚ) - m| := by
      have : (1 : Int) ≤ |k - m| := Int.one_le_abs (sub_ne_zero.2 hk)
      have h : ((1 : Int) : ℚ) ≤ ((|k - m| : Int) : ℚ) := Int.cast_le.2 this
      push_cast at h
      exact h
    have tri : |(k : ℚ) - m| ≤ |(num : ℚ) / den - k| + |(num : ℚ) / den - m| := by
      have := abs_sub_le (k : ℚ) ((num : ℚ) / den) m
      rwa [abs_sub_comm (k : ℚ) ((num : ℚ) / den)] at this
    exact ⟨by linarith, fun h _ => half (by linarith)⟩

/-! ### Fields of a pattern -/

section Fields
variable {neg : Bool} {p : Nat}

theorem f32Sign_ofNat (hp : p < 2 ^ 31) : f32Sign (BitVec.ofNat 32 (neg.toNat * 2 ^ 31 + p)) = neg := by
  have : (neg.toNat * 2 ^ 31 + p) / 2 ^ 31 = neg.toNat := by omega
  rw [f32Sign, BitVec.getLsbD_ofNat, Nat.testBit_eq_decide_div_mod_eq, this]
  cases neg <;> rfl

theorem toNat_ofNat_pattern (hp : p < 2 ^ 31) :
    (BitVec.ofNat 32 (neg.toNat * 2 ^ 31 + p)).toNat = neg.toNat * 2147483648 + p := by
  rw [BitVec.toNat_ofNat]; exact Nat.mod_eq_of_lt (by have := neg.toNat_le; omega)

theorem f32Biased_ofNat (hp : p < 2 ^ 31) : f32Biased (BitVec.ofNat 32 (neg.toNat * 2 ^ 31 + p)) = p / 2 ^ 23 := by
  rw [f32Biased, BitVec.extractLsb'_toNat, toNat_ofNat_pattern hp, Nat.shiftRight_eq_div_pow]
  generalize neg.toNat = b at *
  norm_num at *
  omega

theorem f32Fraction_ofNat (hp : p < 2 ^ 31) : f32Fraction (BitVec.ofNat 32 (neg.toNat * 2 ^ 31 + p)) = p % 2 ^ 23 := by
  rw [f32Fraction, BitVec.extractLsb'_toNat, toNat_ofNat_pattern hp, Nat.shiftRight_eq_div_pow]
  generalize neg.toNat = b at *
  norm_num at *
  omega

theorem lsb_ofNat (h : p % 2 = 0) : (BitVec.ofNat 32 (neg.toNat * 2 ^ 31 + p)).getLsbD 0 = false := by
  rw [BitVec.getLsbD_ofNat, Nat.testBit_zero]
  simp; omega

end Fields

/-- The number of a pattern whose exponent field is not all ones. -/
theorem f32Rat_fields {f : F32} (h : f32Biased f ≠ 255) :
    f32Rat f = some (((if f32Sign f then -1 else 1) * ((if f32Biased f = 0 then 0 else 2 ^ 23) + f32Fraction f : Nat) *
      2 ^ (max (f32Biased f : Int) 1 - 150) : ℚ)) := by
  unfold f32Rat f32Value
  rw [if_neg h]
  by_cases h0 : f32Biased f = 0
  · simp [h0]
  · rw [if_neg h0, if_neg h0, max_eq_left (by omega)]

/-- The number of a pattern that stands for `m` units of 2^(n - 149). -/
theorem f32Rat_units {neg : Bool} {n m : Nat} (hm : m ≤ 2 ^ 24) (hn : 0 < n → 2 ^ 23 ≤ m)
    (hp : n * 2 ^ 23 + m < 255 * 2 ^ 23) :
    f32Rat (BitVec.ofNat 32 (neg.toNat * 2 ^ 31 + (n * 2 ^ 23 + m))) =
      some (((if neg then -1 else 1) * m * 2 ^ ((n : Int) - 149) : ℚ)) := by
  have hp' : n * 2 ^ 23 + m < 2 ^ 31 := lt_of_lt_of_le hp (by norm_num)
  have hb : (n * 2 ^ 23 + m) / 2 ^ 23 = n + m / 2 ^ 23 := by rw [mul_comm n]; exact Nat.mul_add_div (by norm_num) ..
  have hf : (n * 2 ^ 23 + m) % 2 ^ 23 = m % 2 ^ 23 := by rw [mul_comm n]; exact Nat.mul_add_mod ..
  rw [f32Rat_fields, f32Sign_ofNat hp', f32Biased_ofNat hp', f32Fraction_ofNat hp', hb, hf]
  · rcases Nat.lt_or_ge m (2 ^ 23) with h1 | h1
    · obtain rfl : n = 0 := by by_contra h; exact absurd (hn (by omega)) (by omega)
      rw [Nat.div_eq_of_lt h1, Nat.mod_eq_of_lt h1]
      simp
    · rcases Nat.lt_or_eq_of_le hm with h2 | h2
      · have e1 : m / 2 ^ 23 = 1 := Nat.div_eq_of_lt_le (by rw [one_mul]; exact h1) (by exact h2)
        have e2 : 2 ^ 23 + m % 2 ^ 23 = m := by have := Nat.div_add_mod m (2 ^ 23); rw [e1] at this; omega
        rw [e1, if_neg (show ¬n + 1 = 0 by omega), e2, max_eq_left (by omega), show ((n + 1 : Nat) : Int) - 150 = n - 149 by push_cast; ring]
      · subst h2
        rw [show 2 ^ 24 / 2 ^ 23 = 2 by norm_num, show 2 ^ 24 % 2 ^ 23 = 0 by norm_num, if_neg (show ¬n + 2 = 0 by omega),
          max_eq_left (by omega), show ((n + 2 : Nat) : Int) - 150 = (n - 149) + 1 by push_cast; ring,
          zpow_add₀ (by norm_num)]
        norm_num
        cases neg <;> norm_num <;> ring
  · rw [f32Biased_ofNat hp']
    exact ((Nat.div_lt_iff_lt_mul (by norm_num)).2 hp).ne

/-- Every finite pattern is fewer than 2^24 units of some 2^x, x at least -149. -/
theorem f32Rat_shape {g : F32} {w : ℚ} (h : f32Rat g = some w) :
    ∃ (neg : Bool) (mant : Nat) (x : Int), -149 ≤ x ∧ mant < 2 ^ 24 ∧ w = ((if neg then -1 else 1) * mant * 2 ^ x : ℚ) := by
  have hf : f32Fraction g < 2 ^ 23 := (g.extractLsb' 0 23).isLt
  unfold f32Rat f32Value at h
  split at h
  · rename_i n m e hv
    split at hv
    · split at hv <;> cases hv
    · split at hv <;> cases hv <;> cases h
      · exact ⟨_, _, _, le_refl _, by omega, rfl⟩
      · exact ⟨_, _, _, by omega, by omega, rfl⟩
  all_goals cases h

/-- The magnitude of a quotient in units: the unit, the rounded count, and what they are. -/
theorem roundMagnitude_spec {num den : Nat} (hn : 0 < num) (hd : 0 < den) :
    ∃ (q : Int) (m : Nat), roundMagnitude num den = min ((q + 149).toNat * 2 ^ 23 + m) 0x7F800000 ∧ -149 ≤ q ∧ m ≤ 2 ^ 24 ∧
      (-149 < q → 2 ^ 23 ≤ m ∧ 2 ^ 23 * 2 ^ q ≤ (num : ℚ) / den) ∧ (num : ℚ) / den < 2 ^ 24 * 2 ^ q ∧
      ∀ k : Int, |(num : ℚ) / den / 2 ^ q - m| ≤ |(num : ℚ) / den / 2 ^ q - k| ∧
        (|(num : ℚ) / den / 2 ^ q - m| = |(num : ℚ) / den / 2 ^ q - k| → k ≠ m → m % 2 = 0) := by
  obtain ⟨lo, hi⟩ := binaryExponent_spec hn hd
  set e := binaryExponent num den
  set q : Int := max (e - 23) (-149) with hq
  have hd' : (0 : ℚ) < den := by exact_mod_cast hd
  have hpos : 0 < den * pow2 q := Nat.mul_pos hd (pow2_pos _)
  have quot : ((num * pow2 (-q) : Nat) : ℚ) / ((den * pow2 q : Nat) : ℚ) = (num : ℚ) / den / 2 ^ q := by
    rw [← pow2_div q]
    have a : (pow2 q : ℚ) ≠ 0 := by exact_mod_cast (pow2_pos q).ne'
    have b : (pow2 (-q) : ℚ) ≠ 0 := by exact_mod_cast (pow2_pos (-q)).ne'
    push_cast
    field_simp
  have near := fun k => roundDiv_nearest (num * pow2 (-q)) hpos k
  rw [quot] at near
  set m := roundDiv (num * pow2 (-q)) (den * pow2 q) with hm
  set v := (num : ℚ) / den with hv
  have uq : (0 : ℚ) < 2 ^ q := by positivity
  have top : v < 2 ^ 24 * 2 ^ q := by
    calc v < 2 ^ (e + 1) := hi
      _ ≤ 2 ^ (24 + q) := zpow_le_zpow_right₀ (by norm_num) (by omega)
      _ = _ := by rw [zpow_add₀ (by norm_num)]; norm_num
  have bottom : -149 < q → 2 ^ 23 * 2 ^ q ≤ v := by
    intro h
    calc (2 : ℚ) ^ 23 * 2 ^ q = 2 ^ (23 + q) := by rw [zpow_add₀ (by norm_num)]; norm_num
      _ = 2 ^ e := by congr 1; omega
      _ ≤ v := lo
  refine ⟨q, m, ?_, by omega, ?_, fun h => ⟨?_, bottom h⟩, top, near⟩
  · simp only [roundMagnitude, if_neg hn.ne']; rfl
  · have h1 : v / 2 ^ q < 2 ^ 24 := by rw [div_lt_iff₀ uq]; exact top
    by_contra hc
    have h2 := (near (2 ^ 24)).1
    have h3 : ((2 ^ 24 : Int) : ℚ) = 2 ^ 24 := by norm_num
    have h4 : ((2 : ℚ) ^ 24 + 1) ≤ m := by exact_mod_cast (by omega : 2 ^ 24 + 1 ≤ m)
    rw [h3, abs_of_neg (by linarith), abs_of_neg (by linarith)] at h2
    linarith
  · have h1 : (2 : ℚ) ^ 23 ≤ v / 2 ^ q := by rw [le_div_iff₀ uq]; exact bottom h
    by_contra hc
    have h2 := (near (2 ^ 23)).1
    have h3 : ((2 ^ 23 : Int) : ℚ) = 2 ^ 23 := by norm_num
    have h4 : (m : ℚ) + 1 ≤ 2 ^ 23 := by exact_mod_cast (by omega : m + 1 ≤ 2 ^ 23)
    rw [h3, abs_of_nonneg (by linarith), abs_of_nonneg (by linarith)] at h2
    linarith

/-- A binary32 number is a multiple of the unit, or lies below the 2^23 units at which a larger unit begins. -/
theorem f32Rat_multiple {g : F32} {w : ℚ} (h : f32Rat g = some w) {q : Int} (hq : -149 ≤ q) :
    (∃ k : Int, w = k * 2 ^ q) ∨ (-149 < q ∧ |w| < 2 ^ 23 * 2 ^ q) := by
  obtain ⟨neg, mant, x, hx, hm, rfl⟩ := f32Rat_shape h
  by_cases hxq : q ≤ x
  · left
    refine ⟨(if neg then -1 else 1) * (mant * 2 ^ (x - q).toNat), ?_⟩
    have e : (2 : ℚ) ^ x = 2 ^ (x - q).toNat * 2 ^ q := by
      rw [← zpow_natCast, Int.toNat_of_nonneg (by omega), ← zpow_add₀ (by norm_num), sub_add_cancel]
    rw [e]; cases neg <;> push_cast <;> ring
  · right
    refine ⟨by omega, ?_⟩
    have a : |((if neg then -1 else 1) * mant * 2 ^ x : ℚ)| = mant * 2 ^ x := by
      have h1 : (0 : ℚ) ≤ mant * 2 ^ x := by positivity
      cases neg
      · simp [abs_of_nonneg h1]
      · simp [abs_of_nonneg h1]
    have hm' : (mant : ℚ) < 2 ^ 24 := by exact_mod_cast hm
    rw [a]
    calc (mant : ℚ) * 2 ^ x < 2 ^ 24 * 2 ^ x := by gcongr
      _ ≤ 2 ^ 24 * 2 ^ (q - 1) := by gcongr <;> [norm_num; omega]
      _ = 2 ^ 23 * 2 ^ q := by rw [zpow_sub₀ (by norm_num)]; norm_num; ring

/-- The rounded count of units is at least as near as any binary32 number, and even when another is equally near. -/
theorem units_nearest {v : ℚ} {q : Int} {m : Nat} (hq : -149 ≤ q) (bottom : -149 < q → 2 ^ 23 * 2 ^ q ≤ v)
    (near : ∀ k : Int, |v / 2 ^ q - m| ≤ |v / 2 ^ q - k| ∧ (|v / 2 ^ q - m| = |v / 2 ^ q - k| → k ≠ m → m % 2 = 0))
    {g : F32} {w : ℚ} (hw : f32Rat g = some w) (sgn : ℚ) (hs : sgn = 1 ∨ sgn = -1) :
    |v - m * 2 ^ q| ≤ |v - sgn * w| ∧ (|v - m * 2 ^ q| = |v - sgn * w| → sgn * w ≠ m * 2 ^ q → m % 2 = 0) := by
  have uq : (0 : ℚ) < 2 ^ q := by positivity
  have scale : ∀ k : ℚ, |v - k * 2 ^ q| = |v / 2 ^ q - k| * 2 ^ q := by
    intro k
    rw [← abs_of_pos uq, ← abs_mul, abs_of_pos uq, sub_mul, div_mul_cancel₀ _ uq.ne']
  rcases f32Rat_multiple hw hq with ⟨k, rfl⟩ | ⟨h1, h2⟩
  · obtain ⟨j, hj⟩ : ∃ j : Int, sgn * (k * 2 ^ q) = j * 2 ^ q := by
      rcases hs with rfl | rfl
      · exact ⟨k, by ring⟩
      · exact ⟨-k, by push_cast; ring⟩
    obtain ⟨n1, n2⟩ := near j
    rw [hj, scale, scale]
    refine ⟨by gcongr, fun h hne => n2 (mul_right_cancel₀ uq.ne' h) ?_⟩
    rintro rfl
    exact hne (by push_cast; rfl)
  · have h3 : sgn * w < 2 ^ 23 * 2 ^ q := by
      rcases hs with rfl | rfl
      · rw [one_mul]; exact (le_abs_self w).trans_lt h2
      · rw [neg_one_mul]; exact (neg_le_abs w).trans_lt h2
    have h4 := (near (2 ^ 23)).1
    have h5 := scale ((2 ^ 23 : Int) : ℚ)
    have h6 : |v - m * 2 ^ q| ≤ |v - ((2 ^ 23 : Int) : ℚ) * 2 ^ q| := by rw [scale, h5]; gcongr
    have h7 : ((2 ^ 23 : Int) : ℚ) = 2 ^ 23 := by norm_num
    have h8 := bottom h1
    have h10 : |v - 2 ^ 23 * 2 ^ q| = v - 2 ^ 23 * 2 ^ q := abs_of_nonneg (by linarith)
    rw [h7, h10] at h6
    have h9 : |v - sgn * w| = v - sgn * w := abs_of_nonneg (by linarith)
    rw [h9]
    exact ⟨by linarith, fun h => by linarith⟩

/-- `f32` rounds to the nearest binary32 number (R18). -/
theorem nearest_f32 (neg : Bool) (num : Nat) {den : Nat} (hd : 0 < den) :
    NearestF32 ((if neg then -1 else 1) * (num / den)) (f32 neg num den) := by
  have hd' : (0 : ℚ) < den := by exact_mod_cast hd
  rcases Nat.eq_zero_or_pos num with rfl | hn
  · have hz : f32Rat (f32 neg 0 den) = some 0 := by
      have := f32Rat_units (neg := neg) (n := 0) (m := 0) (by norm_num) (by omega) (by norm_num)
      simpa [f32, roundMagnitude] using this
    refine ⟨fun _ => ⟨0, hz, fun g w _ => ⟨by simp, fun h hw => absurd ?_ hw⟩⟩, fun h => ?_, fun h => ?_⟩
    · simpa [eq_comm] using h
    · norm_num at h
    · simp at h
  · obtain ⟨q, m, hmag, hq, hm, hbin, top, near⟩ := roundMagnitude_spec hn hd
    have hv : (0 : ℚ) < num / den := by positivity
    set v : ℚ := num / den with hvdef
    obtain ⟨n, rfl⟩ : ∃ n : Nat, q = (n : Int) - 149 := ⟨(q + 149).toNat, by omega⟩
    rw [show ((n : Int) - 149 + 149).toNat = n by simp] at hmag
    have hsgn : (if neg then -1 else 1 : ℚ) = 1 ∨ (if neg then -1 else 1 : ℚ) = -1 := by cases neg <;> simp
    have habs : |(if neg then -1 else 1) * v| = v := by cases neg <;> simp [abs_of_pos hv]
    have hlt : roundMagnitude num den < 2 ^ 31 := by rw [hmag]; exact lt_of_le_of_lt (min_le_right _ _) (by norm_num)
    have huq : (0 : ℚ) < 2 ^ ((n : Int) - 149) := by positivity
    refine ⟨fun hb => ?_, fun hb => ?_, fun _ => ?_⟩
    · rw [habs] at hb
      have hp : n * 2 ^ 23 + m < 255 * 2 ^ 23 := by
        rcases Nat.lt_trichotomy n 253 with h | rfl | h
        · calc n * 2 ^ 23 + m ≤ 252 * 2 ^ 23 + 2 ^ 24 := Nat.add_le_add (Nat.mul_le_mul_right _ (by omega)) hm
            _ < _ := by norm_num
        · have h1 : v / 2 ^ (((253 : Nat) : Int) - 149) < 2 ^ 24 - 1 / 2 := by
            rw [div_lt_iff₀ huq]; calc v < 2 ^ 128 - 2 ^ 103 := hb
              _ = _ := by norm_num
          have h2 : m < 2 ^ 24 := by
            by_contra hc
            have hm' : (m : ℚ) = 2 ^ 24 := by exact_mod_cast (by omega : m = 2 ^ 24)
            have h3 := (near (2 ^ 24 - 1)).1
            have h4 : ((2 ^ 24 - 1 : Int) : ℚ) = 2 ^ 24 - 1 := by norm_num
            rw [hm', h4, abs_of_neg (by linarith)] at h3
            rcases abs_cases (v / 2 ^ (((253 : Nat) : Int) - 149) - (2 ^ 24 - 1)) with ⟨e, _⟩ | ⟨e, _⟩ <;> rw [e] at h3 <;> linarith
          calc 253 * 2 ^ 23 + m < 253 * 2 ^ 23 + 2 ^ 24 := by omega
            _ = _ := by norm_num
        · exfalso
          have h1 := (hbin (by omega)).2
          have h2 : (2 : ℚ) ^ (105 : Int) ≤ 2 ^ ((n : Int) - 149) := zpow_le_zpow_right₀ (by norm_num) (by omega)
          have h3 : (2 : ℚ) ^ 128 ≤ v := by
            calc (2 : ℚ) ^ 128 = 2 ^ 23 * 2 ^ (105 : Int) := by norm_num
              _ ≤ 2 ^ 23 * 2 ^ ((n : Int) - 149) := by gcongr
              _ ≤ v := h1
          have h4 : (0 : ℚ) < 2 ^ 103 := by positivity
          linarith
      have hp2 : roundMagnitude num den = n * 2 ^ 23 + m := by rw [hmag]; exact min_eq_left (by norm_num at hp ⊢; omega)
      have hr := f32Rat_units (neg := neg) hm (fun h => (hbin (by omega)).1) hp
      refine ⟨_, by rw [f32, hp2]; exact hr, fun g w hw => ?_⟩
      obtain ⟨n1, n2⟩ := units_nearest hq (fun h => (hbin h).2) near hw _ hsgn
      set sgn : ℚ := if neg then -1 else 1
      have hss : sgn * sgn = 1 := by rcases hsgn with h | h <;> rw [h] <;> norm_num
      have flip : ∀ x : ℚ, |sgn * v - x| = |v - sgn * x| := by
        intro x
        have : |sgn| = 1 := by rcases hsgn with h | h <;> rw [h] <;> norm_num
        calc |sgn * v - x| = |sgn| * |sgn * v - x| := by rw [this, one_mul]
          _ = |sgn * (sgn * v - x)| := (abs_mul _ _).symm
          _ = _ := by rw [mul_sub, ← mul_assoc, hss, one_mul]
      have e : sgn * (sgn * m * 2 ^ ((n : Int) - 149)) = m * 2 ^ ((n : Int) - 149) := by rw [mul_assoc sgn, ← mul_assoc, hss, one_mul]
      rw [flip, flip, e]
      refine ⟨n1, fun h hne => ?_⟩
      have hev := n2 h (fun hc => hne (by rw [mul_assoc, ← hc, ← mul_assoc, hss, one_mul]))
      rw [f32, hp2]
      exact lsb_ofNat (by omega)
    · rw [habs] at hb
      have hp : 255 * 2 ^ 23 ≤ n * 2 ^ 23 + m := by
        rcases Nat.lt_trichotomy n 253 with h | rfl | h
        · exfalso
          have h2 : (2 : ℚ) ^ ((n : Int) - 149) ≤ 2 ^ (103 : Int) := zpow_le_zpow_right₀ (by norm_num) (by omega)
          have h3 : v < 2 ^ 127 := by
            calc v < 2 ^ 24 * 2 ^ ((n : Int) - 149) := top
              _ ≤ 2 ^ 24 * 2 ^ (103 : Int) := by gcongr
              _ = 2 ^ 127 := by norm_num
          have h4 : (2 : ℚ) ^ 127 < 2 ^ 128 - 2 ^ 103 := by norm_num
          linarith
        · have h1 : 2 ^ 24 - 1 / 2 ≤ v / 2 ^ (((253 : Nat) : Int) - 149) := by
            rw [le_div_iff₀ huq]; calc _ = (2 : ℚ) ^ 128 - 2 ^ 103 := by norm_num
              _ ≤ v := hb
          have h0 : v / 2 ^ (((253 : Nat) : Int) - 149) < 2 ^ 24 := by rw [div_lt_iff₀ huq]; exact top
          have h2 : m = 2 ^ 24 := by
            by_contra hc
            have hm' : (m : ℚ) + 1 ≤ 2 ^ 24 := by exact_mod_cast (by omega : m + 1 ≤ 2 ^ 24)
            obtain ⟨h3, h5⟩ := near (2 ^ 24)
            have h4 : ((2 ^ 24 : Int) : ℚ) = 2 ^ 24 := by norm_num
            rw [h4, abs_of_nonneg (by linarith), abs_of_neg (by linarith)] at h3 h5
            have h6 : (m : ℚ) + 1 = 2 ^ 24 := by linarith
            have h7 : m + 1 = 2 ^ 24 := by exact_mod_cast h6
            have h8 := h5 (by linarith) (by omega)
            omega
          rw [h2]; norm_num
        · have h1 := (hbin (by omega)).1
          calc 255 * 2 ^ 23 = 254 * 2 ^ 23 + 2 ^ 23 := by norm_num
            _ ≤ _ := Nat.add_le_add (Nat.mul_le_mul_right _ (by omega)) h1
      have hp2 : roundMagnitude num den = 255 * 2 ^ 23 := by rw [hmag]; exact min_eq_right (by norm_num at hp ⊢; omega)
      have hneg : decide ((if neg then -1 else 1) * v < 0) = neg := by cases neg <;> simp [hv, hv.le]
      rw [hneg, f32, hp2]
      cases neg <;> decide
    · have hneg : decide ((if neg then -1 else 1) * v < 0) = neg := by cases neg <;> simp [hv, hv.le]
      rw [hneg]
      exact f32Sign_ofNat hlt

/-- `f32Dyadic` rounds to the nearest binary32 number. -/
theorem nearest_f32Dyadic (neg : Bool) (mant : Nat) (exp : Int) :
    NearestF32 ((if neg then -1 else 1) * (mant * 2 ^ exp)) (f32Dyadic neg mant exp) := by
  have h := nearest_f32 neg (mant * pow2 exp) (pow2_pos (-exp))
  rwa [Nat.cast_mul, mul_div_assoc, pow2_div] at h

/-- The number of a finite pattern, by its fields. -/
theorem f32Rat_eq_some {f : F32} {v : ℚ} :
    f32Rat f = some v ↔ ∃ neg mant exp, f32Value f = .finite neg mant exp ∧ v = (if neg then -1 else 1) * mant * 2 ^ exp := by
  unfold f32Rat
  cases f32Value f <;> simp [eq_comm (a := v)]

end Sys2Proof.Machine
end

