-- ==== Sys2Proof/Laws/HostPort.lean ====
section
/-! SUPPORT. What an access of the host can do: the checks of the host port, once for each check, and what is left unchanged; and
whose move a step is. -/

namespace Sys2Proof.Machine

variable {s t : State}

/-- BUSY is 0 exactly when PHASE is IDLE (R48). -/
@[simp] theorem busy_eq_false : s.busy = false ↔ s.phase = .idle := by
  cases h : s.phase <;> simp [State.busy, h]

@[simp] theorem busy_eq_true : s.busy = true ↔ s.phase ≠ .idle := by
  cases h : s.phase <;> simp [State.busy, h]

/-- Every register is open when the registers are. -/
theorem regOpen_of_open (h : s.RegistersOpen) (r : Reg) : s.regOpen r = true := by
  rcases h with h | h
  · cases hc : s.cfg.busyRegisters <;> simp [State.regOpen, hc, h]
  · simp [State.regOpen, h]

/-- CMD, CTRL and STATUS are always open. -/
theorem regOpen_of_openWhileBusy {r : Reg} (h : r.openWhileBusy = true) : s.regOpen r = true := by
  cases hc : s.cfg.busyRegisters <;> simp [State.regOpen, hc, h]

@[simp] theorem regOpen_cmd : s.regOpen .cmd = true := regOpen_of_openWhileBusy rfl
@[simp] theorem regOpen_status : s.regOpen .status = true := regOpen_of_openWhileBusy rfl
@[simp] theorem regOpen_ctrl : s.regOpen .ctrl = true := regOpen_of_openWhileBusy rfl

/-- A register access has a move when it is 64 bits wide, at a register's offset, and the register is open. -/
theorem withReg_next {offset width : Nat} {use : Reg → Host.Outcome State Fault Refusal} :
    withReg s offset width use = .next t ↔
      width = 64 ∧ ∃ r, regAt s.cfg offset = some r ∧ s.regOpen r = true ∧ use r = .next t := by
  unfold withReg
  by_cases hw : width = 64
  · cases hr : regAt s.cfg offset with
    | none => simp [hw]
    | some r => cases ho : s.regOpen r <;> simp [hw, ho]
  · simp [hw]

/-- A 64-bit access to an open register is what `use` makes of it. -/
theorem withReg_open {offset : Nat} {use : Reg → Host.Outcome State Fault Refusal} {r : Reg}
    (hr : regAt s.cfg offset = some r) (ho : s.regOpen r = true) : withReg s offset 64 use = use r := by
  simp [withReg, hr, ho]

/-- An access to M has a move while the block is idle, below BUF_BYTES. -/
theorem withByte_next {a : Nat} {u : State} :
    withByte s a u = .next t ↔ s.phase = .idle ∧ a < s.cfg.bufBytes ∧ t = u := by
  unfold withByte
  by_cases hb : s.phase = .idle <;> by_cases ha : a < s.cfg.bufBytes <;> simp [hb, ha, eq_comm (a := t)]

/-- An access to A has a move while the block is idle, below A_CELLS. -/
theorem withCell_next {i : Nat} {u : State} :
    withCell s i u = .next t ↔ s.phase = .idle ∧ i < s.cfg.aCells ∧ t = u := by
  unfold withCell
  by_cases hb : s.phase = .idle <;> by_cases ha : i < s.cfg.aCells <;> simp [hb, ha, eq_comm (a := t)]

/-- CTRL stands at offset 0x010 and nowhere else (R33). -/
theorem regAt_ctrl {c : Config} {offset : Nat} (h : regAt c offset = some .ctrl) : offset = 0x010 := by
  unfold regAt at h; split at h
  · rw [Option.map_eq_some_iff] at h
    obtain ⟨⟨o, r⟩, h1, h2⟩ := h
    have h3 := List.find?_some h1
    have h4 := List.mem_of_find?_eq_some h1
    simp only [beq_iff_eq] at h3 h2
    subst h3 h2
    simpa [regMap] using h4
  · split at h <;> cases h

/-- An access of the host leaves the context and M as they are, or is a soft reset, or writes a byte of M. -/
theorem hostMove_cases {m : HostMove} (h : hostMove m s = .next t) :
    (t.ctx = s.ctx ∧ t.mem = s.mem) ∨ (∃ v, m = .regWrite 0x010 64 v ∧ v.getLsbD 0 = true ∧ t = s.softReset) ∨
      ∃ a b, m = .mWrite a b ∧ t = { s with mem := Sparse.write s.mem a b } := by
  cases m with
  | regWrite o w v =>
    obtain ⟨rfl, r, hr, -, h⟩ := withReg_next.1 h
    unfold writeReg at h; split at h
    · unfold writeCmd at h; split at h
      · cases h; simp
      · split at h
        · cases h
        · cases h; simp
    · cases h; unfold writeCtrl; split
      · exact .inr (.inl ⟨v, by rw [regAt_ctrl hr], ‹_›, rfl⟩)
      · simp
    · cases h; simp
  | regRead => obtain ⟨-, r, -, -, h⟩ := withReg_next.1 h; cases h; simp
  | mRead => obtain ⟨-, -, rfl⟩ := withByte_next.1 h; simp
  | mWrite => obtain ⟨-, -, rfl⟩ := withByte_next.1 h; exact .inr (.inr ⟨_, _, rfl, rfl⟩)
  | aRead => obtain ⟨-, -, rfl⟩ := withCell_next.1 h; simp
  | aWrite => obtain ⟨-, -, rfl⟩ := withCell_next.1 h; simp
  | poll => cases h; unfold pollStatus; simp only; split <;> simp

/-- The codec agent's own move leaves the request waiting or answers it; it counts the draw either way. -/
theorem codecDraw_cases (p : Pending) (s : State) :
    codecDraw p s = { s with draws := s.draws + 1 } ∨
      ∃ ans, codecDraw p s = { s with draws := s.draws + 1, phase := .answered p ans } := by
  unfold codecDraw
  split
  · exact .inl rfl
  · exact .inr ⟨_, rfl⟩

/-- The codec agent's own move neither reads A nor writes it. -/
theorem codecDraw_arr (p : Pending) (s : State) (arr : Sparse 64) :
    codecDraw p { s with arr := arr } = { codecDraw p s with arr := arr } := by
  simp only [codecDraw]
  split <;> rfl

/-- A step is the block's own move, an answer of the codec agent, or an access of the host. -/
theorem step_cases (h : step s = .next t) :
    (s.BlockMoves ∧ ∃ l, blockMove { s with turns := l } = .next t) ∨
      (∃ n ans rest, s.turns = .codec n ans :: rest ∧ t = codecMove n ans { s with turns := rest }) ∨
        ∃ m rest, s.turns = .host m :: rest ∧ hostMove m { s with turns := rest } = .next t := by
  unfold step nextMove at h; split at h
  · rename_i ht
    exact .inl ⟨.inl ht, [], by rw [← ht]; exact h⟩
  · rename_i tn rest ht
    cases tn with
    | block => exact .inl ⟨.inr ⟨_, ht⟩, rest, h⟩
    | codec n ans => cases h; exact .inr (.inl ⟨_, _, _, ht, rfl⟩)
    | host m => exact .inr (.inr ⟨_, _, ht, h⟩)

end Sys2Proof.Machine
end

