-- ==== Sys2Proof/Laws/PerInstr.lean ====
section
/-! SUPPORT. The statement made of every command as syntax: its word has the match of its row under the row's mask
(spec/30_encoding.md R114). One lemma for each constructor. -/

namespace Sys2Proof.Laws.MatchMask

/-- The word of a command matches the command's row of the opcode table. -/
def Statement (i : Instr) : Prop := encodeWord i &&& i.matchRow.mask = i.matchRow.pattern

theorem nop : Statement .nop := by unfold Statement; decide
theorem gbit (w : BitVec 7) : Statement (.gbit w) := by unfold Statement; revert w; decide
theorem gbits (w : BitVec 7) : Statement (.gbits w) := by unfold Statement; revert w; decide
theorem sbit (w : BitVec 7) : Statement (.sbit w) := by unfold Statement; revert w; decide
theorem sbits (w : BitVec 7) : Statement (.sbits w) := by unfold Statement; revert w; decide
theorem rdieee : Statement .rdieee := by unfold Statement; decide
theorem mkieee : Statement .mkieee := by unfold Statement; decide
theorem unpk0 : Statement .unpk0 := by unfold Statement; decide
theorem unpk1 : Statement .unpk1 := by unfold Statement; decide
theorem unpk2 : Statement .unpk2 := by unfold Statement; decide
theorem unpk3 (g : Bool) : Statement (.unpk3 g) := by unfold Statement; revert g; decide
theorem unpk4 : Statement .unpk4 := by unfold Statement; decide
theorem unpk5 : Statement .unpk5 := by unfold Statement; decide
theorem unpk6 : Statement .unpk6 := by unfold Statement; decide
theorem unpk7 : Statement .unpk7 := by unfold Statement; decide
theorem chkend : Statement .chkend := by unfold Statement; decide
theorem skipsec : Statement .skipsec := by unfold Statement; decide

end Sys2Proof.Laws.MatchMask
end

