-- ==== Sys2Proof/Tests/Slice0.lean ====
section
/-! SUPPORT. The model's own tests: the well-formedness smoke tests, words written out from the encoding of
spec/30_encoding.md, one step of each command on a small state with the results that spec/95_test_vectors.md gives (the
vector's name stands on each test), and for each obligation with hypotheses a concrete witness that meets them. -/

namespace Sys2Proof.Tests

open Sys2Proof Sys2Proof.Machine

/-! ### Helpers -/

/-- M holding the bytes given from address 0 on. -/
def memOf (bs : List Nat) : Memory := Sparse.writeRun [] 0 (bs.map (BitVec.ofNat 8))

/-- A holding the cells given from index 0 on. -/
def arrOf (cs : List Nat) : Sparse 64 := Sparse.writeRun [] 0 (cs.map zext64)

/-- The state after power-on reset with the sizes, bytes and cells given. -/
def small (bufBytes aCells : Nat) (bs cs : List Nat) : State :=
  State.powerOn { defaultConfig with bufBytes := bufBytes, aCells := aCells } (memOf bs) (arrOf cs)

/-- `s` with operand registers BITOFF, COUNT, SKIP, DST, SRC, VALUE. -/
def ops (s : State) (bitoff count skip dst src value : Nat) : State :=
  { s with op := ⟨zext64 bitoff, zext64 count, zext64 skip, zext64 dst, zext64 src, zext64 value, s.op.cursor⟩ }

/-- The bytes of the worked examples of spec/40_bitio.md. -/
def five : State := small 5 8 [0xA5, 0x3C, 0xFF, 0x00, 0x81] []

/-- One section at byte address 0 of M, ready to be handled after section `last`, output at cell `dst`. -/
def section0 (bs : List Nat) (last dst : Nat) : State :=
  { State.reset with
    mem := memOf bs
    op := { OperandRegs.reset with dst := zext64 dst }
    ctx := { ContextRegs.reset with lastSec := zext64 last, msgLen := zext64 (bs.length + 4), edition := 2 } }

/-- The sections of program P3 of spec/95_test_vectors.md. -/
def sec0 : List Nat :=
  [0x47, 0x52, 0x49, 0x42, 0x00, 0x00, 0x00, 0x02, 0x00, 0x00, 0x00, 0x00, 0x00, 0x00, 0x00, 0xB5]
def sec1 : List Nat :=
  [0x00, 0x00, 0x00, 0x15, 0x01, 0x00, 0x07, 0x00, 0x00, 0x02, 0x01, 0x01, 0x07, 0xE5, 0x09, 0x16] ++
  [0x0C, 0x00, 0x00, 0x00, 0x01]
def sec3 : List Nat :=
  [0x00, 0x00, 0x00, 0x48, 0x03, 0x00, 0x00, 0x00, 0x00, 0x04, 0x00, 0x00, 0x00, 0x00, 0x06, 0x00] ++
  [0x00, 0x00, 0x00, 0x00, 0x00, 0x00, 0x00, 0x00, 0x00, 0x00, 0x00, 0x00, 0x00, 0x00, 0x00, 0x00] ++
  [0x00, 0x02, 0x00, 0x00, 0x00, 0x02, 0x00, 0x00, 0x00, 0x00, 0xFF, 0xFF, 0xFF, 0xFF, 0x80, 0xA7] ++
  [0xD8, 0xC0, 0x00, 0x00, 0x00, 0x00, 0x30, 0x80, 0x98, 0x96, 0x80, 0x00, 0x0F, 0x42, 0x40, 0x00] ++
  [0x0F, 0x42, 0x40, 0x00, 0x0F, 0x42, 0x40, 0x40]
def sec4 : List Nat :=
  [0x00, 0x00, 0x00, 0x22, 0x04, 0x00, 0x00, 0x00, 0x00, 0x00, 0x00, 0x02, 0x00, 0x60, 0x00, 0x00] ++
  [0x00, 0x01, 0x00, 0x00, 0x00, 0x06, 0x67, 0x00, 0x00, 0x00, 0x00, 0x02, 0xFF, 0xFF, 0xFF, 0xFF] ++
  [0xFF, 0xFF]
def sec5 : List Nat :=
  [0x00, 0x00, 0x00, 0x15, 0x05, 0x00, 0x00, 0x00, 0x04, 0x00, 0x00, 0x41, 0x20, 0x00, 0x00, 0x00] ++
  [0x01, 0x00, 0x01, 0x04, 0x00]
def sec6 : List Nat :=
  [0x00, 0x00, 0x00, 0x06, 0x06, 0xFF]
def sec7 : List Nat :=
  [0x00, 0x00, 0x00, 0x07, 0x07, 0x01, 0x5F]

/-- The state after a command that ends in a next state. -/
def after (i : Instr) (s : State) : Option State :=
  match exec i s with
  | .next t => some t
  | .fault _ | .refused _ => none

/-- A view of the state after a command. -/
def see {α : Type} (i : Instr) (s : State) (view : State → α) : Option α := (after i s).map view

/-- The numbers in cells d .. d+n-1 of A. -/
def cells (s : State) (d n : Nat) : List Nat := (Sparse.readRun s.arr d n).map (·.toNat)

/-- The numbers in bytes 0 .. n-1 of M. -/
def bytes (s : State) (n : Nat) : List Nat := (Sparse.readRun s.mem 0 n).map (·.toNat)

/-- STATUS, OUT_LEN, TPL_LEN, LIST_LEN, CURSOR and LAST_SEC, as numbers. -/
def summary (s : State) : List Nat :=
  [s.status, s.res.outLen, s.res.tplLen, s.res.listLen, s.op.cursor, s.ctx.lastSec].map (·.toNat)

/-! ### Well-formedness -/

theorem test_wf_width_65_refused : (Instr.gbit 65).wf 64 = false ∧ (Instr.gbits 127).wf 64 = false := by decide
theorem test_wf_width_33_refused_when_max_32 : (Instr.sbit 33).wf 32 = false ∧ (Instr.sbits 64).wf 32 = false := by decide
theorem test_wf_accepts : (Instr.gbit 64).wf 64 = true ∧ (Instr.gbit 0).wf 32 = true ∧ Instr.skipsec.wf 32 = true := by decide
theorem test_wf_descriptor_geometry_refused :
    Descriptor.wf ⟨[u1, u1], none, some ⟨2, 0, 0⟩⟩ = false ∧ Descriptor.wf ⟨[u1, u1], none, some ⟨0, 2, 0⟩⟩ = false ∧
      Descriptor.wf ⟨[u1, u1], none, some ⟨0, 0, 2⟩⟩ = false := by decide
theorem test_wf_descriptor_extension_refused : Descriptor.wf ⟨[u1], some (.sumOf [1]), none⟩ = false := by decide
theorem test_wf_config_sizes_refused :
    Config.wf { defaultConfig with bufBytes := 0 } = false ∧ Config.wf { defaultConfig with bufBytes := 2 ^ 60 } = false ∧
      Config.wf { defaultConfig with aCells := 0 } = false ∧ Config.wf { defaultConfig with drtMax := 15 } = false := by decide
theorem test_wf_config_rom_refused :
    Config.wf { defaultConfig with rom := [⟨.grid, 65536, tpl5_0⟩] } = false ∧
      Config.wf { defaultConfig with rom := [⟨.grid, 0, ⟨[], none, some ⟨0, 0, 0⟩⟩⟩] } = false := by decide
theorem test_wf_default_config : defaultConfig.wf = true := by decide

/-! ### Decoding: words written out from R111 and R114 -/

theorem test_decode_control : decode 64 0b00000000_0000000_0_0000000000000000 = .ok .nop := by decide
theorem test_decode_bit_io :
    decode 64 0b00000001_0000101_0_0000000000000000 = .ok (.gbit 5) ∧
      decode 64 0b00000010_0001100_0_0000000000000000 = .ok (.gbits 12) ∧
      decode 64 0b00000011_0001000_0_0000000000000000 = .ok (.sbit 8) ∧
      decode 64 0b00000100_0000100_0_0000000000000000 = .ok (.sbits 4) := by decide
theorem test_decode_float :
    decode 64 0b00001000_0000000_0_0000000000000000 = .ok .rdieee ∧
      decode 64 0b00001001_0000000_0_0000000000000000 = .ok .mkieee := by decide
theorem test_decode_sections :
    decode 64 0b00010000_0000000_0_0000000000000000 = .ok .unpk0 ∧
      decode 64 0b00010001_0000000_0_0000000000000000 = .ok .unpk1 ∧
      decode 64 0b00010010_0000000_0_0000000000000000 = .ok .unpk2 ∧
      decode 64 0b00010011_0000000_0_0000000000000000 = .ok (.unpk3 false) ∧
      decode 64 0b00010011_0000000_1_0000000000000000 = .ok (.unpk3 true) ∧
      decode 64 0b00010100_0000000_0_0000000000000000 = .ok .unpk4 ∧
      decode 64 0b00010101_0000000_0_0000000000000000 = .ok .unpk5 ∧
      decode 64 0b00010110_0000000_0_0000000000000000 = .ok .unpk6 ∧
      decode 64 0b00010111_0000000_0_0000000000000000 = .ok .unpk7 ∧
      decode 64 0b00011000_0000000_0_0000000000000000 = .ok .chkend ∧
      decode 64 0b00011001_0000000_0_0000000000000000 = .ok .skipsec := by decide

/-- V-L2-30-5 to V-L2-30-12: each field that makes a word illegal. -/
theorem test_decode_illegal :
    [0x01000001, 0x05000000, 0xFF000000, 0x00020000, 0x08020000, 0x10010000, 0x130A0000, 0x100000000].map
      (fun v => decode 64 (BitVec.ofNat 64 v)) = List.replicate 8 (.error .illegalCmd) := by decide
/-- V-L2-30-13 to V-L2-30-16. -/
theorem test_decode_width :
    decode 64 0x01FE0000 = .error .illegalWidth ∧ decode 32 0x01800000 = .error .illegalWidth ∧
      decode 32 0x01420000 = .error .illegalWidth ∧ decode 32 0x01400000 = .ok (.gbit 32) := by decide
/-- R118. -/
theorem test_assembler :
    (Instr.gbit 5).asm = "GBIT w=5" ∧ encodeWord (.gbit 5) = 0x010A0000 ∧ (Instr.unpk3 true).asm = "UNPK3 g=1" ∧
      encodeWord (.unpk3 true) = 0x13010000 := by decide

/-! ### One step of each command -/

/-- V-L2-40-1, run by `step` as the first command after reset of that instance. -/
theorem test_step_gbit :
    (match step ((ops five 3 0 0 0 0 0).withFetchWord 32 0x010A0000) with
      | .next t => some (t.res.result, t.res.nextoff, t.status, t.phase)
      | _ => none) = some (5, 8, 0, .idle) := by decide
/-- V-L2-30-5: the decoder's error is reported by the step. -/
theorem test_step_illegal :
    (match step (five.withFetchWord 32 0x01000001) with
      | .next t => some t.status
      | _ => none) = some 0x440 := by decide
/-- V-L2-40-18 and V-L2-40-4. -/
theorem test_gbit_spans_nine_bytes :
    see (.gbit 64) (ops (small 9 8 [0xA5, 0x3C, 0xFF, 0x00, 0x81, 0x12, 0x34, 0x56, 0x78] []) 4 0 0 0 0 0)
      (fun t => (t.res.result, t.res.nextoff)) = some (0x53CFF00811234567, 68) := by decide +kernel
theorem test_gbit_faults :
    see (.gbit 8) (ops five 33 0 0 0 0 0) (fun t => (t.status, t.faultInfo, t.res.result)) = some (0x40770, 5, 0) := by decide
/-- V-L2-40-8 and V-L2-40-14. -/
theorem test_gbits_skips :
    see (.gbits 6) (ops five 1 4 2 0 0 0) (fun t => (cells t 0 4, t.res.nextoff, t.res.outLen)) =
      some ([0x12, 0x1E, 0x3F, 0x00], 33, 4) := by decide
theorem test_gbits_fault_writes_nothing :
    see (.gbits 8) (ops (small 5 8 [0xA5, 0x3C, 0xFF, 0x00, 0x81] [0x99, 0x99, 0x99, 0x99]) 16 4 0 0 0 0)
      (fun t => (cells t 0 4, t.faultInfo)) = some ([0x99, 0x99, 0x99, 0x99], 5) := by decide
/-- V-L2-40-10 and V-L2-40-17. -/
theorem test_sbit_truncates :
    see (.sbit 8) (ops five 4 0 0 0 0 0x1FF) (fun t => (bytes t 5, t.res.nextoff)) =
      some ([0xAF, 0xFC, 0xFF, 0x00, 0x81], 12) := by decide
theorem test_sbit_clears :
    see (.sbit 64) (ops (small 16 8 [0xA5, 255, 255, 255, 255, 255, 255, 255, 255, 255] []) 5 0 0 0 0 0)
      (fun t => bytes t 10) = some [0xA0, 0, 0, 0, 0, 0, 0, 0, 7, 255] := by decide
/-- V-L2-40-11 and V-L2-40-13. -/
theorem test_sbits_keeps_skipped_bits :
    see (.sbits 4) (ops (small 5 8 [0xA5, 0x3C, 0xFF, 0x00, 0x81] [0, 0xF]) 0 2 4 0 0 0) (fun t => (bytes t 5, t.res.nextoff)) =
      some ([0x05, 0xFC, 0xFF, 0x00, 0x81], 16) := by decide
theorem test_sbits_fault_writes_nothing :
    see (.sbits 4) (ops five 36 2 0 0 0 0) (fun t => (bytes t 5, t.faultInfo)) =
      some ([0xA5, 0x3C, 0xFF, 0x00, 0x81], 5) := by decide
/-- V-L2-41-1 and V-L2-41-10. -/
theorem test_rdieee_keeps_nan :
    see .rdieee (ops (small 8 8 [0x41, 0x20, 0, 0, 0x7F, 0xC0, 0, 1] []) 0 2 0 0 0 0)
      (fun t => (cells t 0 2, t.res.nextoff, t.res.outLen)) = some ([0x41200000, 0x7FC00001], 64, 2) := by decide
theorem test_rdieee_empty_at_end :
    see .rdieee (ops (small 8 8 [] []) 7 0 0 8 0 0) (fun t => (t.status, t.res.nextoff)) = some (0, 7) := by decide
/-- V-L2-41-4 and V-L2-41-7. -/
theorem test_mkieee_ignores_high_bits :
    see .mkieee (ops (small 12 8 [] [0x80000000, 1, 0xFFFFFFFF7F800000]) 0 3 0 0 0 0) (fun t => (bytes t 12, t.res.nextoff)) =
      some ([0x80, 0, 0, 0, 0, 0, 0, 1, 0x7F, 0x80, 0, 0], 96) := by decide
theorem test_mkieee_unaligned :
    see .mkieee (ops (small 6 8 [0xAA, 0xAA, 0xAA, 0xAA, 0xAA, 0xAA] [0x3F800000]) 12 1 0 0 0 0) (fun t => bytes t 6) =
      some [0xAA, 0xA3, 0xF8, 0x00, 0x00, 0x0A] := by decide
/-- The example of R340. -/
theorem test_nop_clears_code :
    see .nop { five with code := .error .noSpace } (fun t => t.status) = some 0 := by decide
/-- The example of R222, and V-L2-43-1. -/
theorem test_unpk0 :
    see .unpk0 (section0 sec0 0xFF 0) (fun t => (summary t, cells t 0 3, t.ctx.msgLen)) =
      some ([0, 3, 0, 0, 16, 0], [0, 2, 181], 181) := by decide +kernel
theorem test_unpk0_edition :
    see .unpk0 (section0 (sec0.set 7 1) 0xFF 0) summary = some [0x111, 0, 0, 0, 0, 0xFF] := by decide
/-- The example of R224, and V-L2-43-7. -/
theorem test_unpk1 :
    see .unpk1 (section0 sec1 0 3) (fun t => (summary t, cells t 3 13)) =
      some ([0, 13, 0, 0, 21, 1], [7, 0, 2, 1, 1, 2021, 9, 22, 12, 0, 0, 0, 1]) := by decide
theorem test_unpk1_wrong_section :
    see .unpk1 (section0 (sec1.set 4 2) 0 3) summary = some [0x112, 0, 0, 0, 0, 0] := by decide
/-- V-L2-43-14, and V-L2-43-33 (a Section 2 after a Section 2). -/
theorem test_unpk2 :
    see .unpk2 (section0 [0, 0, 0, 7, 2, 0xAB, 0xCD] 1 0) (fun t => (summary t, cells t 0 2)) =
      some ([0, 2, 0, 0, 7, 2], [0xAB, 0xCD]) := by decide
theorem test_unpk2_twice : see .unpk2 (section0 [0, 0, 0, 5, 2] 2 0) summary = some [0x113, 0, 0, 0, 0, 2] := by decide
/-- The example of R226, and V-L2-43-10. -/
theorem test_unpk3 :
    see (.unpk3 true) (section0 sec3 1 16) (fun t => (summary t, cells t 16 5, cells t 28 2, cells t 32 1, t.ctx.flags,
        t.ctx.scan)) =
      some ([0, 24, 19, 0, 72, 3], [0, 4, 0, 0, 0], [2, 2], [0xFFFFFFFFFF582740], 9, 0x40) := by decide
theorem test_unpk3_opaque :
    see (.unpk3 false) (section0 (sec3.set 13 90) 1 0) (fun t => (summary t, cells t 5 1, cells t 62 1, t.ctx.flags, t.ctx.nx)) =
      some ([1, 63, 58, 0, 72, 3], [6], [0x40], 1, 0) := by decide +kernel
/-- The example of R228, and V-L2-43-29. -/
theorem test_unpk4 :
    see .unpk4 (section0 sec4 3 40) (fun t => (summary t, cells t 55 2)) =
      some ([0, 17, 15, 0, 34, 4], [0xFFFFFFFFFFFFFF81, 0xFFFFFFFF80000001]) := by decide
theorem test_unpk4_coordinates :
    see .unpk4 (section0 ((sec4.set 3 42).set 6 2 ++ [0x3F, 0x80, 0, 0, 0xBF, 0, 0, 0]) 3 0) (fun t => (summary t, cells t 17 2)) =
      some ([0, 19, 15, 2, 42, 4], [0x3F800000, 0xBF000000]) := by decide
/-- The example of R230, and V-L2-42-5. -/
theorem test_unpk5 :
    see .unpk5 (section0 sec5 4 57) (fun t => (summary t, cells t 57 7, t.ctx.drtLen, (Sparse.readRun t.drtv 0 5).map (·.toNat))) =
      some ([0, 7, 5, 0, 21, 5], [4, 0, 0x41200000, 1, 1, 4, 0], 5, [0x41200000, 1, 1, 4, 0]) := by decide
theorem test_unpk5_extension :
    see .unpk5 (section0 ([0, 0, 0, 0x2C, 5, 0, 0, 0, 4, 0, 1, 0x41, 0x20, 0, 0, 0, 1, 0, 1, 4, 0, 0] ++
        [0, 0, 0, 0, 0, 0, 0, 0, 0, 1, 0, 1, 0, 0, 0x80, 0, 0, 5, 0, 0, 0, 7]) 4 0)
      (fun t => (summary t, cells t 17 2)) = some ([0, 19, 17, 0, 44, 5], [0xFFFFFFFFFFFFFFFB, 7]) := by decide

/-- A state before Section 6: four grid points known. -/
def beforeSix (bs : List Nat) (dst : Nat) : State :=
  { section0 bs 5 dst with ctx := { (section0 bs 5 dst).ctx with ngpts := 4, ngptsValid := true } }

/-- V-L2-43-20 and V-L1-3. -/
theorem test_unpk6_bitmap :
    see .unpk6 (beforeSix [0, 0, 0, 7, 6, 0, 0xB0] 0) (fun t => (summary t, cells t 0 5, t.ctx.haveBmap)) =
      some ([0, 5, 0, 4, 7, 6], [0, 1, 0, 1, 1], true) := by decide
theorem test_unpk6_none :
    see .unpk6 (beforeSix sec6 64) (fun t => (summary t, cells t 64 1)) = some ([0, 1, 0, 0, 6, 6], [255]) := by decide

/-- A state before Section 7 with the data representation given: NDPTS, DRT_NUM and the DRT values. -/
def beforeSeven (bs : List Nat) (ndpts drt : Nat) (vals : List Nat) (dst : Nat) : State :=
  { section0 bs 6 dst with
    drtv := arrOf vals
    ctx := { (section0 bs 6 dst).ctx with
             ndpts := zext64 ndpts, drtNum := zext64 drt, drtLen := zext64 vals.length, drtValid := true } }

/-- The state of `beforeSeven` in an instance that has the JPEG2000 codec. -/
def withJpeg (s : State) : State := { s with cfg := { s.cfg with hasJpeg2000 := true } }

/-- V-L2-44-1 and V-L2-44-2. -/
theorem test_unpk7_simple :
    see .unpk7 (beforeSeven sec7 4 0 [0x41200000, 1, 1, 4, 0] 65) (fun t => (summary t, cells t 65 4)) =
      some ([0, 4, 0, 0, 7, 7], [0x3F800000, 0x3F99999A, 0x40000000, 0x40800000]) := by decide
theorem test_unpk7_constant :
    see .unpk7 (beforeSeven [0, 0, 0, 5, 7] 4 0 [0x41200000, 0, 1, 0, 0] 0) (fun t => (summary t, cells t 0 4)) =
      some ([0, 4, 0, 0, 5, 7], [0x41200000, 0x41200000, 0x41200000, 0x41200000]) := by decide

/-- The state of V-L2-44-13 before UNPK7. -/
def jpegReady : State := withJpeg (beforeSeven [0, 0, 0, 9, 7, 0xFF, 0x4F, 0xFF, 0x51] 4 40 [0x41200000, 0, 1, 8, 0, 0, 255] 0)

/-- What the engine holds while it waits in V-L2-44-13. -/
def jpegPending : Pending :=
  { serial := 0, a := 0, len := 9, dst := 0, n := 4, params := ⟨0x41200000, 0, 1, 8⟩,
    req := { algorithm := .jpeg2000, drtNum := 40, payload := [0xFF, 0x4F, 0xFF, 0x51], width := 4, height := 1, depth := 8,
             drtValues := [0x41200000, 0, 1, 8, 0, 0, 255], codecCfg := 0 } }

/-- V-L2-44-13: the request, STATUS while the engine waits, and the result of its second step. -/
theorem test_unpk7_request :
    see .unpk7 jpegReady (fun t => (t.status, t.phase)) = some (0x30000, .waiting jpegPending) := by decide
theorem test_unpk7_answer :
    (match engineFinish jpegPending (.samples [0, 5, 100, 255]) jpegReady with
      | .next t => some (summary t, cells t 0 4)
      | _ => none) = some ([0, 4, 0, 0, 9, 7], [0x3F800000, 0x3FC00000, 0x41300000, 0x41D40000]) := by decide
/-- V-L2-43-24 and the example of R232. -/
theorem test_chkend :
    see .chkend { section0 [0x37, 0x37, 0x37, 0x37] 7 0 with ctx := { ContextRegs.reset with lastSec := 7, msgLen := 4 } } summary =
      some [0, 0, 0, 0, 4, 8] := by decide
theorem test_chkend_no_end :
    see .chkend (section0 [0x37, 0x37, 0x37, 0x36] 7 0) summary = some [0x116, 0, 0, 0, 0, 7] := by decide
/-- V-L2-43-16 and V-L2-43-25. -/
theorem test_skipsec : see .skipsec (section0 sec4 3 0) (fun t => (summary t, t.res.result)) = some ([0, 0, 0, 0, 34, 4], 4) := by decide
theorem test_skipsec_after_end : see .skipsec (section0 sec4 8 0) summary = some [0x113, 0, 0, 0, 0, 8] := by decide

/-! ### The default ROM, reconstruction and reset -/

/-- R196: counts, octets, extension and geometry of the nine default descriptors. -/
theorem test_default_rom :
    defaultRom.map (fun r => (r.number, r.descriptor.entries.length, fixedOctets r.descriptor.entries)) =
      [(0, 19, 58), (0, 15, 25), (0, 5, 10), (1, 15, 25), (40, 7, 12), (41, 5, 10), (42, 8, 14), (40000, 7, 12), (40010, 5, 10)] ∧
      tpl3_0.geometry = some ⟨7, 8, 18⟩ ∧ tpl5_1.extension = some (.sumOf [10, 12]) := by decide
/-- V-L2-42-1 to V-L2-42-4. -/
theorem test_sign_magnitude :
    [(32, 0x80000001), (16, 0x8000), (8, 0xFF), (32, 0x80A7D8C0)].map (fun f => signMagnitude f.1 f.2) =
      [-1, 0, -127, -11000000] := by decide
/-- V-L2-44-6, V-L2-44-6b, V-L2-44-8 and V-L2-44-9. -/
theorem test_recon :
    reconStep32 4 0x41200000 (-3) 1 = 0x3F866667 ∧ reconExact 4 0x41200000 (-3) 1 = 0x3F866666 ∧
      reconStep32 5 0x7F800001 0 0 = 0x7FC00001 ∧ reconStep32 5 0xFF800000 0 0 = 0xFF800000 := by decide
/-- The binary32 facts that spec/95_test_vectors.md lists after V-L2-44-23. -/
theorem test_f32 :
    f32 false 1 10 = 0x3DCCCCCD ∧ f32 false 1 (2 ^ 150) = 0 ∧ f32 false 3 (2 ^ 150) = 2 ∧
      f32 false (2 ^ 128) 1 = 0x7F800000 ∧ f32OfNat 16777217 = 0x4B800000 := by decide
/-- The free values are never evaluated on the path from reset: a command runs as the first one after State.reset. -/
theorem test_first_command_after_reset :
    (match step (State.reset.withFetchWord 32 0x01100000) with
      | .next t => some (t.res.result, t.res.nextoff)
      | _ => none) = some (0, 8) := by decide
/-- V-L2-40-20 and V-L2-40-21: a CMD write after a fault is ignored; a soft reset clears the fault. -/
theorem test_soft_reset_clears_fault :
    (match hostMove (.regWrite 0x010 64 1) { five with fault := true, code := .faultOob, faultInfo := 5 } with
      | .next t => some (t.status, t.faultInfo, bytes t 5)
      | _ => none) = some (0, 0, [0xA5, 0x3C, 0xFF, 0x00, 0x81]) := by decide

/-! ### Witnesses: states and operands that meet the hypotheses of each obligation that has some, one for each clause -/

theorem witness_DecodeInvertsEncode : (Instr.gbit 64).wf 64 = true ∧ (Instr.sbits 32).wf 32 = true := by decide
theorem witness_OnlyEncodingsDecode : decode 64 0x01800000 = .ok (.gbit 64) := by decide
theorem witness_WordsDecodeByMatchAndMask :
    ∀ i : Instr, (0x05000000 : BitVec 32) &&& i.matchRow.mask ≠ i.matchRow.pattern := by
  intro i; cases i <;> simp only [Instr.matchRow] <;> decide
/-- One CMD value for each branch of R115, in its order. -/
theorem witness_DecoderChecksInOrder :
    [0x100000000, 0x05000000, 0x01000001, 0x08020000, 0x10010000, 0x01820000, 0x01800000].map
        (fun v => decode 64 (BitVec.ofNat 64 v)) =
      List.replicate 5 (.error .illegalCmd) ++ [.error .illegalWidth, .ok (.gbit 64)] := by decide
theorem witness_GetBitsIsBitSum :
    (∀ a, 4 / 8 ≤ a → a ≤ (4 + 8 - 1) / 8 → Sparse.read (memOf [0xA5, 0x3C, 0xFF]) a = Sparse.read (memOf [0xA5, 0x3C]) a) ∧
      memOf [0xA5, 0x3C, 0xFF] ≠ memOf [0xA5, 0x3C] := by
  refine ⟨fun a _ h => ?_, by decide⟩
  have : a = 0 ∨ a = 1 := by omega
  rcases this with rfl | rfl <;> decide
theorem witness_GetBitsSplits : 5 ≤ 8 ∧ getBits five.mem 4 8 = 0x53 ∧ getBits five.mem 4 5 = 0xA ∧ getBits five.mem 9 3 = 3 := by
  decide
theorem witness_SetBitsWritesOnlyItsBits : Memory.wf five.mem = true ∧ ByteOutside 4 8 2 ∧ ¬ByteOutside 4 8 1 := by
  unfold ByteOutside; decide
/-- The last field in M, the first past it, and a field of no bits. -/
theorem witness_GbitExtractsField :
    FieldInM (ops five 32 0 0 0 0 0) (ops five 32 0 0 0 0 0).bitoff 8 ∧ ¬FieldInM (ops five 33 0 0 0 0 0) (ops five 33 0 0 0 0 0).bitoff 8 ∧
      FieldInM (ops five 1000 0 0 0 0 0) (ops five 1000 0 0 0 0 0).bitoff 0 := by unfold FieldInM; decide
theorem witness_GbitsExtractsBatch :
    Sparse.wf five.arr = true ∧ (ops five 0 3 0 6 0 0).cfg.aCells < (ops five 0 3 0 6 0 0).dst + (ops five 0 3 0 6 0 0).count ∧
      (ops five 0 3 0 5 0 0).dst + (ops five 0 3 0 5 0 0).count = five.cfg.aCells ∧ BatchInM (ops five 0 3 0 5 0 0) 8 0 3 ∧
      BatchInM (ops five 16 4 0 0 0 0) 8 0 3 ∧ ¬FieldInM (ops five 16 4 0 0 0 0) (16 + 3 * (8 + 0)) 8 := by
  unfold BatchInM FieldInM; decide
theorem witness_SbitInsertsField :
    Memory.wf five.mem = true ∧ FieldInM (ops five 32 0 0 0 0 0) 32 8 ∧ ¬FieldInM (ops five 33 0 0 0 0 0) 33 8 := by
  unfold FieldInM; decide
theorem witness_SbitsInsertsBatch :
    Memory.wf five.mem = true ∧ (ops five 0 2 0 0 7 0).cfg.aCells < (ops five 0 2 0 0 7 0).src + (ops five 0 2 0 0 7 0).count ∧
      (ops five 0 2 0 0 6 0).src + (ops five 0 2 0 0 6 0).count = five.cfg.aCells ∧ BatchInM (ops five 0 2 0 0 6 0) 4 0 2 ∧
      BatchInM (ops five 36 2 0 0 0 0) 4 0 1 ∧ ¬FieldInM (ops five 36 2 0 0 0 0) (36 + 1 * (4 + 0)) 4 := by
  unfold BatchInM FieldInM; decide
theorem witness_InsertThenExtractReturnsValue :
    Memory.wf five.mem = true ∧ Sparse.wf five.arr = true ∧ FieldInM (ops five 32 1 0 7 7 0) 32 8 ∧
      BatchInM (ops five 32 1 0 7 7 0) 8 0 1 ∧ (ops five 32 1 0 7 7 0).src + 1 ≤ five.cfg.aCells ∧
      (ops five 32 1 0 7 7 0).dst + 1 ≤ five.cfg.aCells := by unfold BatchInM FieldInM; decide
theorem witness_RdieeeCopiesPatterns :
    (ops five 0 1 0 8 0 0).cfg.aCells < (ops five 0 1 0 8 0 0).dst + 1 ∧ (ops five 8 1 0 7 0 0).dst + 1 = five.cfg.aCells ∧
      BatchInM (ops five 8 1 0 7 0 0) 32 0 1 ∧ BatchInM (ops five 8 2 0 0 0 0) 32 0 1 ∧
      ¬FieldInM (ops five 8 2 0 0 0 0) (8 + 32 * 1) 32 := by unfold BatchInM FieldInM; decide
theorem witness_MkieeeWritesPatterns :
    (ops five 0 1 0 0 8 0).cfg.aCells < (ops five 0 1 0 0 8 0).src + 1 ∧ (ops five 8 1 0 0 7 0).src + 1 = five.cfg.aCells ∧
      BatchInM (ops five 8 1 0 0 7 0) 32 0 1 ∧ ¬FieldInM (ops five 9 1 0 0 7 0) (9 + 32 * 0) 32 := by
  unfold BatchInM FieldInM; decide
theorem witness_FloatRoundTrip :
    BatchInM (ops five 8 1 0 7 0 0) 32 0 1 ∧ (ops five 8 1 0 7 0 0).dst + 1 ≤ five.cfg.aCells ∧
      (∀ i, i < 1 → (Sparse.read five.arr (0 + i)).toNat < 2 ^ 32) := by unfold BatchInM FieldInM; decide
/-- Each refusal of UNPK0 in R222's order, then success with the last cell of A. -/
theorem witness_Unpk0OpensMessage :
    [small 15 8 sec0 [], small 16 8 (sec0.set 3 0x43) [], small 16 8 (sec0.set 7 1) [], small 16 8 (sec0.set 15 19) [],
        small 16 2 sec0 [], small 16 3 (sec0.set 15 20) []].map (fun s => see .unpk0 s (fun t => t.status)) =
      [some 0x40770, some 0x110, some 0x111, some 0x117, some 0x330, some 0] := by decide +kernel

/-- `s` with a buffer of n bytes. -/
def withBuf (s : State) (n : Nat) : State := { s with cfg := { s.cfg with bufBytes := n } }

/-- `s` with the message one octet shorter than its sections need. -/
def shortMessage (s : State) (n : Nat) : State := { s with ctx := { s.ctx with msgLen := zext64 n } }

/-- Each refusal of R223 in its order, at the boundary where there is one. -/
theorem witness_SectionChecksInOrder :
    [section0 sec1 1 0, shortMessage (section0 sec1 0 0) 8, withBuf (section0 sec1 0 0) 4, section0 (sec1.set 4 2) 0 0,
        section0 (sec1.set 3 20) 0 0, shortMessage (section0 sec1 0 0) 24, withBuf (section0 sec1 0 0) 20].map
        (fun s => see .unpk1 s (fun t => t.status)) =
      [some 0x113, some 0x115, some 0x40770, some 0x112, some 0x114, some 0x115, some 0x40770] := by decide +kernel
/-- A state of `section0` that meets the invariant. -/
def opened : State := { section0 sec1 1 0 with ctx := { (section0 sec1 1 0).ctx with msgLen := 181 } }

/-- A sound state whose next step is UNPK0, and one whose next step is a soft reset with a message open. -/
theorem witness_SectionsFollowTheOrder :
    (see .unpk1 (section0 sec1 0 0) (fun t => t.ctx.lastSec) = some 1 ∧ (section0 sec1 0 0).ctx.lastSec = 0) ∧
    State.Inv { State.reset with mem := memOf sec0, phase := .issued 0x10000000 } ∧
      (match step { State.reset with mem := memOf sec0, phase := .issued 0x10000000 } with
        | .next t => some t.ctx.lastSec
        | _ => none) = some 0 ∧
      State.Inv { opened with turns := [.host (.regWrite 0x010 64 1)] } ∧
      (match step { opened with turns := [.host (.regWrite 0x010 64 1)] } with
        | .next t => some t.ctx.lastSec
        | _ => none) = some 0xFF :=
  ⟨by decide, ⟨by decide, by decide, by decide, by decide, by decide, by decide, by decide, by decide, by decide, fun _ => rfl,
      fun h => absurd rfl h, by decide, by decide, by decide, trivial⟩, by decide +kernel,
    ⟨by decide, by decide, by decide, by decide, by decide, by decide, by decide, by decide, by decide, by decide, by decide,
      by decide, by decide, by decide, trivial⟩, by decide⟩

/-- Whether a section is ready does not depend on where its output goes. -/
theorem ready_at {bs : List Nat} {last k m : Nat} (h : SectionReady (section0 bs last 0) k m) (d : Nat) :
    SectionReady (section0 bs last d) k m :=
  ⟨h.order, h.headerInMessage, h.headerInM, h.number, h.length, h.inMessage, h.inM⟩

/-- Sections that are ready: each of its minimum length or as in P3, ending where the message allows. -/
theorem ready_unpk1 (d : Nat) : SectionReady (section0 sec1 0 d) 1 21 :=
  ready_at ⟨by decide, by decide, by decide, by decide, by decide, by decide, by decide⟩ d
theorem ready_unpk2 (d : Nat) : SectionReady (section0 [0, 0, 0, 7, 2, 0xAB, 0xCD] 1 d) 2 5 :=
  ready_at ⟨by decide, by decide, by decide, by decide, by decide, by decide, by decide⟩ d
theorem ready_unpk3 (d : Nat) : SectionReady (section0 sec3 1 d) 3 14 :=
  ready_at ⟨by decide, by decide, by decide, by decide, by decide, by decide, by decide⟩ d
theorem ready_unpk3_opaque (d : Nat) : SectionReady (section0 (sec3.set 13 90) 1 d) 3 14 :=
  ready_at ⟨by decide, by decide, by decide, by decide, by decide, by decide, by decide⟩ d
theorem ready_unpk4 (d : Nat) : SectionReady (section0 sec4 3 d) 4 9 :=
  ready_at ⟨by decide, by decide, by decide, by decide, by decide, by decide, by decide⟩ d
theorem ready_unpk5 (d : Nat) : SectionReady (section0 sec5 4 d) 5 11 :=
  ready_at ⟨by decide, by decide, by decide, by decide, by decide, by decide, by decide⟩ d
theorem ready_unpk6 (d : Nat) : SectionReady (section0 sec6 5 d) 6 6 :=
  ready_at ⟨by decide, by decide, by decide, by decide, by decide, by decide, by decide⟩ d
theorem ready_unpk7 (d : Nat) : SectionReady (section0 sec7 6 d) 7 5 :=
  ready_at ⟨by decide, by decide, by decide, by decide, by decide, by decide, by decide⟩ d
theorem ready_seven (n drt : Nat) (vals : List Nat) (d : Nat) : SectionReady (beforeSeven sec7 n drt vals d) 7 5 :=
  let h := ready_unpk7 d
  ⟨h.order, h.headerInMessage, h.headerInM, h.number, h.length, h.inMessage, h.inM⟩

theorem witness_Unpk1ReturnsIdentification :
    SectionReady (section0 sec1 0 115) 1 21 ∧ SectionReady (section0 sec1 0 116) 1 21 ∧ Sparse.wf State.reset.arr = true ∧
      (section0 sec1 0 115).dst + 13 = State.reset.cfg.aCells ∧ State.reset.cfg.aCells < (section0 sec1 0 116).dst + 13 :=
  ⟨ready_unpk1 115, ready_unpk1 116, by decide, by decide, by decide⟩
/-- The last cells of A, and one cell too few. -/
theorem witness_Unpk2ReturnsLocalOctets :
    SectionReady (section0 [0, 0, 0, 7, 2, 0xAB, 0xCD] 1 127) 2 5 ∧
      State.reset.cfg.aCells <
        (section0 [0, 0, 0, 7, 2, 0xAB, 0xCD] 1 127).dst + (memRead (section0 [0, 0, 0, 7, 2, 0xAB, 0xCD] 1 127).mem 0 4 - 5) ∧
      SectionReady (section0 [0, 0, 0, 7, 2, 0xAB, 0xCD] 1 126) 2 5 ∧
      (section0 [0, 0, 0, 7, 2, 0xAB, 0xCD] 1 126).dst + (memRead (section0 [0, 0, 0, 7, 2, 0xAB, 0xCD] 1 126).mem 0 4 - 5) =
        State.reset.cfg.aCells :=
  ⟨ready_unpk2 127, by decide, ready_unpk2 126, by decide⟩
/-- P3's Section 3: the lookup, the reader and the list of `Unpk3ReturnsGrid`, with the last cells of A. -/
theorem witness_Unpk3ReturnsGrid :
    (section0 sec3 1 104).cfg.wf = true ∧ Sparse.wf (section0 sec3 1 104).arr = true ∧ SectionReady (section0 sec3 1 104) 3 14 ∧ romLookup defaultRom .grid (memRead (memOf sec3) 12 2) = some tpl3_0 ∧
      (match readKnown (memOf sec3) tpl3_0 14 72 with
        | .ok (vals, a2) => some (vals.length, a2, match optList .countEntries (memOf sec3) (memRead (memOf sec3) 10 1) a2 72 with
          | .ok l => some l
          | .error _ => none)
        | .error _ => none) = some (19, 72, some []) ∧
      tpl3_0.geometry ≠ none ∧ (section0 sec3 1 104).dst + (5 + 19 + 0) = (section0 sec3 1 104).cfg.aCells :=
  ⟨by decide, by decide, ready_unpk3 104, by decide, by decide +kernel, by decide, by decide⟩
theorem witness_Unpk3ReturnsOpaqueOctets :
    SectionReady (section0 (sec3.set 13 90) 1 65) 3 14 ∧
      romLookup defaultRom .grid (memRead (memOf (sec3.set 13 90)) 12 2) = none ∧
      (section0 (sec3.set 13 90) 1 65).dst + (5 + (72 - 14)) = State.reset.cfg.aCells :=
  ⟨ready_unpk3_opaque 65, by decide, by decide⟩
/-- The refusals of UNPK3 in R226's order: unknown template with G = 1, no room for the opaque octets, the template cut short,
a bad list width, no geometry with G = 1, no room. -/
theorem witness_Unpk3Refusals :
    [see (.unpk3 true) (section0 (sec3.set 13 90) 1 0) (fun t => t.status),
      see (.unpk3 false) (section0 (sec3.set 13 90) 1 66) (fun t => t.status),
      see (.unpk3 false) (section0 ((sec3.set 3 71).take 71) 1 0) (fun t => t.status),
      see (.unpk3 false) (section0 (sec3.set 10 1) 1 0) (fun t => t.status),
      see (.unpk3 true) { section0 sec3 1 0 with cfg := { defaultConfig with rom := [⟨.grid, 0, ⟨[u4], none, none⟩⟩] } }
        (fun t => t.status),
      see (.unpk3 false) (section0 sec3 1 105) (fun t => t.status)] =
      [some 0x220, some 0x330, some 0x114, some 0x228, some 0x227, some 0x330] ∧ SectionReady (section0 sec3 1 105) 3 14 :=
  ⟨by decide +kernel, ready_unpk3 105⟩
/-- Lists of R227: no entries; 2-octet entries; a room no width fits; a width above 8; a width of 8. -/
theorem witness_OptionalListEntries :
    [(OptListRule.countEntries, 0, 10), (.countEntries, 2, 4), (.countEntries, 3, 9), (.widthOctets, 9, 9), (.widthOctets, 8, 9)].map
        (fun c => match optList c.1 (memOf [0, 2, 0, 3]) c.2.1 0 c.2.2 with
          | .ok l => some l
          | .error _ => none) = [some [], some [2, 3], none, none, some [0x0002000300000000]] := by decide +kernel
/-- The three cases of R193 for template 5.1 with one extension field: too short for the fixed entries, for the extension,
and just long enough. -/
theorem witness_TemplateReaderValues :
    tpl5_0.extension = none ∧ (Descriptor.mk [u1] (some (.uninterpreted 0)) none).extension = some (.uninterpreted 0) ∧
    (romLookup defaultRom .dataRep 1 = some tpl5_1 ∧ (∀ i ∈ [10, 12], i < tpl5_1.entries.length) ∧
      0 ≤ ([10, 12].map fun i => (readEntries (memOf (List.replicate 20 0 ++ [1])) 0 tpl5_1.entries).getD i 0).sum) ∧
    [24, 28, 29].map (fun e => match readKnown (memOf (List.replicate 20 0 ++ [1])) tpl5_1 0 e with
      | .ok (vals, a) => some (vals.length, a)
      | .error _ => none) = [none, none, some (16, 29)] := ⟨rfl, rfl, by decide, by decide +kernel⟩
theorem witness_SignMagnitudeValue : 2 ≤ 2 ∧ 3 < 2 ^ 2 ∧ 2 ≤ 64 ∧ 2 ^ 64 - 1 < 2 ^ 64 := by decide
/-- The branches of `Unpk4ReturnsProduct`: unknown template, template cut short, coordinates that do not fit, no room, success
with the last cell of A. -/
theorem witness_Unpk4ReturnsProduct :
    [section0 (sec4.set 8 99) 3 0, section0 ((sec4.set 3 33).take 33) 3 0, section0 (sec4.set 6 1) 3 0, section0 sec4 3 112,
        section0 sec4 3 111].map (fun s => see .unpk4 s (fun t => t.status)) =
      [some 0x220, some 0x114, some 0x114, some 0x330, some 0] ∧ SectionReady (section0 sec4 3 111) 4 9 :=
  ⟨by decide +kernel, ready_unpk4 111⟩
/-- The branches of `Unpk5LatchesTemplate`. -/
theorem witness_Unpk5LatchesTemplate :
    [section0 (sec5.set 10 77) 4 0, section0 ((sec5.set 3 20).take 20) 4 0,
        { section0 sec5 4 0 with cfg := { defaultConfig with drtMax := 4 } }, section0 sec5 4 122, section0 sec5 4 121].map
        (fun s => see .unpk5 s (fun t => t.status)) =
      [some 0x220, some 0x114, some 0x331, some 0x330, some 0] ∧ SectionReady (section0 sec5 4 121) 5 11 :=
  ⟨by decide +kernel, ready_unpk5 121⟩
/-- The branches of `Unpk6ReturnsBitmap`: indicator 0 (no context, too short, no room, success), 254 (no bitmap, no room,
success), 255 (no room, success), and a predefined bitmap. -/
theorem witness_Unpk6ReturnsBitmap :
    [section0 [0, 0, 0, 7, 6, 0, 0xB0] 5 0, beforeSix [0, 0, 0, 6, 6, 0] 0, beforeSix [0, 0, 0, 7, 6, 0, 0xB0] 124,
        beforeSix [0, 0, 0, 7, 6, 0, 0xB0] 123, beforeSix (sec6.set 5 254) 0,
        { beforeSix (sec6.set 5 254) 128 with ctx := { (beforeSix (sec6.set 5 254) 0).ctx with haveBmap := true } },
        { beforeSix (sec6.set 5 254) 127 with ctx := { (beforeSix (sec6.set 5 254) 0).ctx with haveBmap := true } },
        beforeSix sec6 128, beforeSix sec6 127, beforeSix (sec6.set 5 253) 0].map (fun s => see .unpk6 s (fun t => t.status)) =
      [some 0x11A, some 0x114, some 0x330, some 0, some 0x118, some 0x330, some 0, some 0x330, some 0, some 0x221] ∧
      SectionReady (section0 sec6 5 127) 6 6 := ⟨by decide +kernel, ready_unpk6 127⟩
/-- The refusals of CHKEND in R232's order. -/
theorem witness_ChkendClosesMessage :
    [section0 [0x37, 0x37, 0x37, 0x37] 6 0, withBuf (section0 [0x37, 0x37, 0x37, 0x37] 7 0) 3, section0 [0x37, 0x37, 0x37, 0x36] 7 0,
        section0 [0x37, 0x37, 0x37, 0x37] 7 0, shortMessage (section0 [0x37, 0x37, 0x37, 0x37] 7 0) 4].map
        (fun s => see .chkend s (fun t => t.status)) = [some 0x113, some 0x40770, some 0x116, some 0x117, some 0] := by
  decide +kernel
/-- The refusals of SKIPSEC in R233's order, and success; the last has no byte of the section's body in M. -/
theorem witness_SkipsecPassesSection :
    [section0 sec4 8 0, section0 sec4 0xFF 0, shortMessage (section0 sec4 3 0) 8, withBuf (section0 sec4 3 0) 4,
        section0 (sec4.set 4 0) 3 0, section0 (sec4.set 4 8) 3 0, section0 sec4 4 0, section0 (sec4.set 3 8) 3 0,
        shortMessage (section0 sec4 3 0) 37, withBuf (section0 sec4 3 0) 5].map (fun s => see .skipsec s (fun t => t.status)) =
      [some 0x113, some 0x113, some 0x115, some 0x40770, some 0x112, some 0x112, some 0x113, some 0x114, some 0x115, some 0] := by
  decide +kernel
theorem witness_ParametersComeFromDrtv :
    Algorithm.simple ≠ .rle ∧ defaultConfig.rleParams = none ∧
      { defaultConfig with rleParams := some (.entries 0 1 2 3) }.rleParams = some (.entries 0 1 2 3) := by decide
/-- The refusals of UNPK7 in R292's order. -/
theorem witness_Unpk7Refusals :
    [section0 sec7 6 0, beforeSeven sec7 4 2 [0, 0, 0, 4] 0, beforeSeven sec7 4 40 [0, 0, 0, 4] 0, beforeSeven sec7 4 0 [0, 0, 0] 0,
        beforeSeven sec7 4 0 [0, 0, 0, 4] 125, beforeSeven sec7 4 0 [0, 0, 0, 33] 0, beforeSeven sec7 5 0 [0, 0, 0, 4] 0].map
        (fun s => see .unpk7 s (fun t => t.status)) =
      [some 0x11A, some 0x223, some 0x222, some 0x223, some 0x330, some 0x224, some 0x119] ∧
      SectionReady (beforeSeven sec7 5 0 [0, 0, 0, 4] 0) 7 5 := ⟨by decide +kernel, ready_seven ..⟩

/-- R291, column enable parameter: with every codec but its own, an algorithm is disabled. -/
theorem test_enable_parameters :
    [(40, false, true, true, true), (40000, false, true, true, true), (41, true, false, true, true), (40010, true, false, true, true),
      (42, true, true, false, true), (200, true, true, true, false)].map (fun (drt, jpeg, png, aec, rle) =>
        see .unpk7 { beforeSeven sec7 4 drt [0, 0, 0, 4] 0 with
          cfg := { defaultConfig with hasJpeg2000 := jpeg, hasPng := png, hasAec := aec, hasRle := rle } } (fun t => t.status)) =
      List.replicate 6 (some 0x222) := by decide +kernel

/-- A constant field of a PNG template, in a block that has the codec, with the last cells of A. -/
def pngReady : State :=
  { beforeSeven sec7 4 41 [0x41200000, 0, 1, 0] 124 with cfg := { defaultConfig with hasPng := true } }

theorem witness_ConstantFieldCopiesReference :
    Sparse.wf pngReady.arr = true ∧ SectionReady pngReady 7 5 ∧ pngReady.ctx.drtValid = true ∧
      dispatchLookup pngReady.cfg.dispatch pngReady.ctx.drtNum.toNat = some .png ∧ hasAlgorithm pngReady.cfg .png = true ∧
      linearParams pngReady .png = some ⟨0x41200000, 0, 1, 0⟩ ∧ pngReady.dst + pngReady.ctx.ndpts.toNat = pngReady.cfg.aCells ∧
      LinearParams.nb ⟨0x41200000, 0, 1, 0⟩ = 0 :=
  ⟨by decide, ⟨by decide, by decide, by decide, by decide, by decide, by decide, by decide⟩, by decide, by decide, by decide,
    by decide, by decide, rfl⟩
/-- Simple packing with the last cells of A and a payload that has just enough bits. -/
def simpleReady : State := beforeSeven sec7 4 0 [0x41200000, 1, 1, 4, 0] 124

theorem witness_SimplePackingReconstructs :
    Sparse.wf simpleReady.arr = true ∧ SectionReady simpleReady 7 5 ∧ simpleReady.ctx.drtValid = true ∧
      dispatchLookup simpleReady.cfg.dispatch simpleReady.ctx.drtNum.toNat = some .simple ∧
      linearParams simpleReady .simple = some ⟨0x41200000, 1, 1, 4⟩ ∧
      simpleReady.dst + simpleReady.ctx.ndpts.toNat = simpleReady.cfg.aCells ∧ 1 ≤ 4 ∧ 4 ≤ 32 ∧
      simpleReady.ctx.ndpts.toNat * 4 = 8 * ((sectionAt simpleReady).len - 5) :=
  ⟨by decide, ready_seven .., by decide, by decide, by decide, by decide, by decide, by decide, by decide⟩
theorem witness_ExternalFieldSendsRequest :
    SectionReady jpegReady 7 5 ∧ jpegReady.ctx.drtValid = true ∧
      dispatchLookup jpegReady.cfg.dispatch jpegReady.ctx.drtNum.toNat = some .jpeg2000 ∧ Algorithm.jpeg2000 ≠ .simple ∧
      hasAlgorithm jpegReady.cfg .jpeg2000 = true ∧ linearParams jpegReady .jpeg2000 = some ⟨0x41200000, 0, 1, 8⟩ ∧
      jpegReady.dst + jpegReady.ctx.ndpts.toNat ≤ jpegReady.cfg.aCells ∧ 1 ≤ 8 ∧ 8 ≤ 32 :=
  ⟨⟨by decide, by decide, by decide, by decide, by decide, by decide, by decide⟩, by decide, by decide, by decide, by decide,
    by decide, by decide, by decide, by decide⟩
/-- An answer too short, one with a sample too wide by one, and one at the widest samples. -/
theorem witness_CodecAnswerIsChecked :
    [[0, 5, 100], [0, 5, 100, 256], [255, 255, 255, 255]].map (fun xs => match engineFinish jpegPending (.samples xs) jpegReady with
      | .next t => some t.status
      | _ => none) = [some 0x226, some 0x225, some 0] := by decide +kernel
/-- A second step that ends with an error and leaves CURSOR, and one that ends OK and writes it. -/
theorem witness_SecondStepUsesCopies :
    [CodecAnswer.fail, .samples [0, 5, 100, 255]].map (fun ans =>
      match engineFinish jpegPending ans { jpegReady with op := { jpegReady.op with cursor := 77 } } with
        | .next t => some (t.status, t.op.cursor)
        | _ => none) = [some (0x225, 77), some (0, 9)] := by decide
theorem witness_SimplePackingIdentity :
    2 ^ 32 - 1 < 2 ^ 32 ∧ 2 ^ 24 - 1 < 2 ^ 24 ∧ 0x3F800000 ∈ reconCells .step32 ⟨0, 0, 0, 8⟩ [1] := by decide
/-- A NaN, an infinity, finite numbers and both zeros, and the scales at the edges of their ranges. -/
theorem witness_ReconRoundsEachStep :
    f32Value 0xFF800001 = .nan ∧ f32Value 0x3F800000 ≠ .nan ∧ f32Value 0xFF800000 = .inf true ∧
      (∃ v, f32Rat 0x3F800000 = some v) ∧ (∃ v, f32Rat 0x80000000 = some v) ∧ ((-150 : Int) < -149 ∧ (127 : Int) < 128) ∧
      ((-149 : Int) ≤ -149 ∧ (127 : Int) ≤ 127) ∧ 2 ^ 32 - 1 < 2 ^ 32 :=
  ⟨by decide, by decide, by decide, ⟨_, rfl⟩, ⟨_, rfl⟩, by decide, by decide, by decide⟩
/-- R310: a step that makes a NaN of no NaN: infinity times 0, and infinities of opposite sign added. -/
theorem test_default_nan : f32Mul 0x7F800000 0x80000000 = 0x7FC00000 ∧ f32Add 0x7F800000 0xFF800000 = 0x7FC00000 := by
  decide
/-- An error of a command's first step, of the decoder, and of the second step of UNPK7. -/
theorem witness_ErrorsChangeNothingElse :
    see .unpk1 (section0 sec1 1 0) (fun t => (t.phase, t.code)) = some (.idle, .error .badOrder) ∧
      [Phase.issued 0x05000000, .answered jpegPending .fail].map (fun ph => match blockMove { jpegReady with phase := ph } with
        | .next t => some (t.phase, t.code)
        | _ => none) = [some (.idle, .error .illegalCmd), some (.idle, .error .codecFailed)] := by decide
theorem witness_FaultChangesNothingElse :
    (ops five 33 0 0 0 0 0).cfg.wf = true ∧
      see (.gbit 8) (ops five 33 0 0 0 0 0) (fun t => (t.phase, t.code)) = some (.idle, .faultOob) ∧
      (match blockMove { ops five 33 0 0 0 0 0 with phase := .issued 0x01100000 } with
        | .next t => some (t.phase, t.code)
        | _ => none) = some (.idle, .faultOob) := by decide

/-- A state with the fault set, as after V-L2-40-4. -/
def faulty : State := { five with code := .faultOob, fault := true, faultInfo := 5 }

/-- A register, the last byte and the last cell that the host reaches while faulted, and the step that clears the fault. -/
theorem witness_FaultIsSticky :
    faulty.fault = true ∧ faulty.RegistersOpen ∧ regAt faulty.cfg 0x018 = some .faultInfo ∧ faulty.phase = .idle ∧ 4 < faulty.cfg.bufBytes ∧
      7 < faulty.cfg.aCells ∧
      (match step { faulty with turns := [.host (.regWrite 0x010 64 1)] } with
        | .next t => some t.fault
        | _ => none) = some false :=
  ⟨by decide, .inl rfl, by decide, by decide, by decide, by decide, by decide⟩
/-- A state in each PHASE with no turn, where the block moves next. -/
theorem witness_StepRunsDecodedCommand_block :
    ([Phase.idle, .issued 0x010A0000, .issued 0x05000000, .issued 0x01820000, .waiting jpegPending, .answered jpegPending .fail].map
        fun ph => ({ jpegReady with phase := ph } : State).turns) = List.replicate 6 [] ∧
      [0x010A0000, 0x05000000, 0x01820000].map (decode jpegReady.cfg.maxW.bits) =
        [.ok (.gbit 5), .error .illegalCmd, .error .illegalWidth] := by decide
/-- A step drops neither a turn of the host nor an answer of the codec agent, nor does it leave ANSWERED for ever. -/
theorem test_step_moves :
    [({ five with turns := [.host (.regWrite 0x020 64 7)] } : State), { jpegReady with phase := .waiting jpegPending, turns := [.codec 0 .fail] },
        { jpegReady with phase := .answered jpegPending .fail }].map (fun s => match step s with
      | .next t => some (t.op.bitoff, t.phase, t.status)
      | _ => none) =
      [some (7, .idle, 0), some (0, .answered jpegPending .fail, 0x10000), some (0, .idle, 0x225)] := by decide
/-- A command issued and about to run, with no turn and with the block's turn; and the word of R118's first example. -/
theorem witness_StepRunsDecodedCommand :
    { five with phase := .issued 0x010A0000 }.turns = [] ∧ { five with turns := [.block] }.turns = .block :: [] ∧
      decode five.cfg.maxW.bits 0x010A0000 = .ok (.gbit 5) ∧
      decode five.cfg.maxW.bits (BitVec.ofNat 64 (0x010A0000 % 2 ^ 32)) = .ok (.gbit 5) := by decide
theorem witness_CmdWriteIssuesCommand :
    (five.phase = .idle ∧ five.fault = false) ∧ faulty.fault = true ∧
      ({ five with phase := .issued 0 }.phase ≠ .idle ∧ { five with phase := .issued 0 }.fault = false) := by decide
/-- A busy block that follows R84 and R93 where they differ from R341 (log entry 7), and one that follows R341. -/
def busyExcluded : State := { five with phase := .issued 0, cfg := { five.cfg with busyRegisters := .excluded } }
def busyAllowed : State := { five with phase := .issued 0 }

theorem witness_RegisterWritesChangeOperandsOnly :
    five.RegistersOpen ∧ busyAllowed.RegistersOpen ∧ ¬busyExcluded.RegistersOpen ∧
      0x128 ∈ 0x018 :: (List.range 27).map (fun k => 0x058 + 8 * k) ∧ 63 < five.cfg.drtMax :=
  ⟨.inl rfl, .inr rfl, (by rintro (h | h) <;> cases h), by decide, by decide⟩
/-- The edges of the register map: the last register, the first unmapped offset, the first and last DRTV entry, the end; a busy
block of each kind; and the first byte of M and cell of A that do not exist. -/
theorem witness_AccessesWithoutMove :
    [0x128, 0x130, 0x1F8, 0x200, 0x3F8, 0x400, 0x004].map (regAt five.cfg) =
        [some .drtmax, none, none, some (.drtv 0), some (.drtv 63), none, none] ∧
      (busyExcluded.phase ≠ .idle ∧ busyExcluded.cfg.busyRegisters = .excluded ∧ 0x018 ∉ [0x000, 0x008, 0x010]) ∧
      five.phase = .idle ∧ five.cfg.bufBytes ≤ 5 ∧ five.cfg.aCells ≤ 8 ∧ 32 ≠ 64 := by decide
/-- The two readings of log entry 7: a read of BITOFF while BUSY = 1; STATUS is read under both (R93, R341). -/
theorem test_busy_register_read :
    [(busyAllowed, 0x020), (busyExcluded, 0x020), (busyAllowed, 0x008), (busyExcluded, 0x008)].map
        (fun c => match hostMove (.regRead c.2 64) c.1 with
          | .next t => t.reply
          | _ => none) =
      [some (.reg 0), none, some (.reg 0x10000), some (.reg 0x10000)] := by decide
theorem witness_HostReadsAndStorageWrites :
    five.RegistersOpen ∧ 63 < five.cfg.drtMax ∧ five.phase = .idle ∧ Memory.wf five.mem = true ∧ 4 < five.cfg.bufBytes ∧
      Sparse.wf five.arr = true ∧ 7 < five.cfg.aCells ∧
      [HostMove.regRead 0x008 64, .mRead 4, .aRead 7].map (fun m => match hostMove m five with
        | .next t => t.reply
        | _ => none) = [some (.reg 0), some (.byte 0x81), some (.cell 0)] :=
  ⟨.inl rfl, by decide, by decide, by decide, by decide, by decide, by decide, by decide⟩
/-- A sound state with a request that waits. -/
def jpegWaiting : State :=
  { jpegReady with phase := .waiting jpegPending, reqSerial := 1, ctx := { jpegReady.ctx with msgLen := 30 } }

/-- Values of CTRL for both clauses, a sound state with a request waiting, and one in which request 0 is withdrawn. -/
theorem witness_SoftResetKeepsMemories :
    (1 : Word).getLsbD 0 = true ∧ (2 : Word).getLsbD 0 = false ∧ jpegWaiting.Inv ∧ jpegWaiting.phase = .waiting jpegPending ∧
      0 < jpegWaiting.reqSerial ∧ { jpegWaiting with phase := .idle }.Withdrawn 0 ∧
      (match step { jpegWaiting with phase := .idle } with
        | .next t => some t.reqSerial
        | _ => none) = some 1 :=
  ⟨by decide, by decide,
    ⟨by decide, by decide, by decide, by decide, by decide, by decide, by decide, by decide, by decide, by decide, by decide,
      by decide, by decide, by decide, ⟨by decide, by decide, by decide, by decide, by decide⟩⟩,
    rfl, by decide, ⟨by decide, by simp⟩, by decide⟩
theorem witness_PowerOnResetValues : Reg.drtv 63 ∉ [Reg.lastSec, .params, .bufsize, .acells, .drtmax] := by decide
theorem witness_ParametersNeverChange :
    (match step { five with phase := .issued 0 } with
      | .next t => some t.status
      | _ => none) = some 0 := by decide
/-- A request that waits, the block's move while it does, and an answer to another request. -/
theorem witness_CodecAgentTouchesNothing :
    { jpegReady with phase := .waiting jpegPending }.phase = .waiting jpegPending ∧
      blockMove { jpegReady with phase := .waiting jpegPending } =
        .next (codecDraw jpegPending { jpegReady with phase := .waiting jpegPending }) ∧
      codecMove 1 .fail { jpegReady with phase := .waiting jpegPending } = { jpegReady with phase := .waiting jpegPending } :=
  ⟨rfl, rfl, rfl⟩
/-- SBIT, by exec and by a step, and the host's own write of a byte. -/
theorem witness_OnlyInsertersWriteM :
    see (.sbit 8) (ops five 0 0 0 0 0 0) (fun t => decide (t.mem = five.mem)) = some false ∧
      [{ five with phase := .issued 0x03100000 }, { five with turns := [.host (.mWrite 0 0)] }].map (fun s => match step s with
        | .next t => some (decide (t.mem = five.mem))
        | _ => none) = [some false, some false] := by decide
/-- GBITS in its first step, and the second step of UNPK7. -/
theorem witness_OnlyPackersReadA :
    see (.gbits 8) (ops five 0 1 0 0 0 0) (fun t => cells t 0 1) = some [0xA5] ∧ decode 64 0x02100000 = .ok (.gbits 8) ∧
      (match blockMove { jpegReady with phase := .answered jpegPending (.samples [0, 5, 100, 255]) } with
        | .next t => some (cells t 0 1)
        | _ => none) = some [0x3F800000] := by decide
theorem witness_ResetIsSound :
    defaultConfig.wf = true ∧ Memory.wf (memOf [0xA5]) = true ∧ Sparse.wf (arrOf [1]) = true ∧
      Sparse.below defaultConfig.bufBytes (memOf [0xA5]) = true ∧ Sparse.below defaultConfig.aCells (arrOf [1]) = true := by decide
/-- State.reset satisfies the invariant, and so does its successor under a command. -/
theorem witness_StepKeepsInvariant :
    State.reset.Inv ∧ (match step (State.reset.withFetchWord 32 0x01100000) with
      | .next t => some t.status
      | _ => none) = some 0 :=
  ⟨⟨by decide, by decide, by decide, by decide, by decide, by decide, by decide, by decide, by decide, fun _ => rfl,
      fun h => absurd rfl h, by decide, by decide, by decide, trivial⟩, by decide⟩

end Sys2Proof.Tests
end

section
/-! SUPPORT. The bits of a field: a field read bit by bit, a byte from its bits, the field as the sum of its digits
(spec/00_scope.md R9, R10, R12), and what a field write leaves (R11). -/

namespace Sys2Proof.Machine

/-! ### Bytes and their bits -/

/-- Bit i of a byte is the buffer bit 7 - i places past the byte's first bit (R9 read from the byte). -/
theorem getLsbD_read (m : Memory) (a : Nat) {i : Nat} (hi : i < 8) :
    (Sparse.read m a).getLsbD i = bitM m (8 * a + (7 - i)) := by
  rw [bitM, show (8 * a + (7 - i)) / 8 = a by omega, show 7 - (8 * a + (7 - i)) % 8 = i by omega]

/-- A buffer bit depends on its byte alone. -/
theorem bitM_congr {m m' : Memory} {p : Nat} (h : Sparse.read m (p / 8) = Sparse.read m' (p / 8)) : bitM m p = bitM m' p := by
  rw [bitM, bitM, h]

/-- A byte is fixed by its eight buffer bits. -/
theorem read_congr_bits {m m' : Memory} {a : Nat} (h : ∀ q, q / 8 = a → bitM m q = bitM m' q) :
    Sparse.read m a = Sparse.read m' a := by
  refine BitVec.eq_of_getLsbD_eq fun i hi => ?_
  rw [getLsbD_read m a hi, getLsbD_read m' a hi, h _ (by omega)]

/-! ### A field, bit by bit and in two parts -/

/-- Bit i of a field, counted from the least significant, is the buffer bit i places before the field's last. -/
theorem testBit_getBits (m : Memory) (p w i : Nat) :
    (getBits m p w).testBit i = (decide (i < w) && bitM m (p + (w - 1 - i))) := by
  induction w generalizing i with
  | zero => simp
  | succ w ih =>
    rw [getBits_succ, ← Nat.bit_val]
    cases i with
    | zero => simp
    | succ i =>
      rw [Nat.testBit_bit_succ, ih, show w + 1 - 1 - (i + 1) = w - 1 - i by omega]
      simp

/-- A field of w + k bits is its first w bits followed by its last k. -/
theorem getBits_add (m : Memory) (p w k : Nat) : getBits m p (w + k) = getBits m p w * 2 ^ k + getBits m (p + w) k := by
  induction k with
  | zero => simp
  | succ k ih => rw [← Nat.add_assoc, getBits_succ, getBits_succ, ih, Nat.add_assoc p w k, pow_succ]; ring

/-- A field depends on the bytes that hold its bits alone. -/
theorem getBits_congr_read {m m' : Memory} {p w : Nat}
    (h : ∀ a, p / 8 ≤ a → a ≤ (p + w - 1) / 8 → Sparse.read m a = Sparse.read m' a) : getBits m p w = getBits m' p w :=
  getBits_congr fun _ hp hw => bitM_congr (h _ (Nat.div_le_div_right hp) (Nat.div_le_div_right (by omega)))

/-! ### Fields and byte runs as sums of their digits -/

/-- A big-endian numeral with one more digit at its end. -/
theorem sum_digits_succ (d : Nat → Nat) (b n : Nat) :
    ∑ j ∈ Finset.range (n + 1), d j * b ^ (n + 1 - 1 - j) = b * (∑ j ∈ Finset.range n, d j * b ^ (n - 1 - j)) + d n := by
  rw [Finset.sum_range_succ, Finset.mul_sum]
  congr 1
  · refine Finset.sum_congr rfl fun j hj => ?_
    have hlt : j < n := Finset.mem_range.mp hj
    rw [show n + 1 - 1 - j = n - 1 - j + 1 by omega, pow_succ]; ring
  · simp

/-- R10: a field's value is the sum of its bits, the first the most significant. -/
theorem getBits_eq_sum (m : Memory) (p w : Nat) :
    getBits m p w = ∑ j ∈ Finset.range w, (bitM m (p + j)).toNat * 2 ^ (w - 1 - j) := by
  induction w with
  | zero => simp
  | succ w ih => rw [getBits_succ, ih, sum_digits_succ (fun j => (bitM m (p + j)).toNat)]

@[simp] theorem memRead_zero (m : Memory) (a : Nat) : memRead m a 0 = 0 := rfl

/-- One byte of MemRead is the byte itself. -/
@[simp] theorem memRead_one (m : Memory) (a : Nat) : memRead m a 1 = (Sparse.read m a).toNat := by
  refine Nat.eq_of_testBit_eq fun i => ?_
  rw [memRead, testBit_getBits, ← BitVec.getLsbD]
  by_cases hi : i < 8
  · rw [getLsbD_read m a hi]; simp [hi]
  · rw [BitVec.getLsbD_of_ge _ i (by omega)]; simp [hi]

/-- MemRead of one byte more: the bytes before it, moved up by a byte, and the byte. -/
theorem memRead_succ (m : Memory) (a n : Nat) : memRead m a (n + 1) = 256 * memRead m a n + (Sparse.read m (a + n)).toNat := by
  have hlast : getBits m (8 * a + 8 * n) 8 = (Sparse.read m (a + n)).toNat := by rw [← memRead_one, memRead, Nat.mul_add]
  rw [memRead, Nat.mul_succ, getBits_add, hlast, ← memRead, Nat.mul_comm (memRead m a n)]; rfl

/-- R12: n bytes are read as one big-endian integer. -/
theorem memRead_eq_sum (m : Memory) (a n : Nat) :
    memRead m a n = ∑ j ∈ Finset.range n, (Sparse.read m (a + j)).toNat * 256 ^ (n - 1 - j) := by
  induction n with
  | zero => simp
  | succ n ih => rw [memRead_succ, ih, sum_digits_succ (fun j => (Sparse.read m (a + j)).toNat)]

/-! ### After a field write -/

/-- R11: a field write sets the field's bits, the most significant of the value first, and no other bit. -/
theorem bitM_setBits {m : Memory} (h : Memory.wf m = true) (p w v q : Nat) :
    bitM (setBits m p w v) q = if p ≤ q ∧ q < p + w then v.testBit (w - 1 - (q - p)) else bitM m q := by
  induction w generalizing m p with
  | zero => rw [setBits, if_neg (by omega)]
  | succ w ih =>
    rw [setBits, ih (wf_setBitM h p _), bitM_setBitM h]
    rcases Nat.lt_trichotomy q p with hq | rfl | hq
    · rw [if_neg (by omega), if_neg (by omega), if_neg (by omega)]
    · rw [if_neg (by omega), if_pos rfl, if_pos (by omega), Nat.sub_self, Nat.sub_zero, Nat.add_sub_cancel]
    · rw [if_neg (by omega : q ≠ p), show w - 1 - (q - (p + 1)) = w + 1 - 1 - (q - p) by omega]
      exact if_congr (by omega) rfl rfl

/-- A field write leaves every byte alone that holds no bit of the field. -/
theorem read_setBits_outside {m : Memory} (h : Memory.wf m = true) {p w a : Nat} (v : Nat) (ha : ByteOutside p w a) :
    Sparse.read (setBits m p w v) a = Sparse.read m a := by
  refine read_congr_bits fun q hq => ?_
  unfold ByteOutside at ha
  rw [bitM_setBits h, if_neg (by omega)]

/-- The field just written reads back as the value's low w bits. -/
theorem getBits_setBits_same {m : Memory} (h : Memory.wf m = true) (p w v : Nat) :
    getBits (setBits m p w v) p w = v % 2 ^ w := by
  refine Nat.eq_of_testBit_eq fun i => ?_
  rw [testBit_getBits, Nat.testBit_mod_two_pow, bitM_setBits h]
  by_cases hi : i < w
  · rw [if_pos (by omega), show w - 1 - (p + (w - 1 - i) - p) = i by omega]
  · simp [hi]

end Sys2Proof.Machine
end

section
/-! SUPPORT. Sign-magnitude fields (spec/00_scope.md R13): the value with the top bit clear and with it set, its range, and its
cell (R14, spec/10_state.md R42). -/

namespace Sys2Proof.Machine

/-- With the top bit clear the value is the field. -/
theorem signMagnitude_of_lt {n v : Nat} (hv : v < 2 ^ (n - 1)) : signMagnitude n v = v := by
  rw [signMagnitude, Nat.testBit_lt_two_pow hv, Nat.mod_eq_of_lt hv]; rfl

/-- With the top bit set the value is the other bits, negated. -/
theorem signMagnitude_two_pow_add {n u : Nat} (hu : u < 2 ^ (n - 1)) : signMagnitude n (2 ^ (n - 1) + u) = -(u : Int) := by
  rw [signMagnitude, Nat.testBit_two_pow_add_eq, Nat.testBit_lt_two_pow hu, Nat.add_mod_left, Nat.mod_eq_of_lt hu]; rfl

/-- A sign-magnitude value is below 2^(N-1) in magnitude, for every v. -/
theorem abs_signMagnitude_lt (n v : Nat) : |signMagnitude n v| < 2 ^ (n - 1) := by
  have hmod : v % 2 ^ (n - 1) < 2 ^ (n - 1) := Nat.mod_lt _ (by positivity)
  unfold signMagnitude
  split <;> simpa only [abs_neg, Nat.abs_cast] using mod_cast hmod

/-- The cell of an integer of 64 bits is its two's complement. -/
theorem toInt_cell {i : Int} (hlo : -2 ^ 63 ≤ i) (hhi : i < 2 ^ 63) : (cell i).toInt = i := by
  rw [cell, BitVec.toInt_ofInt]
  exact Int.bmod_eq_of_le (by omega) (by omega)

end Sys2Proof.Machine
end

section
/-! PROOFS. The statements of spec/00_scope.md: fields of M and sign-magnitude decoding. -/

namespace Sys2Proof.Machine

/-- Settles O6: the bit sum and the byte sum by induction on the number of digits; locality bit by bit. -/
theorem getBitsIsBitSum : Obligations.GetBitsIsBitSum :=
  ⟨fun m p w => ⟨getBits_eq_sum m p w, getBits_zero m p, getBits_lt m p w, fun _ h => getBits_congr_read h⟩,
    fun m _ a n _ => ⟨rfl, memRead_eq_sum m a n, memRead_one m a, rfl, rfl⟩⟩

/-- Settles O8: every bit after the write by induction on the width; bytes and the field read back from their bits. -/
theorem setBitsWritesOnlyItsBits : Obligations.SetBitsWritesOnlyItsBits :=
  fun _ p w v h => ⟨bitM_setBits h p w v, fun _ => read_setBits_outside h v, getBits_setBits_same h p w v, wf_setBits h p w v⟩

/-- Settles O28: the field's top bit decides between its two halves, and the magnitude bound gives the range and the cell. -/
theorem signMagnitudeValue : Obligations.SignMagnitudeValue := by
  intro n v hn hv
  obtain ⟨hlo, hhi⟩ : -2 ^ (n - 1) < signMagnitude n v ∧ signMagnitude n v < 2 ^ (n - 1) := abs_lt.mp (abs_signMagnitude_lt n v)
  refine ⟨?_, by omega, by omega, fun h64 => ?_⟩
  · split
    case isTrue hlt => exact signMagnitude_of_lt hlt
    case isFalse hge =>
      obtain ⟨u, rfl⟩ := Nat.exists_eq_add_of_le (not_lt.mp hge)
      have hhalves : 2 ^ n = 2 ^ (n - 1) + 2 ^ (n - 1) := by rw [← Nat.two_mul, ← pow_succ', Nat.sub_add_cancel (by omega)]
      rw [signMagnitude_two_pow_add (by omega)]
      push_cast; ring
  · have hwide : (2 : Int) ^ (n - 1) ≤ 2 ^ 63 := pow_le_pow_right₀ (by decide) (by omega)
    exact toInt_cell (by omega) (by omega)

end Sys2Proof.Machine
end

section
/-! SUPPORT. What an access of the host can do, field by field: operand registers and the model's own fields, a command
issued, a soft reset, a byte of M, a cell of A; and the block's own move in each PHASE. -/

namespace Sys2Proof.Machine

variable {s t : State}

/-- A write to CMD that has a move is ignored, or issues the command on an idle block that is not faulted (R34). -/
theorem writeCmd_next {v : Word} (h : writeCmd s v = .next t) :
    t = s ∨ s.fault = false ∧ s.phase = .idle ∧ t = { s with phase := .issued v } := by
  unfold writeCmd at h
  split at h
  case isTrue => cases h; exact .inl rfl
  case isFalse hf =>
    split at h
    case isTrue => cases h
    case isFalse hb =>
      cases h
      exact .inr ⟨by simpa using hf, by simpa using hb, rfl⟩

/-- What the host port can do in one access (R341). -/
theorem hostMove_effect {m : HostMove} (h : hostMove m s = .next t) :
    (∃ op reply turns, t = { s with op := op, reply := reply, turns := turns }) ∨
      (∃ v, s.fault = false ∧ s.phase = .idle ∧ t = { s with phase := .issued v }) ∨ t = s.softReset ∨
      (∃ a b, s.phase = .idle ∧ a < s.cfg.bufBytes ∧ t = { s with mem := Sparse.write s.mem a b }) ∨
      ∃ i v, s.phase = .idle ∧ i < s.cfg.aCells ∧ t = { s with arr := Sparse.write s.arr i v } := by
  cases m with
  | regRead off w => obtain ⟨-, r, -, -, h⟩ := withReg_next.1 h; cases h; exact .inl ⟨_, _, _, rfl⟩
  | regWrite off w v =>
    obtain ⟨-, r, -, -, h⟩ := withReg_next.1 h
    unfold writeReg at h
    split at h
    next =>
      obtain rfl | hissue := writeCmd_next h
      · exact .inl ⟨_, _, _, rfl⟩
      · exact .inr (.inl ⟨v, hissue⟩)
    next =>
      cases h
      unfold writeCtrl
      split
      · exact .inr (.inr (.inl rfl))
      · exact .inl ⟨_, _, _, rfl⟩
    next => cases h; exact .inl ⟨_, _, _, rfl⟩
  | mRead a => obtain ⟨-, -, rfl⟩ := withByte_next.1 h; exact .inl ⟨_, _, _, rfl⟩
  | mWrite a b => obtain ⟨hp, ha, rfl⟩ := withByte_next.1 h; exact .inr (.inr (.inr (.inl ⟨a, b, hp, ha, rfl⟩)))
  | aRead i => obtain ⟨-, -, rfl⟩ := withCell_next.1 h; exact .inl ⟨_, _, _, rfl⟩
  | aWrite i v => obtain ⟨hp, hi, rfl⟩ := withCell_next.1 h; exact .inr (.inr (.inr (.inr ⟨i, v, hp, hi, rfl⟩)))
  | poll =>
    cases h
    unfold pollStatus
    split <;> exact .inl ⟨_, _, _, rfl⟩

/-! ### The move that PHASE enables (R341) -/

theorem phase_cases (s : State) :
    s.phase = .idle ∨ (∃ v, s.phase = .issued v) ∨ (∃ p, s.phase = .waiting p) ∨ ∃ p ans, s.phase = .answered p ans := by
  cases s.phase <;> simp

theorem blockMove_idle (hp : s.phase = .idle) : blockMove s = .next s := by simp only [blockMove, hp]

theorem blockMove_issued {v : Word} (hp : s.phase = .issued v) : blockMove s = engineStart v s := by
  simp only [blockMove, hp]

theorem engineStart_decoded {v : Word} {i : Instr} (hd : decode s.cfg.maxW.bits v = .ok i) : engineStart v s = exec i s := by
  simp only [engineStart, hd]

theorem engineStart_undecoded {v : Word} {e : DecodeError} (hd : decode s.cfg.maxW.bits v = .error e) :
    engineStart v s = .next (s.raise (decodeRaise e)) := by
  simp only [engineStart, hd]

theorem blockMove_waiting {p : Pending} (hp : s.phase = .waiting p) : blockMove s = .next (codecDraw p s) := by
  simp only [blockMove, hp]

theorem blockMove_answered {p : Pending} {ans : CodecAnswer} (hp : s.phase = .answered p ans) :
    blockMove s = engineFinish p ans s := by
  simp only [blockMove, hp]

end Sys2Proof.Machine
end

section
/-! SUPPORT. The message context of a sound state (spec/10_state.md R43-R45), and what each command that handles a section
makes of it. -/

namespace Sys2Proof.Machine

/-- The part of `State.Inv` that is about the message context alone, for a latch of `drtMax` entries. -/
structure ContextRegs.Sound (drtMax : Nat) (c : ContextRegs) : Prop where
  drtLen : c.drtLen.toNat ≤ drtMax
  lastSec : c.lastSec ∈ legalLastSec
  noMessage : c.lastSec = 0xFF → c = ContextRegs.reset
  message : c.lastSec ≠ 0xFF → c.edition = 2 ∧ 20 ≤ c.msgLen.toNat
  geometry : c.geomValid = true → c.ngptsValid = true

variable {c c' : ContextRegs} {drtMax : Nat}

theorem ContextRegs.sound_reset : ContextRegs.reset.Sound drtMax where
  drtLen := Nat.zero_le _
  lastSec := by decide
  noMessage _ := rfl
  message h := absurd rfl h
  geometry h := by cases h

/-- Section numbers are legal values of LAST_SEC, and none is the 0xFF of no open message (R44). -/
theorem zext64_legal {k : Nat} (hk : k ≤ 8) : zext64 k ∈ legalLastSec ∧ zext64 k ≠ 0xFF := by
  interval_cases k <;> decide

/-- A section that may be handled next shows that a message is open (R221). -/
theorem lastSec_ne_of_mem_successors {k : Nat} {w : Word} (h : k ∈ successors w.toNat) : w ≠ 0xFF := by
  rintro rfl
  exact absurd h List.not_mem_nil

/-- Section 7 comes after Section 6 alone (R221). -/
theorem lastSec_eq_six {w : Word} (h : 7 ∈ successors w.toNat) : w = 6 := by
  refine BitVec.eq_of_toNat_eq ?_
  unfold successors at h
  split at h <;> simp_all

/-- Writing registers of an open message's context keeps it sound when the message stays the same. -/
theorem ContextRegs.Sound.update (h : c.Sound drtMax) (hopen : c.lastSec ≠ 0xFF) (hlast : c'.lastSec = c.lastSec)
    (hed : c'.edition = c.edition) (hlen : c'.msgLen = c.msgLen) (hdrt : c'.drtLen.toNat ≤ drtMax)
    (hgeo : c'.geomValid = true → c'.ngptsValid = true) : c'.Sound drtMax where
  drtLen := hdrt
  lastSec := hlast ▸ h.lastSec
  noMessage hc := absurd (hlast ▸ hc) hopen
  message _ := by rw [hed, hlen]; exact h.message hopen
  geometry := hgeo

/-- Closing a section of an open message (R223) keeps the context sound. -/
theorem ContextRegs.Sound.close (h : c.Sound drtMax) (hopen : c.lastSec ≠ 0xFF) {k : Nat} (hk : k ≤ 8) (len : Word) :
    ContextRegs.Sound drtMax { c with lastSec := zext64 k, seclen := len } where
  drtLen := h.drtLen
  lastSec := (zext64_legal hk).1
  noMessage hc := absurd hc (zext64_legal hk).2
  message _ := h.message hopen
  geometry := h.geometry

/-- UNPK0 opens an edition-2 message of at least 20 octets (R222). -/
theorem openContext_sound {a disc len : Nat} (hlen : 20 ≤ len) (hlt : len < 2 ^ 64) :
    (openContext a disc 2 len).Sound drtMax where
  drtLen := Nat.zero_le _
  lastSec := show (0 : Word) ∈ legalLastSec by decide
  noMessage hc := absurd (show (0 : Word) = 0xFF from hc) (by decide)
  message _ := ⟨rfl, by rwa [show (openContext a disc 2 len).msgLen = zext64 len from rfl, zext64, BitVec.toNat_ofNat,
    Nat.mod_eq_of_lt hlt]⟩
  geometry hg := by cases hg

theorem gridContext_sound (h : c.Sound drtMax) (hopen : c.lastSec ≠ 0xFF) (np t : Nat) (geo : Option (Int × Int × Int)) :
    (gridContext c np t geo).Sound drtMax :=
  h.update hopen rfl rfl rfl h.drtLen fun _ => rfl

theorem productContext_sound (h : c.Sound drtMax) (hopen : c.lastSec ≠ 0xFF) (t nv : Nat) :
    (productContext c t nv).Sound drtMax :=
  h.update hopen rfl rfl rfl h.drtLen h.geometry

theorem dataRepContext_sound (h : c.Sound drtMax) (hopen : c.lastSec ≠ 0xFF) (nd t : Nat) {len : Nat}
    (hlen : len ≤ drtMax) : (dataRepContext c nd t len).Sound drtMax :=
  h.update hopen rfl rfl rfl ((BitVec.toNat_ofNat len 64).trans_le ((Nat.mod_le _ _).trans hlen)) h.geometry

theorem bitmapContext_sound (h : c.Sound drtMax) (hopen : c.lastSec ≠ 0xFF) (ind : Nat) (bmap : Bool) :
    (bitmapContext c ind bmap).Sound drtMax :=
  h.update hopen rfl rfl rfl h.drtLen h.geometry

theorem skipContext_sound (h : c.Sound drtMax) (hopen : c.lastSec ≠ 0xFF) (k : Nat) :
    (skipContext c k).Sound drtMax ∧ (skipContext c k).lastSec = c.lastSec := by
  unfold skipContext
  split
  · exact ⟨h.update hopen rfl rfl rfl h.drtLen nofun, rfl⟩
  · split
    · exact ⟨h.update hopen rfl rfl rfl h.drtLen h.geometry, rfl⟩
    · exact ⟨h, rfl⟩

end Sys2Proof.Machine
end

section
/-! SUPPORT. Each operation over the state keeps the invariant of the block, under the condition that its caller has
checked. -/

namespace Sys2Proof.Machine

variable {s t : State} {p : Pending}

/-- Soundness of PHASE rests on the parameters, the count of requests and LAST_SEC. -/
theorem PhaseSound.congr (h : PhaseSound s) (hphase : t.phase = s.phase) (hcfg : t.cfg = s.cfg)
    (hserial : t.reqSerial = s.reqSerial) (hlast : t.ctx.lastSec = s.ctx.lastSec) : PhaseSound t := by
  have sound : ∀ {q : Pending}, q.Sound s → q.Sound t := fun ⟨h1, h2, h3, h4, h5⟩ =>
    ⟨hserial ▸ h1, hcfg ▸ h2, h3, hcfg ▸ h4, hlast.trans h5⟩
  unfold PhaseSound at h ⊢
  rw [hphase]
  cases hs : s.phase <;> simp only [hs] at h ⊢ <;> exact sound h

theorem PhaseSound.of_waiting (h : PhaseSound s) (hp : s.phase = .waiting p) : p.Sound s := by rwa [PhaseSound, hp] at h

theorem PhaseSound.of_answered {ans : CodecAnswer} (h : PhaseSound s) (hp : s.phase = .answered p ans) : p.Sound s := by
  rwa [PhaseSound, hp] at h

theorem PhaseSound.of_idle (h : s.phase = .idle) : PhaseSound s := by simp [PhaseSound, h]

/-- The invariant reads no operand or result register, not FAULT_INFO, and of the model's own fields the count of requests
alone. -/
theorem State.Inv.frame (h : s.Inv) {op : OperandRegs} {res : ResultRegs} {info : Word} {turns : List Turn}
    {reply : Option HostReply} {draws : Nat} :
    State.Inv { s with op := op, res := res, faultInfo := info, turns := turns, reply := reply, draws := draws } :=
  { h with phase := h.phase.congr rfl rfl rfl rfl }

/-- No command runs on a faulted block (R356). -/
theorem State.Inv.not_faulted (h : s.Inv) (hbusy : s.phase ≠ .idle) : s.fault = false :=
  Bool.eq_false_iff.mpr fun hf => hbusy (h.faultIdle hf)

theorem State.Inv.ctxSound (h : s.Inv) : s.ctx.Sound s.cfg.drtMax :=
  ⟨h.drtLen, h.lastSec, h.noMessage, h.message, h.geometry⟩

theorem State.Inv.setMem (h : s.Inv) {m : Memory} (hwf : Memory.wf m = true)
    (hrange : Sparse.below s.cfg.bufBytes m = true) : (s.setMem m).Inv :=
  { h with mem := hwf, memRange := hrange, phase := h.phase.congr rfl rfl rfl rfl }

theorem State.Inv.setArr (h : s.Inv) {arr : Sparse 64} (hwf : Sparse.wf arr = true)
    (hrange : Sparse.below s.cfg.aCells arr = true) : State.Inv { s with arr := arr } :=
  { h with arr := hwf, arrRange := hrange, phase := h.phase.congr rfl rfl rfl rfl }

theorem State.Inv.latchDrt (h : s.Inv) {vals : List Word} (hlen : vals.length ≤ s.cfg.drtMax) : (s.latchDrt vals).Inv :=
  { h with
    drtv := Sparse.wf_writeRun h.drtv
    drtvRange := Sparse.below_writeRun h.drtvRange ((Nat.zero_add _).trans_le hlen)
    phase := h.phase.congr rfl rfl rfl rfl }

/-- A command that ends in success on a block that is not faulted, with an output that fits in A (R41, R350). -/
theorem State.Inv.commit (h : s.Inv) (hf : s.fault = false) {code : StatusCode} {d tpl lst : Nat} {out : List Word}
    (hcode : code ≠ .faultOob) (hout : d + out.length ≤ s.cfg.aCells) : (s.commit code d out tpl lst).Inv :=
  { h with
    arr := Sparse.wf_writeRun h.arr
    arrRange := Sparse.below_writeRun h.arrRange hout
    faultCode := by simp [hf, hcode]
    faultIdle := fun _ => rfl
    phase := .of_idle rfl }

/-- A command that returns no array. -/
theorem State.Inv.commit_nil (h : s.Inv) (hf : s.fault = false) : (s.commit .ok 0 [] 0 0).Inv :=
  h.commit hf nofun (Nat.zero_le _)

theorem State.Inv.raise (h : s.Inv) (hf : s.fault = false) (r : Raise) : (s.raise r).Inv := by
  cases r with
  | error e => exact { h with faultCode := by simp [hf], faultIdle := fun _ => rfl, phase := .of_idle rfl }
  | oob a => exact { h with faultCode := by simp, faultIdle := fun _ => rfl, phase := .of_idle rfl }

theorem State.Inv.setCtx (h : s.Inv) (hidle : s.phase = .idle) {c : ContextRegs} (hc : c.Sound s.cfg.drtMax) :
    (s.setCtx c).Inv :=
  { h with
    drtLen := hc.drtLen
    lastSec := hc.lastSec
    noMessage := hc.noMessage
    message := hc.message
    geometry := hc.geometry
    phase := .of_idle hidle }

theorem State.Inv.closeSection (h : s.Inv) (hidle : s.phase = .idle) (hopen : s.ctx.lastSec ≠ 0xFF) {k : Nat}
    (hk : k ≤ 8) (sec : Section) : (s.closeSection k sec).Inv :=
  (h.setCtx hidle (h.ctxSound.close hopen hk (zext64 sec.len))).frame

theorem State.Inv.softReset (h : s.Inv) : s.softReset.Inv :=
  have hc : ContextRegs.reset.Sound s.cfg.drtMax := ContextRegs.sound_reset
  { h with
    drtv := Sparse.wf_nil
    drtvRange := Sparse.below_nil _
    drtLen := hc.drtLen
    lastSec := hc.lastSec
    noMessage := hc.noMessage
    message := hc.message
    geometry := hc.geometry
    faultCode := by simp
    faultIdle := fun _ => rfl
    phase := .of_idle rfl }

/-- An answer to the waiting request (R300). -/
theorem State.Inv.answered (h : s.Inv) (hw : s.phase = .waiting p) (ans : CodecAnswer) :
    State.Inv { s with phase := .answered p ans } := by
  have hp : p.Sound s := h.phase.of_waiting hw
  have hf : s.fault = false := h.not_faulted (by simp [hw])
  exact { h with
    faultIdle := fun hfault => absurd hfault (by simp [hf])
    phase := ⟨hp.counted, hp.fits, hp.width, hp.stored, hp.order⟩ }

end Sys2Proof.Machine
end

section
/-! SUPPORT. Each command keeps the invariant of the block on a state that is not faulted. -/

namespace Sys2Proof.Machine

variable {s t : State} (h : s.Inv) (hf : s.fault = false)
include h hf

/-! ### Bit I/O and floats -/

/-- The bit-I/O and float commands that leave M as it is: they end as a commit after RESULT and NEXTOFF. -/
theorem State.Inv.commit_results {v p : Nat} : (((s.setResult v).setNextoff p).commit .ok 0 [] 0 0).Inv :=
  State.Inv.commit_nil h.frame hf

/-- SBITS and MKIEEE: the batch of fields lies in M. -/
theorem State.Inv.commit_fields {w skip p : Nat} {cs : List Word} (hcs : cs.length = s.count)
    (hb : ∀ j, j < s.count → w = 0 ∨ (fieldPos s.bitoff w skip j + w - 1) / 8 < s.cfg.bufBytes) :
    (((s.setMem (writeFields s.mem s.bitoff w skip 0 cs)).setNextoff p).commit .ok 0 [] 0 0).Inv := by
  have hm : (s.setMem (writeFields s.mem s.bitoff w skip 0 cs)).Inv :=
    h.setMem (wf_writeFields h.mem _ _ _ _ _) (below_writeFields h.memRange _ _ _ _ _ fun j _ hj => hb j (by omega))
  exact State.Inv.commit_nil hm.frame hf

theorem runGbits_inv {w : Nat} (hr : runGbits w s = .ok t) : t.Inv := by
  obtain ⟨hspace, -, rfl⟩ := runGbits_ok.mp hr
  have hn : (s.setNextoff (fieldPos s.bitoff w s.skip s.count)).Inv := h.frame
  exact hn.commit hf nofun (by rwa [length_readFields])

theorem runSbit_inv {w : Nat} (hr : runSbit w s = .ok t) : t.Inv := by
  obtain ⟨hfield, rfl⟩ := runSbit_ok.mp hr
  have hm : (s.setMem (setBits s.mem s.bitoff w s.value)).Inv :=
    h.setMem (wf_setBits h.mem _ _ _) (below_setBits h.memRange _ hfield)
  exact State.Inv.commit_nil hm.frame hf

theorem runRdieee_inv (hr : runRdieee s = .ok t) : t.Inv := by
  obtain ⟨hspace, -, rfl⟩ := runRdieee_ok.mp hr
  have hn : (s.setNextoff (s.bitoff + 32 * s.count)).Inv := h.frame
  exact hn.commit hf nofun (by rwa [length_readFloats])

/-! ### Sections -/

/-- The end of a command that handles section k and writes no other context register: an output that fits in A, and
section k closed. -/
theorem State.Inv.commit_close {code : StatusCode} {d tpl lst k : Nat} {out : List Word} {sec : Section}
    (hopen : s.ctx.lastSec ≠ 0xFF) (hcode : code ≠ .faultOob) (hout : d + out.length ≤ s.cfg.aCells) (hk : k ≤ 8) :
    ((s.commit code d out tpl lst).closeSection k sec).Inv :=
  (h.commit hf hcode hout).closeSection rfl hopen hk sec

/-- The same with the context written: it is sound and keeps LAST_SEC. -/
theorem State.Inv.commit_ctx_close {code : StatusCode} {d tpl lst k : Nat} {out : List Word} {c : ContextRegs}
    {sec : Section} (hopen : s.ctx.lastSec ≠ 0xFF) (hcode : code ≠ .faultOob) (hout : d + out.length ≤ s.cfg.aCells)
    (hc : c.Sound s.cfg.drtMax) (hlast : c.lastSec = s.ctx.lastSec) (hk : k ≤ 8) :
    (((s.commit code d out tpl lst).setCtx c).closeSection k sec).Inv :=
  ((h.commit hf hcode hout).setCtx rfl hc).closeSection rfl (fun hl => hopen (hlast.symm.trans hl)) hk sec

theorem runUnpk0_inv (hr : runUnpk0 s = .ok t) : t.Inv := by
  obtain ⟨-, -, hed, hlen, hspace, rfl⟩ := runUnpk0_ok.mp hr
  have hcommit : (s.commit .ok s.dst [zext64 (memRead s.mem (s.cursor + 6) 1), zext64 (memRead s.mem (s.cursor + 7) 1),
      zext64 (memRead s.mem (s.cursor + 8) 8)] 0 0).Inv := h.commit hf nofun hspace
  rw [hed] at hcommit ⊢
  exact State.Inv.setCtx hcommit.frame rfl (openContext_sound hlen (memRead_lt _ _ _))

theorem runUnpk1_inv (hr : runUnpk1 s = .ok t) : t.Inv := by
  obtain ⟨sec, hsec, hspace, rfl⟩ := runUnpk1_ok.mp hr
  exact h.commit_close hf (lastSec_ne_of_mem_successors hsec.order) nofun
    (by rw [List.length_map, length_readOctetFields]; exact hspace) (by decide)

theorem runUnpk2_inv (hr : runUnpk2 s = .ok t) : t.Inv := by
  obtain ⟨sec, hsec, hspace, rfl⟩ := runUnpk2_ok.mp hr
  exact h.commit_close hf (lastSec_ne_of_mem_successors hsec.order) nofun (by simpa using hspace) (by decide)

omit h hf in
/-- UNPK3 ends with one of the two success codes. -/
theorem gridBody_code {g : Bool} {sec : Section} {n no : Nat} {b : GridBody} (hb : gridBody s g sec n no = .ok b) :
    b.code ≠ .faultOob := by
  unfold gridBody at hb
  split at hb
  · split at hb <;> cases hb
    exact nofun
  · simp only [bind_ok] at hb
    obtain ⟨_, -, _, -, _, -, hb⟩ := hb
    cases hb
    exact nofun

theorem runUnpk3_inv {g : Bool} (hr : runUnpk3 g s = .ok t) : t.Inv := by
  obtain ⟨sec, hsec, b, hb, hspace, rfl⟩ := runUnpk3_ok.mp hr
  have hopen : s.ctx.lastSec ≠ 0xFF := lastSec_ne_of_mem_successors hsec.order
  exact h.commit_ctx_close hf hopen (gridBody_code hb)
    (by simp only [List.length_append, List.length_map, List.length_cons, List.length_nil]; omega)
    (gridContext_sound h.ctxSound hopen _ _ _) rfl (by decide)

theorem runUnpk4_inv (hr : runUnpk4 s = .ok t) : t.Inv := by
  obtain ⟨sec, hsec, desc, -, r, -, -, hspace, rfl⟩ := runUnpk4_ok.mp hr
  have hopen : s.ctx.lastSec ≠ 0xFF := lastSec_ne_of_mem_successors hsec.order
  exact h.commit_ctx_close hf hopen nofun
    (by simp only [List.length_append, List.length_map, List.length_cons, List.length_nil, length_readFloats]; omega)
    (productContext_sound h.ctxSound hopen _ _) rfl (by decide)

theorem runUnpk5_inv (hr : runUnpk5 s = .ok t) : t.Inv := by
  obtain ⟨sec, hsec, desc, -, r, -, hdrt, hspace, rfl⟩ := runUnpk5_ok.mp hr
  have hopen : s.ctx.lastSec ≠ 0xFF := lastSec_ne_of_mem_successors hsec.order
  have hlatch : (s.latchDrt (r.1.map cell)).Inv := h.latchDrt (by simpa using hdrt)
  exact hlatch.commit_ctx_close hf hopen nofun (by simpa [Nat.add_comm, Nat.add_left_comm] using hspace)
    (dataRepContext_sound h.ctxSound hopen _ _ hdrt) rfl (by decide)

theorem runUnpk6_inv (hr : runUnpk6 s = .ok t) : t.Inv := by
  obtain ⟨sec, hsec, b, hb, rfl⟩ := runUnpk6_ok.mp hr
  have hopen : s.ctx.lastSec ≠ 0xFF := lastSec_ne_of_mem_successors hsec.order
  exact h.commit_ctx_close hf hopen nofun (by simpa [Nat.add_comm, Nat.add_left_comm] using bitmapBody_fits hb)
    (bitmapContext_sound h.ctxSound hopen _ _) rfl (by decide)

theorem runChkend_inv (hr : runChkend s = .ok t) : t.Inv := by
  obtain ⟨hlast, -, -, -, rfl⟩ := runChkend_ok.mp hr
  exact h.commit_close hf (by simp [hlast]) nofun (Nat.zero_le _) le_rfl

theorem runSkipsec_inv (hr : runSkipsec s = .ok t) : t.Inv := by
  obtain ⟨k, -, -, hopen, -, -, -, hk, -, -, -, rfl⟩ := runSkipsec_ok.mp hr
  obtain ⟨hc, hlast⟩ := skipContext_sound h.ctxSound hopen k
  have hres : (s.setResult k).Inv := h.frame
  exact hres.commit_ctx_close hf hopen nofun (Nat.zero_le _) hc hlast (by omega)

/-! ### UNPK7 -/

/-- The common end of both steps of UNPK7, `finish7` of R292. -/
theorem finish7_inv {sec : Section} {d : Nat} {out : List Word} (hlast : s.ctx.lastSec = 6)
    (hout : d + out.length ≤ s.cfg.aCells) : (finish7 s sec d out).Inv :=
  h.commit_close hf (by simp [hlast]) nofun hout (by decide)

/-- What UNPK7's first step hands to its second is sound: the checks of R292 hold for it. -/
theorem sendRequest_inv {sec : Section} {alg : Algorithm} {p : LinearParams} (hsec : Opened s 7 5 sec)
    (hspace : s.dst + s.ctx.ndpts.toNat ≤ s.cfg.aCells) (hnb : p.nb ≠ 0) (hwidth : p.nb ≤ 32) :
    (s.sendRequest (pendingOf s sec alg p)).Inv := by
  have hstored : sec.a + sec.len ≤ s.cfg.bufBytes := hsec.stored.resolve_left (by have := hsec.atLeast; omega)
  exact { h with
    faultIdle := fun hfault => absurd (hf.symm.trans hfault) nofun
    phase := ⟨Nat.lt_succ_self _, hspace, ⟨Nat.pos_of_ne_zero hnb, hwidth⟩, hstored, lastSec_eq_six hsec.order⟩ }

theorem runUnpk7_inv (hr : runUnpk7 s = .ok t) : t.Inv := by
  obtain ⟨sec, hsec, -, alg, -, -, p, -, hspace, hd⟩ := runUnpk7_ok.mp hr
  obtain ⟨out, hlen, rfl⟩ | ⟨hnb, hwidth, -, rfl⟩ := decompress_ok hd
  · exact finish7_inv h hf (lastSec_eq_six hsec.order) (by rwa [hlen])
  · exact sendRequest_inv h hf hsec hspace hnb hwidth

theorem runUnpk7Answer_inv {p : Pending} {ans : CodecAnswer} (hp : p.Sound s) (hr : runUnpk7Answer p ans s = .ok t) :
    t.Inv := by
  obtain ⟨xs, -, hlen, -, rfl⟩ := runUnpk7Answer_ok.mp hr
  exact finish7_inv h hf hp.order (by simpa [hlen] using hp.fits)

/-! ### All commands -/

theorem runOf_inv {i : Instr} (hr : runOf i s = .ok t) : t.Inv := by
  cases i with
  | nop => cases hr; exact h.commit_nil hf
  | gbit w => obtain ⟨-, rfl⟩ := runGbit_ok.mp hr; exact h.commit_results hf
  | gbits w => exact runGbits_inv h hf hr
  | sbit w => exact runSbit_inv h hf hr
  | sbits w => obtain ⟨-, hb, rfl⟩ := runSbits_ok.mp hr; exact h.commit_fields hf (Sparse.length_readRun _ _ _) hb
  | rdieee => exact runRdieee_inv h hf hr
  | mkieee =>
    obtain ⟨-, hb, rfl⟩ := runMkieee_ok.mp hr
    exact h.commit_fields hf (Sparse.length_readRun _ _ _) fun j hj => .inr (hb j hj)
  | unpk0 => exact runUnpk0_inv h hf hr
  | unpk1 => exact runUnpk1_inv h hf hr
  | unpk2 => exact runUnpk2_inv h hf hr
  | unpk3 g => exact runUnpk3_inv h hf hr
  | unpk4 => exact runUnpk4_inv h hf hr
  | unpk5 => exact runUnpk5_inv h hf hr
  | unpk6 => exact runUnpk6_inv h hf hr
  | unpk7 => exact runUnpk7_inv h hf hr
  | chkend => exact runChkend_inv h hf hr
  | skipsec => exact runSkipsec_inv h hf hr

/-- A command keeps the invariant when its computation does: a raise always does. -/
theorem endCommand_inv {run : Except Raise State} (hrun : ∀ u, run = .ok u → u.Inv) (ht : endCommand s run = .next t) :
    t.Inv := by
  obtain hok | ⟨r, -, rfl⟩ := endCommand_next.mp ht
  · exact hrun t hok
  · exact h.raise hf r

theorem engineStart_inv {v : Word} (ht : engineStart v s = .next t) : t.Inv := by
  cases hd : decode s.cfg.maxW.bits v with
  | error e =>
    rw [engineStart_undecoded hd] at ht
    cases ht
    exact h.raise hf _
  | ok i =>
    rw [engineStart_decoded hd, exec_eq] at ht
    exact endCommand_inv h hf (fun _ => runOf_inv h hf) ht

end Sys2Proof.Machine
end

section
/-! SUPPORT. Each move of each agent keeps the invariant of the block. -/

namespace Sys2Proof.Machine

variable {s t : State} (h : s.Inv)
include h

theorem blockMove_inv (ht : blockMove s = .next t) : t.Inv := by
  cases hp : s.phase with
  | idle =>
    rw [blockMove_idle hp] at ht
    cases ht
    exact h
  | issued v =>
    rw [blockMove_issued hp] at ht
    exact engineStart_inv h (h.not_faulted (by simp [hp])) ht
  | waiting p =>
    rw [blockMove_waiting hp] at ht
    cases ht
    obtain hd | ⟨ans, hd⟩ := codecDraw_cases p s <;> rw [hd]
    · exact h.frame
    · exact (h.answered hp ans).frame
  | answered p ans =>
    rw [blockMove_answered hp] at ht
    have hf : s.fault = false := h.not_faulted (by simp [hp])
    exact endCommand_inv h hf (fun _ => runUnpk7Answer_inv h hf (h.phase.of_answered hp)) ht

theorem codecMove_inv (n : Nat) (ans : CodecAnswer) : (codecMove n ans s).Inv := by
  unfold codecMove
  split
  case h_1 p hp =>
    split
    · exact h.answered hp ans
    · exact h
  all_goals exact h

theorem hostMove_inv {m : HostMove} (ht : hostMove m s = .next t) : t.Inv := by
  obtain ⟨op, reply, turns, rfl⟩ | ⟨v, hf, -, rfl⟩ | rfl | ⟨a, b, -, ha, rfl⟩ | ⟨i, v, -, hi, rfl⟩ := hostMove_effect ht
  · exact h.frame
  · exact { h with faultIdle := fun hfault => absurd (hf.symm.trans hfault) nofun, phase := trivial }
  · exact h.softReset
  · exact h.setMem (Sparse.wf_write h.mem) (Sparse.below_write h.memRange ha)
  · exact h.setArr (Sparse.wf_write h.arr) (Sparse.below_write h.arrRange hi)

end Sys2Proof.Machine
end

section
/-! SUPPORT. What the commands make of M and A (spec/10_state.md R40, R41; spec/20_memory.md R84): which of them leave M as
it is, and which of them read A. -/

namespace Sys2Proof.Machine

variable {s t : State}

@[simp] theorem State.raise_mem (s : State) (r : Raise) : (s.raise r).mem = s.mem := by cases r <;> rfl

@[simp] theorem State.raise_arr (s : State) (r : Raise) : (s.raise r).arr = s.arr := by cases r <;> rfl

/-- A raise neither reads A nor writes it. -/
theorem State.raise_with_arr (s : State) (r : Raise) (arr : Sparse 64) :
    State.raise { s with arr := arr } r = { s.raise r with arr := arr } := by
  cases r <;> rfl

/-- The commands that write M (R40). -/
def Instr.Inserts (i : Instr) : Prop := (∃ w, i = .sbit w) ∨ (∃ w, i = .sbits w) ∨ i = .mkieee

/-- A command that is no inserter commits with M as it was. -/
theorem runOf_mem {i : Instr} (hi : ¬ Instr.Inserts i) (hr : runOf i s = .ok t) : t.mem = s.mem := by
  cases i with
  | sbit w => exact absurd (.inl ⟨w, rfl⟩) hi
  | sbits w => exact absurd (.inr (.inl ⟨w, rfl⟩)) hi
  | mkieee => exact absurd (.inr (.inr rfl)) hi
  | nop => cases hr; rfl
  | gbit w => obtain ⟨-, rfl⟩ := runGbit_ok.mp hr; rfl
  | gbits w => obtain ⟨-, -, rfl⟩ := runGbits_ok.mp hr; rfl
  | rdieee => obtain ⟨-, -, rfl⟩ := runRdieee_ok.mp hr; rfl
  | unpk0 => obtain ⟨-, -, -, -, -, rfl⟩ := runUnpk0_ok.mp hr; rfl
  | unpk1 => obtain ⟨_, -, -, rfl⟩ := runUnpk1_ok.mp hr; rfl
  | unpk2 => obtain ⟨_, -, -, rfl⟩ := runUnpk2_ok.mp hr; rfl
  | unpk3 g => obtain ⟨_, -, _, -, -, rfl⟩ := runUnpk3_ok.mp hr; rfl
  | unpk4 => obtain ⟨_, -, _, -, _, -, -, -, rfl⟩ := runUnpk4_ok.mp hr; rfl
  | unpk5 => obtain ⟨_, -, _, -, _, -, -, -, rfl⟩ := runUnpk5_ok.mp hr; rfl
  | unpk6 => obtain ⟨_, -, _, -, rfl⟩ := runUnpk6_ok.mp hr; rfl
  | unpk7 =>
    obtain ⟨_, -, -, _, -, -, _, -, -, hd⟩ := runUnpk7_ok.mp hr
    obtain ⟨_, -, rfl⟩ | ⟨-, -, -, rfl⟩ := decompress_ok hd <;> rfl
  | chkend => obtain ⟨-, -, -, -, rfl⟩ := runChkend_ok.mp hr; rfl
  | skipsec => obtain ⟨_, -, -, -, -, -, -, -, -, -, -, rfl⟩ := runSkipsec_ok.mp hr; rfl

/-- A command after which M is not the same is an inserter: a raise leaves M as it was. -/
theorem exec_inserts {i : Instr} (ht : exec i s = .next t) (hm : t.mem ≠ s.mem) : Instr.Inserts i := by
  by_contra hi
  obtain hok | ⟨r, -, rfl⟩ := exec_next.mp ht
  · exact hm (runOf_mem hi hok)
  · exact hm (State.raise_mem s r)

/-- A block move after which M is not the same is the first step of an inserter. -/
theorem blockMove_inserts (ht : blockMove s = .next t) (hm : t.mem ≠ s.mem) :
    ∃ v i, s.phase = .issued v ∧ decode s.cfg.maxW.bits v = .ok i ∧ Instr.Inserts i := by
  cases hp : s.phase with
  | idle =>
    rw [blockMove_idle hp] at ht
    cases ht
    exact absurd rfl hm
  | issued v =>
    rw [blockMove_issued hp] at ht
    cases hd : decode s.cfg.maxW.bits v with
    | error e =>
      rw [engineStart_undecoded hd] at ht
      cases ht
      exact absurd (State.raise_mem s _) hm
    | ok i =>
      rw [engineStart_decoded hd] at ht
      exact ⟨v, i, rfl, hd, exec_inserts ht hm⟩
  | waiting p =>
    rw [blockMove_waiting hp] at ht
    cases ht
    obtain hd | ⟨ans, hd⟩ := codecDraw_cases p s <;> exact absurd (by rw [hd]) hm
  | answered p ans =>
    rw [blockMove_answered hp] at ht
    obtain hok | ⟨r, -, rfl⟩ := endCommand_next.mp ht
    · obtain ⟨_, -, -, -, rfl⟩ := runUnpk7Answer_ok.mp hok
      exact absurd rfl hm
    · exact absurd (State.raise_mem s r) hm

@[simp] theorem codecMove_mem (n : Nat) (ans : CodecAnswer) (s : State) : (codecMove n ans s).mem = s.mem := by
  unfold codecMove
  split
  case h_1 => split <;> rfl
  all_goals rfl

/-! ### Reading A -/

/-- Two computations, on states whose A is `arr` and `arr'`, agree in all but A: they raise the same, or return states with
the same run of cells written over each A and nothing else apart. -/
def AgreeButA (arr arr' : Sparse 64) : Except Raise State → Except Raise State → Prop
  | .ok t, .ok t' => ∃ d vs, t.arr = Sparse.writeRun arr d vs ∧ t' = { t with arr := Sparse.writeRun arr' d vs }
  | .error r, .error r' => r = r'
  | _, _ => False

namespace AgreeButA

variable {arr arr' : Sparse 64}

/-- The same check or read in both, before computations that agree whatever it returns. -/
theorem bind {α : Type} {x y : Except Raise α} {f g : α → Except Raise State} (hxy : x = y)
    (h : ∀ a, AgreeButA arr arr' (f a) (g a)) : AgreeButA arr arr' (x >>= f) (y >>= g) := by
  subst hxy
  cases x with
  | ok a => exact h a
  | error r => rfl

theorem raise (r : Raise) : AgreeButA arr arr' (.error r) (.error r) := rfl

/-- A return that leaves A as it is. -/
theorem keep (t : State) : AgreeButA t.arr arr' (.ok t) (.ok { t with arr := arr' }) := ⟨0, [], rfl, rfl⟩

end AgreeButA

/-- The end of a command neither reads A nor, apart from a commit, writes it. -/
theorem endCommand_agree {arr' : Sparse 64} {x y : Except Raise State} (h : AgreeButA s.arr arr' x y)
    (ht : endCommand s x = .next t) :
    ∃ d vs, t.arr = Sparse.writeRun s.arr d vs ∧
      endCommand { s with arr := arr' } y = .next { t with arr := Sparse.writeRun arr' d vs } := by
  cases x with
  | ok u =>
    cases y with
    | ok u' => obtain ⟨d, vs, hu, rfl⟩ := h; cases ht; exact ⟨d, vs, hu, rfl⟩
    | error r' => exact h.elim
  | error r =>
    cases y with
    | ok u' => exact h.elim
    | error r' =>
      cases h
      cases ht
      exact ⟨0, [], State.raise_arr s r, by rw [endCommand_error, State.raise_with_arr]; rfl⟩

theorem decompress_agree (arr' : Sparse 64) (sec : Section) (alg : Algorithm) (p : LinearParams) :
    AgreeButA s.arr arr' (decompress s sec alg p) (decompress { s with arr := arr' } sec alg p) := by
  unfold decompress
  simp only
  split
  · exact ⟨s.dst, _, rfl, rfl⟩
  · split
    · exact .raise _
    · cases alg
      case simple =>
        simp only
        split
        · exact .raise _
        · exact ⟨s.dst, _, rfl, rfl⟩
      all_goals exact .keep _

theorem checkFields_with_arr (s : State) (arr' : Sparse 64) (p0 w skip i n : Nat) :
    checkFields s p0 w skip i n = checkFields { s with arr := arr' } p0 w skip i n := by
  induction n generalizing i with
  | zero => rfl
  | succ n ih => rw [checkFields, checkFields, ih]; rfl

/-- The computation of a command that is no packer reads no cell of A: each of its checks and reads is the same without A, and
so are the cells that it writes from DST on. -/
theorem runOf_agree {i : Instr} (hsbits : ∀ w, i ≠ .sbits w) (hmkieee : i ≠ .mkieee) (arr' : Sparse 64) :
    AgreeButA s.arr arr' (runOf i s) (runOf i { s with arr := arr' }) := by
  cases i with
  | sbits w => exact absurd rfl (hsbits w)
  | mkieee => exact absurd rfl hmkieee
  | nop => exact .keep _
  | gbit w => exact .bind rfl fun _ => .keep _
  | gbits w => exact .bind rfl fun _ => .bind (checkFields_with_arr s arr' _ _ _ _ _) fun _ => ⟨s.dst, _, rfl, rfl⟩
  | sbit w => exact .bind rfl fun _ => .keep _
  | rdieee => exact .bind rfl fun _ => .bind (checkFields_with_arr s arr' _ _ _ _ _) fun _ => ⟨s.dst, _, rfl, rfl⟩
  | unpk0 =>
    exact .bind rfl fun _ => .bind rfl fun _ => .bind rfl fun _ => .bind rfl fun _ => .bind rfl fun _ => ⟨s.dst, _, rfl, rfl⟩
  | unpk1 => exact .bind rfl fun _ => .bind rfl fun _ => ⟨s.dst, _, rfl, rfl⟩
  | unpk2 => exact .bind rfl fun _ => .bind rfl fun _ => ⟨s.dst, _, rfl, rfl⟩
  | unpk3 g => exact .bind rfl fun _ => .bind rfl fun _ => .bind rfl fun _ => ⟨s.dst, _, rfl, rfl⟩
  | unpk4 =>
    refine .bind rfl fun sec => ?_
    simp only
    split
    · exact .raise _
    · exact .bind rfl fun _ => .bind rfl fun _ => .bind rfl fun _ => ⟨s.dst, _, rfl, rfl⟩
  | unpk5 =>
    refine .bind rfl fun sec => ?_
    simp only
    split
    · exact .raise _
    · exact .bind rfl fun _ => .bind rfl fun _ => .bind rfl fun _ => ⟨s.dst, _, rfl, rfl⟩
  | unpk6 => exact .bind rfl fun _ => .bind rfl fun _ => ⟨s.dst, _, rfl, rfl⟩
  | unpk7 =>
    exact .bind rfl fun _ => .bind rfl fun _ => .bind rfl fun _ => .bind rfl fun _ => .bind rfl fun _ => .bind rfl fun _ =>
      decompress_agree arr' _ _ _
  | chkend => exact .bind rfl fun _ => .bind rfl fun _ => .bind rfl fun _ => .bind rfl fun _ => .keep _
  | skipsec =>
    exact .bind rfl fun _ => .bind rfl fun _ => .bind rfl fun _ => .bind rfl fun _ => .bind rfl fun _ => .bind rfl fun _ =>
      .bind rfl fun _ => .keep _

theorem exec_agree {i : Instr} (hsbits : ∀ w, i ≠ .sbits w) (hmkieee : i ≠ .mkieee) (arr' : Sparse 64)
    (ht : exec i s = .next t) :
    ∃ d vs, t.arr = Sparse.writeRun s.arr d vs ∧
      exec i { s with arr := arr' } = .next { t with arr := Sparse.writeRun arr' d vs } := by
  rw [exec_eq] at ht ⊢
  exact endCommand_agree (runOf_agree hsbits hmkieee arr') ht

/-- Engine step 1 on a value that is no packer's reads no cell of A, whether it decodes or not. -/
theorem engineStart_agree {v : Word} (arr' : Sparse 64)
    (hpack : ∀ i, decode s.cfg.maxW.bits v = .ok i → (∀ w, i ≠ .sbits w) ∧ i ≠ .mkieee) (ht : engineStart v s = .next t) :
    ∃ d vs, t.arr = Sparse.writeRun s.arr d vs ∧
      engineStart v { s with arr := arr' } = .next { t with arr := Sparse.writeRun arr' d vs } := by
  cases hd : decode s.cfg.maxW.bits v with
  | error e =>
    rw [engineStart_undecoded hd] at ht
    rw [engineStart_undecoded (s := { s with arr := arr' }) hd]
    exact endCommand_agree (AgreeButA.raise (decodeRaise e)) ht
  | ok i =>
    rw [engineStart_decoded hd] at ht
    rw [engineStart_decoded (s := { s with arr := arr' }) hd]
    obtain ⟨hsbits, hmkieee⟩ := hpack i hd
    exact exec_agree hsbits hmkieee arr' ht

/-- The second step of UNPK7 reads no cell of A. -/
theorem runUnpk7Answer_agree (p : Pending) (ans : CodecAnswer) (arr' : Sparse 64) :
    AgreeButA s.arr arr' (runUnpk7Answer p ans s) (runUnpk7Answer p ans { s with arr := arr' }) := by
  cases ans with
  | fail => exact .raise _
  | samples xs => exact .bind rfl fun _ => .bind rfl fun _ => ⟨p.dst, _, rfl, rfl⟩

/-- A move of the engine that is no packer's first step reads no cell of A. -/
theorem blockMove_agree (arr' : Sparse 64)
    (hpack : ∀ v i, s.phase = .issued v → decode s.cfg.maxW.bits v = .ok i → (∀ w, i ≠ .sbits w) ∧ i ≠ .mkieee)
    (ht : blockMove s = .next t) :
    ∃ d vs, t.arr = Sparse.writeRun s.arr d vs ∧
      blockMove { s with arr := arr' } = .next { t with arr := Sparse.writeRun arr' d vs } := by
  obtain hp | ⟨v, hp⟩ | ⟨p, hp⟩ | ⟨p, ans, hp⟩ := phase_cases s
  · rw [blockMove_idle hp] at ht
    rw [blockMove_idle (s := { s with arr := arr' }) hp]
    cases ht
    exact ⟨0, [], rfl, rfl⟩
  · rw [blockMove_issued hp] at ht
    rw [blockMove_issued (s := { s with arr := arr' }) hp]
    exact engineStart_agree arr' (hpack v · hp) ht
  · rw [blockMove_waiting hp] at ht
    rw [blockMove_waiting (s := { s with arr := arr' }) hp, codecDraw_arr]
    cases ht
    obtain hd | ⟨ans, hd⟩ := codecDraw_cases p s <;> exact ⟨0, [], by rw [hd]; rfl, rfl⟩
  · rw [blockMove_answered hp] at ht
    rw [blockMove_answered (s := { s with arr := arr' }) hp]
    exact endCommand_agree (runUnpk7Answer_agree p ans arr') ht

end Sys2Proof.Machine
end

section
/-! SUPPORT. Fields of a register that is a view of other state: a number laid out in bit fields, read field by field. -/

namespace Sys2Proof.Machine

theorem StatusCode.number_lt (c : StatusCode) : c.number < 2 ^ 8 := by
  cases c with
  | error e => cases e <;> decide
  | ok | okOpaque | faultOob => decide

theorem StatusCode.statusClass_lt (c : StatusCode) : c.statusClass < 2 ^ 3 := by
  cases c with
  | error e => cases e <;> decide
  | ok | okOpaque | faultOob => decide

theorem toNat_zext64 {n : Nat} (h : n < 2 ^ 64) : (zext64 n).toNat = n := by
  rw [zext64, BitVec.toNat_ofNat, Nat.mod_eq_of_lt h]

/-- A field of a register, as the number it holds. -/
theorem toNat_extractLsb'_zext64 {n : Nat} (h : n < 2 ^ 64) (start len : Nat) :
    ((zext64 n).extractLsb' start len).toNat = n / 2 ^ start % 2 ^ len := by
  rw [BitVec.extractLsb'_toNat, toNat_zext64 h, Nat.shiftRight_eq_div_pow]

/-- A one-bit field of a register. -/
theorem getLsbD_zext64 {n i : Nat} {b : Bool} (h : n < 2 ^ 64) (hb : n / 2 ^ i % 2 = b.toNat) :
    (zext64 n).getLsbD i = b := by
  rw [BitVec.getLsbD, toNat_zext64 h, Nat.testBit_eq_decide_div_mod_eq, hb]
  cases b <;> rfl

/-- The fields of PARAMS (R46). -/
theorem paramsWord_fields (c : Config) :
    ((paramsWord c).extractLsb' 0 8).toNat = c.maxW.bits ∧ (paramsWord c).getLsbD 8 = c.hasJpeg2000 ∧
      (paramsWord c).getLsbD 9 = c.hasPng ∧ (paramsWord c).getLsbD 10 = c.hasAec ∧ (paramsWord c).getLsbD 11 = c.hasRle ∧
      (paramsWord c).getLsbD 12 = c.rleParams.isSome ∧
      ((paramsWord c).getLsbD 13 = true ↔ c.optListRule = .countEntries) ∧ ((paramsWord c).extractLsb' 14 50).toNat = 0 := by
  have hmaxW : c.maxW.bits < 2 ^ 8 := by cases c.maxW <;> decide
  have hjpeg : c.hasJpeg2000.toNat < 2 := Bool.toNat_lt _
  have hpng : c.hasPng.toNat < 2 := Bool.toNat_lt _
  have haec : c.hasAec.toNat < 2 := Bool.toNat_lt _
  have hrle : c.hasRle.toNat < 2 := Bool.toNat_lt _
  have hparams : c.rleParams.isSome.toNat < 2 := Bool.toNat_lt _
  have hcount : (decide (c.optListRule = .countEntries)).toNat < 2 := Bool.toNat_lt _
  have hlt : c.maxW.bits + c.hasJpeg2000.toNat * 2 ^ 8 + c.hasPng.toNat * 2 ^ 9 + c.hasAec.toNat * 2 ^ 10 +
      c.hasRle.toNat * 2 ^ 11 + c.rleParams.isSome.toNat * 2 ^ 12 +
      (decide (c.optListRule = .countEntries)).toNat * 2 ^ 13 < 2 ^ 64 := by omega
  have hcountBit : (paramsWord c).getLsbD 13 = decide (c.optListRule = .countEntries) := getLsbD_zext64 hlt (by omega)
  exact ⟨(toNat_extractLsb'_zext64 hlt 0 8).trans (by omega), getLsbD_zext64 hlt (by omega), getLsbD_zext64 hlt (by omega),
    getLsbD_zext64 hlt (by omega), getLsbD_zext64 hlt (by omega), getLsbD_zext64 hlt (by omega),
    by rw [hcountBit, decide_eq_true_iff], (toNat_extractLsb'_zext64 hlt 14 50).trans (by omega)⟩

/-- The fields of CTXFLAGS (R45). -/
theorem flags_fields (c : ContextRegs) :
    c.flags.getLsbD 0 = c.ngptsValid ∧ c.flags.getLsbD 1 = c.drtValid ∧ c.flags.getLsbD 2 = c.haveBmap ∧
      c.flags.getLsbD 3 = c.geomValid ∧ (c.flags.extractLsb' 4 60).toNat = 0 := by
  have hngpts : c.ngptsValid.toNat < 2 := Bool.toNat_lt _
  have hdrt : c.drtValid.toNat < 2 := Bool.toNat_lt _
  have hbmap : c.haveBmap.toNat < 2 := Bool.toNat_lt _
  have hgeom : c.geomValid.toNat < 2 := Bool.toNat_lt _
  have hlt : c.ngptsValid.toNat + c.drtValid.toNat * 2 + c.haveBmap.toNat * 4 + c.geomValid.toNat * 8 < 2 ^ 64 := by omega
  exact ⟨getLsbD_zext64 hlt (by omega), getLsbD_zext64 hlt (by omega), getLsbD_zext64 hlt (by omega),
    getLsbD_zext64 hlt (by omega), (toNat_extractLsb'_zext64 hlt 4 60).trans (by omega)⟩

theorem waitExt_eq_true {s : State} : s.waitExt = true ↔ ∃ p, s.phase = .waiting p := by
  cases h : s.phase <;> simp [State.waitExt, h]

end Sys2Proof.Machine
end

section
/-! SUPPORT. The register map (spec/10_state.md R33, R50), and what each access of the host port does (R34, R36, R38, R49;
spec/20_memory.md R84). -/

namespace Sys2Proof.Machine

variable {s t : State} {c : Config}

/-! ### The register map -/

/-- The rows of R33 before the DRT latch file stand at the multiples of 8 below 0x130. -/
theorem regMap_offsets : regMap.map (·.1) = (List.range 38).map (8 * ·) := by decide

theorem regMap_find? : ∀ row ∈ regMap, regMap.find? (fun r => r.1 == row.1) = some row := by decide

/-- R33: the rows of the map, and DRTV[k] at 0x200 + 8k. -/
theorem regAt_eq_some {off : Nat} {r : Reg} :
    regAt c off = some r ↔ (off, r) ∈ regMap ∨ ∃ k, k < c.drtMax ∧ off = 0x200 + 8 * k ∧ r = .drtv k := by
  have hrow : ∀ row ∈ regMap, row.1 < 0x200 := by decide
  unfold regAt
  split
  case isTrue hlt =>
    rw [Option.map_eq_some_iff]
    constructor
    · rintro ⟨⟨off', r'⟩, hfind, rfl⟩
      obtain rfl : off' = off := by simpa using List.find?_some hfind
      exact .inl (List.mem_of_find?_eq_some hfind)
    · rintro (hmem | ⟨k, -, rfl, -⟩)
      · exact ⟨(off, r), regMap_find? _ hmem, rfl⟩
      · omega
  case isFalse hge =>
    constructor
    · intro h
      split at h
      case isTrue hk =>
        cases h
        exact .inr ⟨_, hk.2, by omega, rfl⟩
      case isFalse => cases h
    · rintro (hmem | ⟨k, hk, rfl, rfl⟩)
      · exact absurd (hrow _ hmem) hge
      · have hidx : (0x200 + 8 * k - 0x200) / 8 = k := by omega
        rw [hidx, if_pos ⟨by omega, hk⟩]

theorem regAt_of_mem {off : Nat} {r : Reg} (h : (off, r) ∈ regMap) : regAt c off = some r := regAt_eq_some.mpr (.inl h)

theorem regAt_drtv {k : Nat} (hk : k < c.drtMax) : regAt c (0x200 + 8 * k) = some (.drtv k) :=
  regAt_eq_some.mpr (.inr ⟨k, hk, rfl, rfl⟩)

/-- A row of the map stands at every multiple of 8 below 0x130, and nowhere else. -/
theorem exists_mem_regMap {off : Nat} : (∃ r, (off, r) ∈ regMap) ↔ off % 8 = 0 ∧ off < 0x130 := by
  have hoff : (∃ r, (off, r) ∈ regMap) ↔ off ∈ regMap.map (·.1) := by simp
  rw [hoff, regMap_offsets, List.mem_map]
  constructor
  · rintro ⟨k, hk, rfl⟩
    have := List.mem_range.mp hk
    omega
  · exact fun ⟨h8, hlt⟩ => ⟨off / 8, List.mem_range.mpr (by omega), by omega⟩

/-- R50: no register stands at an offset that is no multiple of 8, between 0x130 and 0x1FF, or past the last DRTV entry. -/
theorem regAt_eq_none {off : Nat} (h : off % 8 ≠ 0 ∨ (0x130 ≤ off ∧ off < 0x200) ∨ 0x200 + 8 * c.drtMax ≤ off) :
    regAt c off = none := by
  refine Option.eq_none_iff_forall_ne_some.mpr fun r hr => ?_
  obtain hmem | ⟨k, hk, rfl, -⟩ := regAt_eq_some.mp hr
  · obtain ⟨h8, hlt⟩ := exists_mem_regMap.mp ⟨r, hmem⟩
    omega
  · omega

/-- Only CMD, STATUS and CTRL, at the first three offsets, stay open in a block that follows R84 and R93. -/
theorem regAt_openWhileBusy {off : Nat} {r : Reg} (hr : regAt c off = some r) (ho : r.openWhileBusy = true) :
    off ∈ [0x000, 0x008, 0x010] := by
  have hrow : ∀ row ∈ regMap, row.2.openWhileBusy = true → row.1 ∈ [0x000, 0x008, 0x010] := by decide
  obtain hmem | ⟨k, -, -, rfl⟩ := regAt_eq_some.mp hr
  · exact hrow _ hmem ho
  · cases ho

/-! ### Register accesses -/

theorem regOpen_eq_false {r : Reg} (hbusy : s.phase ≠ .idle) (hc : s.cfg.busyRegisters = .excluded)
    (ho : r.openWhileBusy = false) : s.regOpen r = false := by
  simp [State.regOpen, hc, hbusy, ho]

section
variable {off : Nat} {use : Reg → Host.Outcome State Fault Refusal}

theorem withReg_width {width : Nat} (hw : width ≠ 64) : withReg s off width use = .refused (.hostAccessWidth width) :=
  if_pos hw

theorem withReg_unmapped (hr : regAt s.cfg off = none) : withReg s off 64 use = .fault (.hostUnmappedRegister off) := by
  simp [withReg, hr]

theorem withReg_closed {r : Reg} (hr : regAt s.cfg off = some r) (ho : s.regOpen r = false) :
    withReg s off 64 use = .refused .hostRegisterWhileBusy := by
  simp [withReg, hr, ho]

end

theorem hostMove_regRead {off : Nat} {r : Reg} (hr : regAt s.cfg off = some r) (ho : s.regOpen r = true) :
    hostMove (.regRead off 64) s = .next { s with reply := some (.reg (readReg s r)) } :=
  withReg_open hr ho

theorem hostMove_regWrite {off : Nat} {r : Reg} {v : Word} (hr : regAt s.cfg off = some r) (ho : s.regOpen r = true) :
    hostMove (.regWrite off 64 v) s = writeReg s r v :=
  withReg_open hr ho

/-- A run of rows of the register map, each open to the host, reads as the values of their registers. -/
theorem hostMove_regRead_rows {rows : List (Nat × Reg)} (hmap : ∀ row ∈ rows, row ∈ regMap)
    (ho : ∀ row ∈ rows, s.regOpen row.2 = true) :
    ∀ read ∈ rows.map (fun row => (row.1, readReg s row.2)),
      hostMove (.regRead read.1 64) s = .next { s with reply := some (.reg read.2) } := by
  intro read hread
  obtain ⟨row, hrow, rfl⟩ := List.mem_map.mp hread
  exact hostMove_regRead (regAt_of_mem (hmap row hrow)) (ho row hrow)

/-- The registers that a host write may change or act on (R34, R36, R38); every other register is read-only (R49). -/
def writableRegs : List Reg := [.cmd, .ctrl, .bitoff, .count, .skip, .dst, .src, .value, .cursor]

theorem writeReg_readOnly {r : Reg} (h : r ∉ writableRegs) (v : Word) : writeReg s r v = .next s := by
  cases r
  case cmd | ctrl | bitoff | count | skip | dst | src | value | cursor => exact absurd (by decide) h
  all_goals rfl

theorem writeCmd_issues {v : Word} (hp : s.phase = .idle) (hf : s.fault = false) :
    writeCmd s v = .next { s with phase := .issued v } := by
  simp [writeCmd, hp, hf]

theorem writeCmd_faulted {v : Word} (hf : s.fault = true) : writeCmd s v = .next s := by simp [writeCmd, hf]

theorem writeCmd_busy {v : Word} (hp : s.phase ≠ .idle) (hf : s.fault = false) :
    writeCmd s v = .refused .hostCmdWhileBusy := by
  simp [writeCmd, hp, hf]

/-! ### Accesses to M and A -/

theorem withByte_busy (hp : s.phase ≠ .idle) (a : Nat) (u : State) : withByte s a u = .refused .hostStorageWhileBusy := by
  simp [withByte, hp]

theorem withByte_range (hp : s.phase = .idle) {a : Nat} (ha : s.cfg.bufBytes ≤ a) (u : State) :
    withByte s a u = .fault (.hostMemoryRange a) := by
  simp [withByte, hp, ha]

theorem withCell_busy (hp : s.phase ≠ .idle) (i : Nat) (u : State) : withCell s i u = .refused .hostStorageWhileBusy := by
  simp [withCell, hp]

theorem withCell_range (hp : s.phase = .idle) {i : Nat} (hi : s.cfg.aCells ≤ i) (u : State) :
    withCell s i u = .fault (.hostArrayRange i) := by
  simp [withCell, hp, hi]

/-- No host read has a side effect (R89). -/
theorem hostMove_read_frame {m : HostMove} (hm : hostMove m s = .next t)
    (hread : (∃ off w, m = .regRead off w) ∨ (∃ a, m = .mRead a) ∨ ∃ i, m = .aRead i) : t = { s with reply := t.reply } := by
  obtain ⟨off, w, rfl⟩ | ⟨a, rfl⟩ | ⟨i, rfl⟩ := hread
  · obtain ⟨-, r, -, -, h⟩ := withReg_next.mp hm
    cases h; rfl
  · obtain ⟨-, -, rfl⟩ := withByte_next.mp hm; rfl
  · obtain ⟨-, -, rfl⟩ := withCell_next.mp hm; rfl

/-- A write changes the value at its address alone. -/
theorem Sparse.read_write_spec {n : Nat} {m : Sparse n} (h : Sparse.wf m = true) (a : Nat) (v : BitVec n) :
    Sparse.read (Sparse.write m a v) a = v ∧ ∀ b, b ≠ a → Sparse.read (Sparse.write m a v) b = Sparse.read m b :=
  ⟨by rw [Sparse.read_write h, if_pos rfl], fun b hb => by rw [Sparse.read_write h, if_neg hb]⟩

end Sys2Proof.Machine
end

section
/-! PROOFS. The statements of spec/10_state.md: registers and the host port, who writes M and reads A, the invariant. -/

namespace Sys2Proof.Machine

/-- Settles O46: each field of STATUS is one summand of its number; each code has its row of the table. -/
theorem statusFields : Obligations.StatusFields := by
  intro s
  have hnum : s.code.number < 2 ^ 8 := s.code.number_lt
  have hclass : s.code.statusClass < 2 ^ 3 := s.code.statusClass_lt
  have hbusy : s.busy.toNat < 2 := s.busy.toNat_lt
  have hwait : s.waitExt.toNat < 2 := s.waitExt.toNat_lt
  have hfault : s.fault.toNat < 2 := s.fault.toNat_lt
  have hlt : s.code.number + s.code.statusClass * 2 ^ 8 + s.busy.toNat * 2 ^ 16 + s.waitExt.toNat * 2 ^ 17 +
      s.fault.toNat * 2 ^ 18 < 2 ^ 64 := by omega
  have hfield (start len : Nat) := toNat_extractLsb'_zext64 hlt start len
  have hcodeField : (s.status.extractLsb' 0 8).toNat = s.code.number := (hfield 0 8).trans (by omega)
  have hclassField : (s.status.extractLsb' 8 3).toNat = s.code.statusClass := (hfield 8 3).trans (by omega)
  have hbusyBit : s.status.getLsbD 16 = s.busy := getLsbD_zext64 hlt (by omega)
  have hwaitBit : s.status.getLsbD 17 = s.waitExt := getLsbD_zext64 hlt (by omega)
  refine ⟨?_, (hfield 11 5).trans (by omega), ?_, by rw [hwaitBit, waitExt_eq_true], getLsbD_zext64 hlt (by omega),
    (hfield 19 45).trans (by omega)⟩
  · rw [hcodeField, hclassField]
    generalize s.code = c
    cases c with
    | error e => cases e <;> decide
    | ok | okOpaque | faultOob => decide
  · rw [hbusyBit, Bool.eq_iff_iff, busy_eq_true, decide_eq_true_iff]

/-- Settles O47: each field of PARAMS and CTXFLAGS is one summand of its number; the other three registers are parameters. -/
theorem parameterAndFlagFields : Obligations.ParameterAndFlagFields := by
  intro s
  obtain ⟨hmaxW, hjpeg, hpng, haec, hrle, hparams, hcount, hzero⟩ := paramsWord_fields s.cfg
  exact ⟨hmaxW, hjpeg, hpng, haec, hrle, hparams, hcount, hzero, rfl, rfl, rfl, flags_fields s.ctx⟩

/-- Settles O49: CMD is always open, and `writeCmd` has its three cases. -/
theorem cmdWriteIssuesCommand : Obligations.CmdWriteIssuesCommand := by
  intro s v
  have hcmd : regAt s.cfg 0x000 = some .cmd := regAt_of_mem (by decide)
  have hwrite : hostMove (.regWrite 0x000 64 v) s = writeCmd s v := hostMove_regWrite hcmd regOpen_cmd
  rw [hwrite]
  exact ⟨writeCmd_issues, writeCmd_faulted, writeCmd_busy, hostMove_regRead hcmd regOpen_cmd⟩

/-- Settles O50: the operand registers one by one, the others as read-only rows of the map. -/
theorem registerWritesChangeOperandsOnly : Obligations.RegisterWritesChangeOperandsOnly := by
  intro s v
  have hstatus : hostMove (.regWrite 0x008 64 v) s = writeReg s .status v :=
    hostMove_regWrite (regAt_of_mem (by decide)) regOpen_status
  refine ⟨fun hopen => ?_, hstatus.trans (writeReg_readOnly (by decide) v)⟩
  have hwrite {off : Nat} {r : Reg} (hr : (off, r) ∈ regMap) : hostMove (.regWrite off 64 v) s = writeReg s r v :=
    hostMove_regWrite (regAt_of_mem hr) (regOpen_of_open hopen r)
  have hrow : ∀ off ∈ 0x018 :: (List.range 27).map (fun k => 0x058 + 8 * k),
      ∃ row ∈ regMap, row.1 = off ∧ row.2 ∉ writableRegs := by decide
  refine ⟨hwrite (r := .bitoff) (by decide), hwrite (r := .count) (by decide), hwrite (r := .skip) (by decide),
    hwrite (r := .dst) (by decide), hwrite (r := .src) (by decide), hwrite (r := .value) (by decide),
    hwrite (r := .cursor) (by decide), fun off hoff => ?_, fun k hk => ?_⟩
  · obtain ⟨row, hmem, rfl, hro⟩ := hrow off hoff
    exact (hwrite hmem).trans (writeReg_readOnly hro v)
  · exact hostMove_regWrite (regAt_drtv hk) (regOpen_of_open hopen _)

/-- Settles O51: the checks of the host port one by one; the register map decides which offsets are registers. -/
theorem accessesWithoutMove : Obligations.AccessesWithoutMove := by
  intro s off width a v b
  refine ⟨fun hw => ⟨withReg_width hw, withReg_width hw⟩, fun h => ⟨withReg_unmapped (regAt_eq_none h),
    withReg_unmapped (regAt_eq_none h)⟩, fun h8 h => ?_, fun hp => ⟨withByte_busy hp _ _, withByte_busy hp _ _,
    withCell_busy hp _ _, withCell_busy hp _ _⟩, fun hp ha => ⟨withByte_range hp ha _, withByte_range hp ha _⟩,
    fun hp ha => ⟨withCell_range hp ha _, withCell_range hp ha _⟩⟩
  obtain ⟨r, hr⟩ : ∃ r, regAt s.cfg off = some r := by
    obtain hlt | ⟨hge, hlt⟩ := h
    · obtain ⟨r, hmem⟩ := exists_mem_regMap.mpr ⟨h8, hlt⟩
      exact ⟨r, regAt_of_mem hmem⟩
    · obtain ⟨k, rfl⟩ : ∃ k, off = 0x200 + 8 * k := ⟨(off - 0x200) / 8, by omega⟩
      exact ⟨_, regAt_drtv (by omega)⟩
  refine ⟨⟨r, hr⟩, fun hp hc hoff => ?_⟩
  have hclosed : s.regOpen r = false :=
    regOpen_eq_false hp hc (Bool.eq_false_iff.mpr fun ho => hoff (regAt_openWhileBusy hr ho))
  exact ⟨withReg_closed hr hclosed, withReg_closed hr hclosed⟩

/-- Settles O52: the rows written out are those of the register map, each with the value of its register. -/
theorem hostReadsAndStorageWrites : Obligations.HostReadsAndStorageWrites := by
  intro s
  refine ⟨?_, fun hopen => ⟨?_, fun k hk => hostMove_regRead (regAt_drtv hk) (regOpen_of_open hopen _)⟩,
    fun hp hwf a b ha =>
      ⟨withByte_next.mpr ⟨hp, ha, rfl⟩, _, withByte_next.mpr ⟨hp, ha, rfl⟩, Sparse.read_write_spec hwf a b⟩,
    fun hp hwf i v hi =>
      ⟨withCell_next.mpr ⟨hp, hi, rfl⟩, _, withCell_next.mpr ⟨hp, hi, rfl⟩, Sparse.read_write_spec hwf i v⟩,
    fun t m => hostMove_read_frame⟩
  · exact hostMove_regRead_rows (rows := regMap.take 3) (fun _ => List.mem_of_mem_take) fun row hrow =>
      regOpen_of_openWhileBusy ((by decide : ∀ row ∈ regMap.take 3, row.2.openWhileBusy = true) row hrow)
  · exact hostMove_regRead_rows (rows := regMap.drop 3) (fun _ => List.mem_of_mem_drop) fun row _ =>
      regOpen_of_open hopen row.2

/-- Settles O57: a step that changes M is the block's own, of an inserter, or the host's write of a byte. -/
theorem onlyInsertersWriteM : Obligations.OnlyInsertersWriteM := by
  refine ⟨fun i s t ht hm => exec_inserts ht hm, fun s t ht hm => ?_⟩
  obtain ⟨hb, l, ht⟩ | ⟨n, ans, rest, -, rfl⟩ | ⟨m, rest, hturn, ht⟩ := step_cases ht
  · obtain ⟨v, i, hp, hd, hi⟩ := blockMove_inserts ht hm
    exact .inl ⟨i, ⟨hb, v, hp, hd⟩, hi⟩
  · exact absurd (codecMove_mem _ _ _) hm
  · obtain ⟨-, hmem⟩ | ⟨_, -, -, rfl⟩ | ⟨a, b, rfl, -⟩ := hostMove_cases ht
    · exact absurd hmem hm
    · exact absurd rfl hm
    · exact .inr ⟨a, b, rest, hturn⟩

/-- Settles O58: each move of the engine but a packer's first step agrees on two states apart in A alone. -/
theorem onlyPackersReadA : Obligations.OnlyPackersReadA := by
  exact ⟨fun _ _ _ arr' hsbits hmkieee ht => exec_agree hsbits hmkieee arr' ht,
    fun _ _ arr' hpack ht => blockMove_agree arr' hpack ht⟩

/-- Settles O60: the three agents' moves keep the invariant, and taking a turn off the list does. -/
theorem stepKeepsInvariant : Obligations.StepKeepsInvariant := by
  intro s t h ht
  obtain ⟨-, l, ht⟩ | ⟨n, ans, rest, -, rfl⟩ | ⟨m, rest, -, ht⟩ := step_cases ht
  · exact blockMove_inv h.frame ht
  · exact codecMove_inv h.frame n ans
  · exact hostMove_inv h.frame ht

end Sys2Proof.Machine
end

section
/-! SUPPORT. The parameters of the block (spec/20_memory.md R99), which no command and no move of an agent writes, and what an
answer of the codec agent does (spec/44_decompress.md R300, spec/70_reset_and_hazards.md R391). -/

namespace Sys2Proof.Machine

variable {s t : State}

/-! ### An answer of the codec agent -/

/-- An answer to the request that waits moves PHASE alone. -/
theorem codecMove_waiting {p : Pending} (hp : s.phase = .waiting p) (ans : CodecAnswer) :
    codecMove p.serial ans s = { s with phase := .answered p ans } := by
  simp only [codecMove, hp, if_true]

/-- An answer to a request that is not waiting is discarded. -/
theorem codecMove_discarded {n : Nat} (h : ∀ p, s.phase = .waiting p → p.serial ≠ n) (ans : CodecAnswer) :
    codecMove n ans s = s := by
  cases hp : s.phase with
  | waiting p => simp only [codecMove, hp, if_neg (h p hp)]
  | idle | issued | answered => simp only [codecMove, hp]

/-! ### The parameters -/

@[simp] theorem State.raise_cfg (s : State) (r : Raise) : (s.raise r).cfg = s.cfg := by cases r <;> rfl

/-- Every command commits with the parameters as they were. -/
theorem runOf_cfg {i : Instr} (hr : runOf i s = .ok t) : t.cfg = s.cfg := by
  cases i with
  | nop => cases hr; rfl
  | gbit w => obtain ⟨-, rfl⟩ := runGbit_ok.mp hr; rfl
  | gbits w => obtain ⟨-, -, rfl⟩ := runGbits_ok.mp hr; rfl
  | sbit w => obtain ⟨-, rfl⟩ := runSbit_ok.mp hr; rfl
  | sbits w => obtain ⟨-, -, rfl⟩ := runSbits_ok.mp hr; rfl
  | rdieee => obtain ⟨-, -, rfl⟩ := runRdieee_ok.mp hr; rfl
  | mkieee => obtain ⟨-, -, rfl⟩ := runMkieee_ok.mp hr; rfl
  | unpk0 => obtain ⟨-, -, -, -, -, rfl⟩ := runUnpk0_ok.mp hr; rfl
  | unpk1 => obtain ⟨_, -, -, rfl⟩ := runUnpk1_ok.mp hr; rfl
  | unpk2 => obtain ⟨_, -, -, rfl⟩ := runUnpk2_ok.mp hr; rfl
  | unpk3 g => obtain ⟨_, -, _, -, -, rfl⟩ := runUnpk3_ok.mp hr; rfl
  | unpk4 => obtain ⟨_, -, _, -, _, -, -, -, rfl⟩ := runUnpk4_ok.mp hr; rfl
  | unpk5 => obtain ⟨_, -, _, -, _, -, -, -, rfl⟩ := runUnpk5_ok.mp hr; rfl
  | unpk6 => obtain ⟨_, -, _, -, rfl⟩ := runUnpk6_ok.mp hr; rfl
  | unpk7 =>
    obtain ⟨_, -, -, _, -, -, _, -, -, hd⟩ := runUnpk7_ok.mp hr
    obtain ⟨_, -, rfl⟩ | ⟨-, -, -, rfl⟩ := decompress_ok hd <;> rfl
  | chkend => obtain ⟨-, -, -, -, rfl⟩ := runChkend_ok.mp hr; rfl
  | skipsec => obtain ⟨_, -, -, -, -, -, -, -, -, -, -, rfl⟩ := runSkipsec_ok.mp hr; rfl

/-- A command keeps the parameters when its computation does: a raise always does. -/
theorem endCommand_cfg {run : Except Raise State} (hrun : ∀ u, run = .ok u → u.cfg = s.cfg)
    (ht : endCommand s run = .next t) : t.cfg = s.cfg := by
  obtain hok | ⟨r, -, rfl⟩ := endCommand_next.mp ht
  · exact hrun t hok
  · exact State.raise_cfg s r

theorem engineStart_cfg {v : Word} (ht : engineStart v s = .next t) : t.cfg = s.cfg := by
  cases hd : decode s.cfg.maxW.bits v with
  | error e =>
    rw [engineStart_undecoded hd] at ht
    cases ht
    exact State.raise_cfg s _
  | ok i =>
    rw [engineStart_decoded hd, exec_eq] at ht
    exact endCommand_cfg (fun _ => runOf_cfg) ht

theorem engineFinish_cfg {p : Pending} {ans : CodecAnswer} (ht : engineFinish p ans s = .next t) : t.cfg = s.cfg := by
  refine endCommand_cfg (fun u hu => ?_) ht
  obtain ⟨_, -, -, -, rfl⟩ := runUnpk7Answer_ok.mp hu
  rfl

@[simp] theorem codecDraw_cfg (p : Pending) (s : State) : (codecDraw p s).cfg = s.cfg := by
  obtain hd | ⟨ans, hd⟩ := codecDraw_cases p s <;> rw [hd]

theorem blockMove_cfg (ht : blockMove s = .next t) : t.cfg = s.cfg := by
  cases hp : s.phase with
  | idle =>
    rw [blockMove_idle hp] at ht
    cases ht
    rfl
  | issued v => exact engineStart_cfg (blockMove_issued hp ▸ ht)
  | waiting p =>
    rw [blockMove_waiting hp] at ht
    cases ht
    exact codecDraw_cfg p s
  | answered p ans => exact engineFinish_cfg (blockMove_answered hp ▸ ht)

@[simp] theorem codecMove_cfg (n : Nat) (ans : CodecAnswer) (s : State) : (codecMove n ans s).cfg = s.cfg := by
  by_cases h : ∃ p, s.phase = .waiting p ∧ p.serial = n
  · obtain ⟨p, hp, rfl⟩ := h
    rw [codecMove_waiting hp]
  · rw [codecMove_discarded fun p hp hn => h ⟨p, hp, hn⟩]

theorem hostMove_cfg {m : HostMove} (ht : hostMove m s = .next t) : t.cfg = s.cfg := by
  obtain ⟨_, _, _, rfl⟩ | ⟨_, -, -, rfl⟩ | rfl | ⟨_, _, -, -, rfl⟩ | ⟨_, _, -, -, rfl⟩ := hostMove_effect ht <;> rfl

end Sys2Proof.Machine
end

section
/-! PROOFS. The statements of spec/20_memory.md: a field in two parts, the parameters, and the codec agent's moves. -/

namespace Sys2Proof.Machine

/-- Settles O7: the width is k plus the rest, and the split is by induction on the rest. -/
theorem getBitsSplits : Obligations.GetBitsSplits := by
  intro m p w k hk
  obtain ⟨r, rfl⟩ := Nat.exists_eq_add_of_le hk
  rw [Nat.add_sub_cancel_left]
  exact getBits_add m p k r

/-- Settles O55: no move of any of the three agents writes the parameters. -/
theorem parametersNeverChange : Obligations.ParametersNeverChange := by
  intro s t ht
  obtain ⟨-, l, ht⟩ | ⟨n, ans, rest, -, rfl⟩ | ⟨m, rest, -, ht⟩ := step_cases ht
  · exact (blockMove_cfg ht :)
  · exact codecMove_cfg n ans _
  · exact (hostMove_cfg ht :)

/-- Settles O56: the agent draws no answer or one, and an answer is taken only by the request of its serial number. -/
theorem codecAgentTouchesNothing : Obligations.CodecAgentTouchesNothing := by
  intro s t p n ans
  refine ⟨fun hp ht => ?_, fun hp => codecMove_waiting hp ans, fun h => codecMove_discarded h ans⟩
  rw [blockMove_waiting hp] at ht
  cases ht
  obtain hd | ⟨a, hd⟩ := codecDraw_cases p s <;> rw [hd]
  · exact ⟨.inl hp, rfl⟩
  · exact ⟨.inr ⟨a, rfl⟩, rfl⟩

end Sys2Proof.Machine
end

section
/-! SUPPORT. A CMD value by its fields (spec/30_encoding.md R111, R112), the table of R114 by its opcodes, and the decoder as the
inverse of the encoder (R115): what it makes of an encoding, and that every other value is ILLEGAL_CMD. -/

namespace Sys2Proof

/-! ### A value and its fields -/

/-- The word of format C with the given fields (R111). -/
def wordOf (opc : BitVec 8) (w : BitVec 7) (g : Bool) (rsv : BitVec 16) : BitVec 32 := opc ++ w ++ BitVec.ofBool g ++ rsv

/-- The CMD value of the given halves (R112). -/
def valueOf (hi word : BitVec 32) : BitVec 64 := hi ++ word

/-- A bit vector is its upper bits followed by its lower bits. -/
theorem exists_append {n k : Nat} (x : BitVec (n + k)) : ∃ (hi : BitVec n) (lo : BitVec k), x = hi ++ lo :=
  ⟨_, _, BitVec.extractLsb'_append_extractLsb'.symm⟩

theorem exists_valueOf (v : BitVec 64) : ∃ hi word, v = valueOf hi word := exists_append (n := 32) (k := 32) v

theorem exists_wordOf (word : BitVec 32) : ∃ opc w g rsv, word = wordOf opc w g rsv := by
  obtain ⟨upper, rsv, hword⟩ := exists_append (n := 16) (k := 16) word
  obtain ⟨opcW, flag, rfl⟩ := exists_append (n := 15) (k := 1) upper
  obtain ⟨opc, w, rfl⟩ := exists_append (n := 8) (k := 7) opcW
  have hflag : ∀ x : BitVec 1, ∃ g, x = BitVec.ofBool g := by decide
  obtain ⟨g, rfl⟩ := hflag flag
  exact ⟨opc, w, g, rsv, hword⟩

section Fields
variable (opc : BitVec 8) (w : BitVec 7) (g : Bool) (rsv : BitVec 16) (hi word : BitVec 32)

@[simp] theorem extract_opc_wordOf : (wordOf opc w g rsv).extractLsb' 24 8 = opc :=
  (BitVec.extractLsb'_append_eq_of_le (v := 16) (w := 16) (by decide)).trans <|
    (BitVec.extractLsb'_append_eq_of_le (v := 15) (w := 1) (by decide)).trans BitVec.extractLsb'_append_eq_left

@[simp] theorem widthOf_wordOf : widthOf (wordOf opc w g rsv) = w :=
  (BitVec.extractLsb'_append_eq_of_le (v := 16) (w := 16) (by decide)).trans <|
    (BitVec.extractLsb'_append_eq_of_le (v := 15) (w := 1) (by decide)).trans BitVec.extractLsb'_append_eq_right

@[simp] theorem flagOf_wordOf : flagOf (wordOf opc w g rsv) = g :=
  (BitVec.getLsbD_append (n := 16) (m := 16)).trans <| (BitVec.getLsbD_append (n := 15) (m := 1)).trans <| by cases g <;> rfl

@[simp] theorem rsvOf_wordOf : rsvOf (wordOf opc w g rsv) = rsv := BitVec.extractLsb'_append_eq_right

@[simp] theorem opcOf_wordOf : opcOf (wordOf opc w g rsv) = opc.toNat := by rw [opcOf, extract_opc_wordOf]

@[simp] theorem extract_hi_valueOf : (valueOf hi word).extractLsb' 32 32 = hi := BitVec.extractLsb'_append_eq_left

@[simp] theorem extract_word_valueOf : (valueOf hi word).extractLsb' 0 32 = word := BitVec.extractLsb'_append_eq_right

/-- A field of the lower half of a value is that field of its word. -/
theorem extract_valueOf {start len : Nat} (h : start + len ≤ 32) :
    (valueOf hi word).extractLsb' start len = word.extractLsb' start len := BitVec.extractLsb'_append_eq_of_add_le h

theorem getLsbD_valueOf : (valueOf hi word).getLsbD 16 = flagOf word := BitVec.getLsbD_append (n := 32) (m := 32)

end Fields

/-- A word has one opcode, one W, one G and one RSV. -/
theorem wordOf_inj {opc opc' : BitVec 8} {w w' : BitVec 7} {g g' : Bool} {rsv rsv' : BitVec 16} :
    wordOf opc w g rsv = wordOf opc' w' g' rsv' ↔ opc = opc' ∧ w = w' ∧ g = g' ∧ rsv = rsv' := by
  refine ⟨fun h => ⟨?_, ?_, ?_, ?_⟩, by rintro ⟨rfl, rfl, rfl, rfl⟩; rfl⟩
  · simpa using congrArg (BitVec.extractLsb' 24 8) h
  · simpa using congrArg widthOf h
  · simpa using congrArg flagOf h
  · simpa using congrArg rsvOf h

theorem valueOf_inj {hi hi' word word' : BitVec 32} : valueOf hi word = valueOf hi' word' ↔ hi = hi' ∧ word = word' := by
  refine ⟨fun h => ⟨?_, ?_⟩, by rintro ⟨rfl, rfl⟩; rfl⟩
  · simpa using congrArg (BitVec.extractLsb' 32 32) h
  · simpa using congrArg (BitVec.extractLsb' 0 32) h

theorem setWidth_eq_valueOf (word : BitVec 32) : word.setWidth 64 = valueOf 0#32 word := BitVec.setWidth_eq_append (by decide)

theorem encodeWord_eq_wordOf (i : Instr) : encodeWord i = wordOf i.opcode i.fieldW i.fieldG 0#16 := rfl

theorem encode_eq_valueOf (i : Instr) : encode i = valueOf 0#32 (encodeWord i) := setWidth_eq_valueOf _

/-- A word is a command's word exactly when it has the command's fields and no reserved bit set. -/
theorem wordOf_eq_encodeWord {opc : BitVec 8} {w : BitVec 7} {g : Bool} {rsv : BitVec 16} {i : Instr} :
    wordOf opc w g rsv = encodeWord i ↔ opc = i.opcode ∧ w = i.fieldW ∧ g = i.fieldG ∧ rsv = 0#16 := wordOf_inj

theorem valueOf_eq_encode {hi word : BitVec 32} {i : Instr} :
    valueOf hi word = encode i ↔ hi = 0#32 ∧ word = encodeWord i := by
  rw [encode_eq_valueOf, valueOf_inj]

/-- A value is a command's encoding exactly when it has the command's opcode, W and G, and zeros everywhere else. -/
theorem eq_encode_iff {v : BitVec 64} {i : Instr} :
    v = encode i ↔ v.extractLsb' 32 32 = 0#32 ∧ v.extractLsb' 24 8 = i.opcode ∧ v.extractLsb' 17 7 = i.fieldW ∧
      v.getLsbD 16 = i.fieldG ∧ v.extractLsb' 0 16 = 0#16 := by
  obtain ⟨hi, word, rfl⟩ := exists_valueOf v
  obtain ⟨opc, w, g, rsv, rfl⟩ := exists_wordOf word
  have hw : (wordOf opc w g rsv).extractLsb' 17 7 = w := widthOf_wordOf ..
  have hrsv : (wordOf opc w g rsv).extractLsb' 0 16 = rsv := rsvOf_wordOf ..
  rw [valueOf_eq_encode, wordOf_eq_encodeWord, extract_hi_valueOf, extract_valueOf _ _ (by decide), extract_opc_wordOf,
    extract_valueOf _ _ (by decide), hw, getLsbD_valueOf, flagOf_wordOf, extract_valueOf _ _ (by decide), hrsv]

/-! ### The table of R114 -/

/-- One command of every row of R114. -/
def rows : List Instr :=
  [.nop, .gbit 0, .gbits 0, .sbit 0, .sbits 0, .rdieee, .mkieee, .unpk0, .unpk1, .unpk2, .unpk3 false, .unpk4, .unpk5, .unpk6,
    .unpk7, .chkend, .skipsec]

/-- The assigned opcodes (R114). -/
def assignedOpcodes : List (BitVec 8) := rows.map Instr.opcode

/-- The opcodes of the four commands with a width (R114). -/
def wideOpcodes : List (BitVec 8) := [0x01, 0x02, 0x03, 0x04]

/-- The command of the same row with width w and flag g, where the row has them. -/
def Instr.withImmediates (w : BitVec 7) (g : Bool) : Instr → Instr
  | .gbit _ => .gbit w
  | .gbits _ => .gbits w
  | .sbit _ => .sbit w
  | .sbits _ => .sbits w
  | .unpk3 _ => .unpk3 g
  | i => i

/-- The form of a command's row: what `formOf` gives for its opcode. -/
def Instr.form : Instr → Form
  | .gbit _ => .width .gbit
  | .gbits _ => .width .gbits
  | .sbit _ => .width .sbit
  | .sbits _ => .width .sbits
  | .unpk3 _ => .flag .unpk3
  | i => .plain i

theorem formOf_opcode (i : Instr) : formOf i.opcode.toNat = some i.form := by cases i <;> rfl

theorem exists_opcode_eq {opc : BitVec 8} (h : opc ∈ assignedOpcodes) : ∃ i : Instr, i.opcode = opc := by
  obtain ⟨i, -, hi⟩ := List.mem_map.mp h
  exact ⟨i, hi⟩

theorem formOf_unassigned {opc : BitVec 8} (h : opc ∉ assignedOpcodes) : formOf opc.toNat = none := by
  have hall : ∀ opc : BitVec 8, opc ∉ assignedOpcodes → (formOf opc.toNat).isNone = true := by decide
  exact Option.isNone_iff_eq_none.mp (hall opc h)

section Immediates
variable (i : Instr) (w : BitVec 7) (g : Bool)

@[simp] theorem Instr.withImmediates_self : i.withImmediates i.fieldW i.fieldG = i := by cases i <;> rfl
@[simp] theorem Instr.opcode_withImmediates : (i.withImmediates w g).opcode = i.opcode := by cases i <;> rfl
@[simp] theorem Instr.mnemonic_withImmediates : (i.withImmediates w g).mnemonic = i.mnemonic := by cases i <;> rfl
@[simp] theorem Instr.matchRow_withImmediates : (i.withImmediates w g).matchRow = i.matchRow := by cases i <;> rfl

/-- Only the four commands with a width have a W field. -/
theorem Instr.fieldW_withImmediates : (i.withImmediates w g).fieldW = if i.opcode ∈ wideOpcodes then w else 0 := by
  cases i <;> rfl

/-- Only UNPK3 has a G field. -/
theorem Instr.fieldG_withImmediates : (i.withImmediates w g).fieldG = (decide (i.opcode = 0x13) && g) := by
  cases i <;> rfl

variable {i g w} in
theorem Instr.fieldW_withImmediates_of (h : i.opcode ∉ wideOpcodes → w = 0) : (i.withImmediates w g).fieldW = w := by
  rw [fieldW_withImmediates]
  split
  case isTrue => rfl
  case isFalse hwide => exact (h hwide).symm

variable {i g w} in
theorem Instr.fieldG_withImmediates_of (h : i.opcode ≠ 0x13 → g = false) : (i.withImmediates w g).fieldG = g := by
  rw [fieldG_withImmediates]
  by_cases hflag : i.opcode = 0x13
  · simp [hflag]
  · simp [h hflag]

variable {i} in
theorem Instr.fieldW_eq_zero (h : i.opcode ∉ wideOpcodes) : i.fieldW = 0 := by
  rw [← i.withImmediates_self, fieldW_withImmediates, if_neg h]

variable {i} in
theorem Instr.fieldG_eq_false (h : i.opcode ≠ 0x13) : i.fieldG = false := by
  rw [← i.withImmediates_self, fieldG_withImmediates, decide_eq_false h, Bool.false_and]

theorem Instr.withImmediates_mem_rows : i.withImmediates 0 false ∈ rows := by
  cases i <;> dsimp only [Instr.withImmediates] <;> decide

theorem Instr.opcode_mem_assigned : i.opcode ∈ assignedOpcodes :=
  List.mem_map.mpr ⟨_, i.withImmediates_mem_rows, i.opcode_withImmediates 0 false⟩

/-- What holds of one command of every row holds of every command, when it depends on the row alone. -/
theorem Instr.forall_of_rows {P : BitVec 8 → String → MatchRow → Prop}
    (h : ∀ j ∈ rows, P j.opcode j.mnemonic j.matchRow) : P i.opcode i.mnemonic i.matchRow := by
  simpa using h _ i.withImmediates_mem_rows

/-- The mnemonic names the row. -/
theorem Instr.matchRow_eq_of_mnemonic {i j : Instr} : i.mnemonic = j.mnemonic → i.matchRow = j.matchRow := by
  have hrows : ∀ i ∈ rows, ∀ j ∈ rows, i.mnemonic = j.mnemonic → i.matchRow = j.matchRow := by decide
  exact i.forall_of_rows (P := fun _ n r => n = j.mnemonic → r = j.matchRow) fun i hi =>
    j.forall_of_rows (P := fun _ n r => i.mnemonic = n → i.matchRow = r) (hrows i hi)

theorem Instr.wf_iff (maxW : Nat) : i.wf maxW = true ↔ (i.opcode ∈ wideOpcodes → i.fieldW.toNat ≤ maxW) := by
  cases i <;> simp [Instr.wf, Instr.opcode, Instr.fieldW, wideOpcodes]

/-- The row's pattern is its opcode alone. -/
theorem Instr.matchRow_pattern : i.matchRow.pattern = wordOf i.opcode 0 false 0#16 :=
  i.forall_of_rows (P := fun opc _ r => r.pattern = wordOf opc 0 false 0#16) (by decide)

/-- The row's mask leaves out W where the row has a width, and G where the row has a flag. -/
theorem Instr.matchRow_mask :
    i.matchRow.mask = wordOf 0xFF (if i.opcode ∈ wideOpcodes then 0 else 0x7F) (i.opcode ≠ 0x13) 0xFFFF :=
  i.forall_of_rows (P := fun opc _ r => r.mask = wordOf 0xFF (if opc ∈ wideOpcodes then 0 else 0x7F) (opc ≠ 0x13) 0xFFFF)
    (by decide)

theorem Instr.mask_wide_iff : i.matchRow.mask = 0xFF01FFFF ↔ i.opcode ∈ wideOpcodes :=
  i.forall_of_rows (P := fun opc _ r => r.mask = 0xFF01FFFF ↔ opc ∈ wideOpcodes) (by decide)

end Immediates

/-- R115's checks on bits 63:32, the opcode, RSV, W and G: a value that passes them is an encoding, and every encoding does. -/
theorem exists_encode_iff {v : BitVec 64} :
    (∃ i, v = encode i) ↔ v.extractLsb' 32 32 = 0 ∧ v.extractLsb' 24 8 ∈ assignedOpcodes ∧ v.extractLsb' 0 16 = 0 ∧
      (v.extractLsb' 24 8 ∉ wideOpcodes → v.extractLsb' 17 7 = 0) ∧
      (v.extractLsb' 24 8 ≠ 0x13 → v.getLsbD 16 = false) := by
  constructor
  · rintro ⟨i, hv⟩
    obtain ⟨hhi, hopc, hw, hg, hrsv⟩ := eq_encode_iff.mp hv
    rw [hopc, hw, hg]
    exact ⟨hhi, i.opcode_mem_assigned, hrsv, Instr.fieldW_eq_zero, Instr.fieldG_eq_false⟩
  · rintro ⟨hhi, hopc, hrsv, hw, hg⟩
    obtain ⟨i, hi⟩ := exists_opcode_eq hopc
    rw [← hi] at hw hg
    exact ⟨i.withImmediates (v.extractLsb' 17 7) (v.getLsbD 16), eq_encode_iff.mpr ⟨hhi, by rw [i.opcode_withImmediates, hi],
      (Instr.fieldW_withImmediates_of hw).symm, (Instr.fieldG_withImmediates_of hg).symm, hrsv⟩⟩

/-! ### Match and mask -/

theorem wordOf_and (opc opc' : BitVec 8) (w w' : BitVec 7) (g g' : Bool) (rsv rsv' : BitVec 16) :
    wordOf opc w g rsv &&& wordOf opc' w' g' rsv' = wordOf (opc &&& opc') (w &&& w') (g && g') (rsv &&& rsv') := by
  have hflag : BitVec.ofBool g &&& BitVec.ofBool g' = BitVec.ofBool (g && g') := by cases g <;> cases g' <;> rfl
  unfold wordOf
  rw [← hflag, ← BitVec.and_append, ← BitVec.and_append]
  exact BitVec.and_append (w := 16) (v := 16)

/-- R114: a word has a row's match under the row's mask exactly when it is the word of the row's command with the W and G
that stand in it. -/
theorem matches_iff (word : BitVec 32) (i : Instr) :
    word &&& i.matchRow.mask = i.matchRow.pattern ↔ word = encodeWord (i.withImmediates (widthOf word) (flagOf word)) := by
  obtain ⟨opc, w, g, rsv, rfl⟩ := exists_wordOf word
  have hopc : opc &&& 0xFF = opc := BitVec.and_allOnes
  have hrsv : rsv &&& 0xFFFF = rsv := BitVec.and_allOnes
  have hw : (w &&& if i.opcode ∈ wideOpcodes then 0 else 0x7F) = 0 ↔ w = if i.opcode ∈ wideOpcodes then w else 0 := by
    have hall : w &&& 0x7F = w := BitVec.and_allOnes
    split
    case isTrue => simp
    case isFalse => rw [hall]
  have hg : (g && decide (i.opcode ≠ 0x13)) = false ↔ g = (decide (i.opcode = 0x13) && g) := by cases g <;> simp
  rw [i.matchRow_mask, i.matchRow_pattern, wordOf_and, wordOf_inj, wordOf_eq_encodeWord, widthOf_wordOf, flagOf_wordOf,
    Instr.opcode_withImmediates, Instr.fieldW_withImmediates, Instr.fieldG_withImmediates, hopc, hrsv, hw, hg]

theorem encodeWord_matches (i : Instr) : encodeWord i &&& i.matchRow.mask = i.matchRow.pattern := by
  rw [matches_iff, encodeWord_eq_wordOf, widthOf_wordOf, flagOf_wordOf, Instr.withImmediates_self, encodeWord_eq_wordOf]

/-! ### The decoder -/

theorem finishDecode_plain (maxW : Nat) (w : BitVec 7) (g : Bool) (i : Instr) :
    finishDecode maxW w g (.plain i) = if w = 0 ∧ g = false then .ok i else .error .illegalCmd := by
  cases g <;> by_cases hw : w = 0 <;> simp [finishDecode, hw]

theorem finishDecode_flag (maxW : Nat) (w : BitVec 7) (g : Bool) (mk : Bool → Instr) :
    finishDecode maxW w g (.flag mk) = if w = 0 then .ok (mk g) else .error .illegalCmd := ite_not ..

theorem finishDecode_width (maxW : Nat) (w : BitVec 7) (g : Bool) (mk : BitVec 7 → Instr) :
    finishDecode maxW w g (.width mk) =
      if g = false then if w.toNat ≤ maxW then .ok (mk w) else .error .illegalWidth else .error .illegalCmd := by
  cases g <;> by_cases hw : w.toNat ≤ maxW <;> simp [finishDecode, hw]

/-- The checks of W and G accept the immediates of the row's command alone, and that command when it is well-formed. -/
theorem finishDecode_form (maxW : Nat) (w : BitVec 7) (g : Bool) (i : Instr) :
    finishDecode maxW w g i.form =
      if w = (i.withImmediates w g).fieldW ∧ g = (i.withImmediates w g).fieldG then
        if (i.withImmediates w g).wf maxW then .ok (i.withImmediates w g) else .error .illegalWidth
      else .error .illegalCmd := by
  cases i <;> simp [Instr.form, Instr.withImmediates, finishDecode_plain, finishDecode_flag, finishDecode_width, Instr.fieldW,
    Instr.fieldG, Instr.wf]

theorem decode_valueOf_of_form {maxW : Nat} {opc : BitVec 8} {form : Form} (h : formOf opc.toNat = some form) (w : BitVec 7)
    (g : Bool) : decode maxW (valueOf 0#32 (wordOf opc w g 0#16)) = finishDecode maxW w g form := by
  simp [decode, h]

/-- An encoding decodes to its command, or to ILLEGAL_WIDTH when the width is above MAX_W. -/
theorem decode_encode (maxW : Nat) (i : Instr) :
    decode maxW (encode i) = if i.wf maxW then .ok i else .error .illegalWidth := by
  rw [encode_eq_valueOf, encodeWord_eq_wordOf, decode_valueOf_of_form (formOf_opcode i), finishDecode_form,
    Instr.withImmediates_self, if_pos ⟨rfl, rfl⟩]

/-- A value that encodes no command is ILLEGAL_CMD. -/
theorem decode_of_ne_encode (maxW : Nat) {v : BitVec 64} (h : ∀ i, v ≠ encode i) : decode maxW v = .error .illegalCmd := by
  obtain ⟨hi, word, rfl⟩ := exists_valueOf v
  obtain ⟨opc, w, g, rsv, rfl⟩ := exists_wordOf word
  by_cases hhi : hi = 0#32
  case neg => simp [decode, hhi]
  by_cases hopc : opc ∈ assignedOpcodes
  case neg => simp [decode, hhi, formOf_unassigned hopc]
  obtain ⟨i, rfl⟩ := exists_opcode_eq hopc
  by_cases hrsv : rsv = 0#16
  case neg => simp [decode, hhi, formOf_opcode, hrsv]
  subst hhi hrsv
  rw [decode_valueOf_of_form (formOf_opcode i), finishDecode_form, if_neg]
  rintro ⟨hw, hg⟩
  exact h (i.withImmediates w g) (valueOf_eq_encode.mpr ⟨rfl, wordOf_eq_encodeWord.mpr ⟨by simp, hw, hg, rfl⟩⟩)

/-- What a value decodes to is well-formed, and the value is its encoding. -/
theorem decode_eq_ok_iff {maxW : Nat} {v : BitVec 64} {i : Instr} :
    decode maxW v = .ok i ↔ v = encode i ∧ i.wf maxW = true := by
  refine ⟨fun hd => ?_, fun ⟨hv, hwf⟩ => by rw [hv, decode_encode, if_pos hwf]⟩
  obtain ⟨j, rfl⟩ : ∃ j, v = encode j := by
    by_contra hne
    rw [decode_of_ne_encode maxW (not_exists.mp hne)] at hd
    cases hd
  rw [decode_encode] at hd
  split at hd
  case isTrue hwf => cases hd; exact ⟨rfl, hwf⟩
  case isFalse => cases hd

end Sys2Proof
end

section
/-! PROOFS. The statements of spec/30_encoding.md: the decoder and the encoder are inverse, match and mask, the checks in
order, and the sample words. -/

namespace Sys2Proof.Machine

/-- Settles O1: an encoding has the fields of its command, and the decoder's checks let them through. -/
theorem decodeInvertsEncode : Obligations.DecodeInvertsEncode :=
  fun _ _ hwf => decode_eq_ok_iff.mpr ⟨rfl, hwf⟩

/-- Settles O2: a value that is no encoding is ILLEGAL_CMD, and an encoding decodes to its own command alone. -/
theorem onlyEncodingsDecode : Obligations.OnlyEncodingsDecode :=
  fun _ _ _ hd => decode_eq_ok_iff.mp hd

/-- Settles O3: a word with a row's match under its mask is the encoding of the row's command with the word's own W and G. -/
theorem wordsDecodeByMatchAndMask : Obligations.WordsDecodeByMatchAndMask := by
  intro maxW word
  rw [setWidth_eq_valueOf]
  refine ⟨fun i => ⟨?_, ?_⟩, fun hno => decode_of_ne_encode maxW fun i hv => ?_⟩
  · rintro ⟨j, hd, hij⟩
    obtain ⟨hv, hwf⟩ := decode_eq_ok_iff.mp hd
    obtain ⟨-, rfl⟩ := valueOf_eq_encode.mp hv
    have hwidth : (encodeWord j).extractLsb' 17 7 = j.fieldW := widthOf_wordOf ..
    rw [← Instr.matchRow_eq_of_mnemonic hij, Instr.mask_wide_iff, hwidth]
    exact ⟨encodeWord_matches j, (j.wf_iff maxW).mp hwf⟩
  · rintro ⟨hmatch, hwidth⟩
    have hword := (matches_iff word i).mp hmatch
    refine ⟨_, decode_eq_ok_iff.mpr ⟨valueOf_eq_encode.mpr ⟨rfl, hword⟩, ?_⟩, i.mnemonic_withImmediates _ _⟩
    rw [Instr.mask_wide_iff] at hwidth
    rw [Instr.wf_iff, Instr.opcode_withImmediates, Instr.fieldW_withImmediates]
    intro hwide
    rw [if_pos hwide]
    exact hwidth hwide
  · obtain ⟨-, rfl⟩ := valueOf_eq_encode.mp hv
    exact hno i (encodeWord_matches i)

/-- An error of class 1 to 4 of the decoder is what the engine's first step reports. -/
theorem engineStart_error {s : State} {v : Word} {e : DecodeError} {c : ErrorCode} (hd : decode s.cfg.maxW.bits v = .error e)
    (hc : decodeRaise e = .error c) : engineStart v s = .next (s.failed c) := by
  rw [engineStart_undecoded hd, hc]
  rfl

/-- Settles O4: a failed check of ILLEGAL_CMD leaves no command that the value could encode; with all of them passed, the value
encodes the command of its opcode with its W and G, which is well-formed unless the width is above MAX_W. -/
theorem decoderChecksInOrder : Obligations.DecoderChecksInOrder := by
  intro s v opc w wide illegal
  have hillegal (h : ¬∃ i, v = encode i) : illegal :=
    have hd := decode_of_ne_encode s.cfg.maxW.bits (not_exists.mp h)
    ⟨hd, engineStart_error hd rfl⟩
  rw [exists_encode_iff] at hillegal
  split
  case isTrue hhi => exact hillegal fun ⟨h, _⟩ => hhi h
  case isFalse hhi =>
  split
  case isTrue hopc => exact hillegal fun ⟨_, h, _⟩ => hopc h
  case isFalse hopc =>
  split
  case isTrue hrsv => exact hillegal fun ⟨_, _, h, _⟩ => hrsv h
  case isFalse hrsv =>
  split
  case isTrue hw => exact hillegal fun ⟨_, _, _, h, _⟩ => hw.2 (h hw.1)
  case isFalse hw =>
  split
  case isTrue hg => exact hillegal fun ⟨_, _, _, _, h⟩ => Bool.eq_false_iff.mp (h hg.1) hg.2
  case isFalse hg =>
  obtain ⟨i, hv⟩ : ∃ i, v = encode i := exists_encode_iff.mpr
    ⟨not_not.mp hhi, not_not.mp hopc, not_not.mp hrsv, fun h => by_contra fun h' => hw ⟨h, h'⟩,
      fun h => Bool.eq_false_iff.mpr fun h' => hg ⟨h, h'⟩⟩
  obtain ⟨-, hopcode, hfieldW, hfieldG, -⟩ := eq_encode_iff.mp hv
  have hdecode : decode s.cfg.maxW.bits v = if i.wf s.cfg.maxW.bits then .ok i else .error .illegalWidth :=
    hv ▸ decode_encode _ i
  have hwf : i.wf s.cfg.maxW.bits = true ↔ (wide → w.toNat ≤ s.cfg.maxW.bits) := by
    rw [Instr.wf_iff, ← hopcode, ← hfieldW]
    rfl
  split
  case isTrue hwide =>
    rw [if_neg fun h => Nat.not_le.mpr hwide.2 (hwf.mp h hwide.1)] at hdecode
    exact ⟨hdecode, engineStart_error hdecode rfl⟩
  case isFalse hwide =>
    rw [if_pos (hwf.mpr fun h => Nat.not_lt.mp fun h' => hwide ⟨h, h'⟩)] at hdecode
    exact ⟨i, hdecode, hopcode.symm, hfieldW.symm, hfieldG.symm, engineStart_decoded hdecode⟩

/-- Settles O5: by evaluation of the decoder, the encoder and the assembler text on each word. -/
theorem sampleWordsDecode : Obligations.SampleWordsDecode := by
  unfold Obligations.SampleWordsDecode
  decide

end Sys2Proof.Machine
end

section
/-! SUPPORT. Fields side by side in M (spec/40_bitio.md R144, R146): where the fields of a batch lie, and what writing a batch
leaves in each field and outside the fields; a run of cells written in A. -/

namespace Sys2Proof.Machine

/-! ### Positions of batched fields -/

/-- A field of a batch ends before a later one starts (R146: fields never overlap). -/
theorem fieldPos_add_le {p0 w skip i j : Nat} (h : i < j) : fieldPos p0 w skip i + w ≤ fieldPos p0 w skip j := by
  have hstep : (i + 1) * (w + skip) ≤ j * (w + skip) := Nat.mul_le_mul_right _ h
  rw [Nat.succ_mul] at hstep
  unfold fieldPos
  omega

/-- A bit of one field of a batch lies in no other field. -/
theorem not_inField_fieldPos {p0 w skip i j q : Nat} (h : i ≠ j) (hq : InField (fieldPos p0 w skip i) w q) :
    ¬InField (fieldPos p0 w skip j) w q := by
  unfold InField at *
  rcases Nat.lt_or_gt_of_ne h with hij | hji
  · have := fieldPos_add_le (p0 := p0) (w := w) (skip := skip) hij
    omega
  · have := fieldPos_add_le (p0 := p0) (w := w) (skip := skip) hji
    omega

/-- A byte that holds no bit of a field has all its bits outside the field. -/
theorem not_inField_of_byteOutside {p w a q : Nat} (ha : ByteOutside p w a) (hq : q / 8 = a) : ¬InField p w q := by
  unfold ByteOutside at ha
  unfold InField
  omega

/-- Bit j of a field, the first the most significant, is a bit of the field's value. -/
theorem bitM_eq_testBit_getBits (m : Memory) {p w j : Nat} (hj : j < w) :
    bitM m (p + j) = (getBits m p w).testBit (w - 1 - j) := by
  rw [testBit_getBits, decide_eq_true (by omega), Bool.true_and, show w - 1 - (w - 1 - j) = j by omega]

/-! ### After a batch of field writes -/

/-- A field write leaves every bit outside the field. -/
theorem bitM_setBits_outside {m : Memory} (h : Memory.wf m = true) {p w q : Nat} (v : Nat) (hq : ¬InField p w q) :
    bitM (setBits m p w v) q = bitM m q :=
  (bitM_setBits h p w v q).trans (if_neg hq)

/-- Writing batched fields leaves every bit outside the fields, the SKIP bits among them. -/
theorem bitM_writeFields_outside {m : Memory} (h : Memory.wf m = true) {p0 w skip i q : Nat} {cs : List Word}
    (hq : ∀ j, i ≤ j → j < i + cs.length → ¬InField (fieldPos p0 w skip j) w q) :
    bitM (writeFields m p0 w skip i cs) q = bitM m q := by
  induction cs generalizing m i with
  | nil => rfl
  | cons c cs ih =>
    simp only [List.length_cons] at hq
    rw [writeFields, ih (wf_setBits h _ _ _) fun j hi hj => hq j (by omega) (by omega),
      bitM_setBits_outside h _ (hq i le_rfl (by omega))]

/-- Each field of a batch just written reads back as the low w bits of its cell: the later writes lie outside it. -/
theorem getBits_writeFields {m : Memory} (h : Memory.wf m = true) {p0 w skip i j : Nat} {cs : List Word} (hj : j < cs.length) :
    getBits (writeFields m p0 w skip i cs) (fieldPos p0 w skip (i + j)) w = cs[j].toNat % 2 ^ w := by
  induction cs generalizing m i j with
  | nil => exact absurd hj (Nat.not_lt_zero j)
  | cons c cs ih =>
    rw [writeFields]
    have hwf := wf_setBits h (fieldPos p0 w skip i) w c.toNat
    cases j with
    | zero =>
      rw [getBits_congr fun q hp hq => bitM_writeFields_outside hwf fun k hk _ =>
        not_inField_fieldPos (by omega : i + 0 ≠ k) ⟨hp, hq⟩]
      exact getBits_setBits_same h _ w _
    | succ j => rw [← Nat.add_assoc, Nat.add_right_comm]; exact ih hwf (Nat.lt_of_succ_lt_succ hj)

/-! ### After a batch written from cells of A -/

section Batch

variable {m : Memory} {p0 w skip n : Nat} (arr : Sparse 64) (src : Nat)

/-- A bit outside the n fields of a batch is as before. -/
theorem bitM_writeFields_readRun_outside (h : Memory.wf m = true) {q : Nat}
    (hq : ∀ i, i < n → ¬InField (fieldPos p0 w skip i) w q) :
    bitM (writeFields m p0 w skip 0 (Sparse.readRun arr src n)) q = bitM m q :=
  bitM_writeFields_outside h fun i _ hi => hq i (by simpa using hi)

/-- A byte that holds no bit of the n fields of a batch is as before. -/
theorem read_writeFields_readRun_outside (h : Memory.wf m = true) {a : Nat}
    (ha : ∀ i, i < n → ByteOutside (fieldPos p0 w skip i) w a) :
    Sparse.read (writeFields m p0 w skip 0 (Sparse.readRun arr src n)) a = Sparse.read m a :=
  read_congr_bits fun _ hq => bitM_writeFields_readRun_outside arr src h fun i hi => not_inField_of_byteOutside (ha i hi) hq

/-- Field i of a batch reads back as the low w bits of its cell. -/
theorem getBits_writeFields_readRun (h : Memory.wf m = true) {i : Nat} (hi : i < n) :
    getBits (writeFields m p0 w skip 0 (Sparse.readRun arr src n)) (fieldPos p0 w skip i) w =
      (Sparse.read arr (src + i)).toNat % 2 ^ w := by
  have hlen : i < (Sparse.readRun arr src n).length := by simpa using hi
  have hfield := getBits_writeFields h (p0 := p0) (w := w) (skip := skip) (i := 0) hlen
  rwa [Nat.zero_add, Sparse.getElem_readRun] at hfield

/-- The bits of field i of a batch are the low w bits of its cell, the most significant first. -/
theorem bitM_writeFields_readRun (h : Memory.wf m = true) {i j : Nat} (hi : i < n) (hj : j < w) :
    bitM (writeFields m p0 w skip 0 (Sparse.readRun arr src n)) (fieldPos p0 w skip i + j) =
      (Sparse.read arr (src + i)).toNat.testBit (w - 1 - j) := by
  rw [bitM_eq_testBit_getBits _ hj, getBits_writeFields_readRun arr src h hi, Nat.testBit_mod_two_pow,
    decide_eq_true (by omega), Bool.true_and]

end Batch

/-! ### A run of cells -/

/-- A run of values written from cell d on stands in its cells, and every other cell is as before. -/
theorem cellsWritten_writeRun {arr : Sparse 64} (h : Sparse.wf arr = true) (d : Nat) (vals : List Word) :
    CellsWritten arr (Sparse.writeRun arr d vals) d vals := by
  refine ⟨fun j hj => ?_, fun i hi => ?_⟩
  · rw [Sparse.read_writeRun h, if_pos (by omega), Nat.add_sub_cancel_left]
  · rw [Sparse.read_writeRun h, if_neg (by omega)]

/-- Cell d + i holds field i of a batch that was read into A from cell d on. -/
theorem read_writeRun_readFields {arr : Sparse 64} (h : Sparse.wf arr = true) {m : Memory} {p0 w skip n d i : Nat} (hi : i < n) :
    Sparse.read (Sparse.writeRun arr d (readFields m p0 w skip n)) (d + i) = zext64 (getBits m (fieldPos p0 w skip i) w) := by
  rw [(cellsWritten_writeRun h d _).1 i (by simpa using hi)]
  simp [readFields, hi]

end Sys2Proof.Machine
end

section
/-! SUPPORT. How the bit-I/O commands end (spec/40_bitio.md R140-R144, R146): each one's success with the state written out, and
each of its errors; the word of a command without the flag G. -/

namespace Sys2Proof.Machine

/-! ### The end of a command -/

variable {s t : State} {i : Instr}

theorem exec_of_ok (h : runOf i s = .ok t) : exec i s = .next t := exec_next.mpr (.inl h)

theorem exec_of_error {e : ErrorCode} (h : runOf i s = .error (.error e)) : exec i s = .next (s.failed e) :=
  exec_next.mpr (.inr ⟨_, h, rfl⟩)

theorem exec_of_oob {a : Nat} (h : runOf i s = .error (.oob a)) : exec i s = .next (s.faulted a) :=
  exec_next.mpr (.inr ⟨_, h, rfl⟩)

/-- The word of a command whose bit G is 0. -/
theorem encodeWord_of_fieldG (h : i.fieldG = false) : encodeWord i = i.opcode ++ i.fieldW ++ 0#17 := by
  rw [encodeWord, h, BitVec.append_assoc]
  rfl

/-! ### Checks that fail -/

theorem needSpace_of_lt {d n : Nat} (h : s.cfg.aCells < d + n) : needSpace s d n = .error (.error .noSpace) :=
  need_error.mpr ⟨decide_eq_false (Nat.not_le.mpr h), rfl⟩

theorem needSource_of_lt {q n : Nat} (h : s.cfg.aCells < q + n) : needSource s q n = .error (.error .srcRange) :=
  need_error.mpr ⟨decide_eq_false (Nat.not_le.mpr h), rfl⟩

theorem checkM_of_not_fieldInM {p w : Nat} (h : ¬FieldInM s p w) :
    checkM s p w = .error (.oob (max (p / 8) s.cfg.bufBytes)) := by
  obtain ⟨hw, hp⟩ := not_or.mp h
  exact checkM_error.mpr ⟨hw, Nat.not_lt.mp hp, rfl⟩

theorem checkFields_of_batchInM {w skip n : Nat} (h : BatchInM s w skip n) :
    checkFields s s.bitoff w skip 0 n = .ok () :=
  checkFields_ok.mpr fun j _ hj => h j (by omega)

/-- R146: the first field of a batch that reaches past M raises. -/
theorem checkFields_of_first {w skip n k : Nat} (hk : k < n) (hin : BatchInM s w skip k)
    (hout : ¬FieldInM s (fieldPos s.bitoff w skip k) w) :
    checkFields s s.bitoff w skip 0 n = .error (.oob (max (fieldPos s.bitoff w skip k / 8) s.cfg.bufBytes)) := by
  obtain ⟨hw, hp⟩ := not_or.mp hout
  exact checkFields_error.mpr
    ⟨k, Nat.zero_le k, by omega, hw, fun j _ hj => (hin j hj).resolve_left hw, Nat.not_lt.mp hp, rfl⟩

/-! ### GBIT and SBIT -/

variable {w : BitVec 7}

/-- GBIT of a field in M (R141). -/
theorem exec_gbit_ok (h : FieldInM s s.bitoff w.toNat) :
    exec (.gbit w) s = .next ((s.setResult (getBits s.mem s.bitoff w.toNat)).endedAt (s.bitoff + w.toNat) 0) :=
  exec_of_ok (runGbit_ok.mpr ⟨h, rfl⟩)

theorem exec_gbit_oob (h : ¬FieldInM s s.bitoff w.toNat) :
    exec (.gbit w) s = .next (s.faulted (max (s.bitoff / 8) s.cfg.bufBytes)) :=
  exec_of_oob (error_bind (checkM_of_not_fieldInM h))

/-- SBIT of a field in M (R143). -/
theorem exec_sbit_ok (h : FieldInM s s.bitoff w.toNat) :
    exec (.sbit w) s = .next ((s.setMem (setBits s.mem s.bitoff w.toNat s.value)).endedAt (s.bitoff + w.toNat) 0) :=
  exec_of_ok (runSbit_ok.mpr ⟨h, rfl⟩)

theorem exec_sbit_oob (h : ¬FieldInM s s.bitoff w.toNat) :
    exec (.sbit w) s = .next (s.faulted (max (s.bitoff / 8) s.cfg.bufBytes)) :=
  exec_of_oob (error_bind (checkM_of_not_fieldInM h))

/-! ### GBITS and SBITS -/

/-- The commit of a command that returns cells and NEXTOFF. -/
theorem commit_setNextoff (s : State) (p d : Nat) (out : List Word) :
    (s.setNextoff p).commit .ok d out 0 0 = { s.endedAt p out.length with arr := Sparse.writeRun s.arr d out } := rfl

/-- GBITS of a batch in M, with room in A (R142). -/
theorem exec_gbits_ok (hspace : s.dst + s.count ≤ s.cfg.aCells) (h : BatchInM s w.toNat s.skip s.count) :
    exec (.gbits w) s = .next { s.endedAt (fieldPos s.bitoff w.toNat s.skip s.count) s.count with
      arr := Sparse.writeRun s.arr s.dst (readFields s.mem s.bitoff w.toNat s.skip s.count) } := by
  refine exec_of_ok (runGbits_ok.mpr ⟨hspace, h, ?_⟩)
  rw [commit_setNextoff, length_readFields]

theorem exec_gbits_noSpace (h : s.cfg.aCells < s.dst + s.count) : exec (.gbits w) s = .next (s.failed .noSpace) :=
  exec_of_error (error_bind (needSpace_of_lt h))

theorem exec_gbits_oob (hspace : s.dst + s.count ≤ s.cfg.aCells) {k : Nat} (hk : k < s.count)
    (hin : BatchInM s w.toNat s.skip k) (hout : ¬FieldInM s (fieldPos s.bitoff w.toNat s.skip k) w.toNat) :
    exec (.gbits w) s = .next (s.faulted (max (fieldPos s.bitoff w.toNat s.skip k / 8) s.cfg.bufBytes)) :=
  exec_of_oob ((ok_bind (a := ()) (needSpace_ok.mpr hspace)).trans (error_bind (checkFields_of_first hk hin hout)))

/-- SBITS of a batch in M, with its cells in A (R144). -/
theorem exec_sbits_ok (hsrc : s.src + s.count ≤ s.cfg.aCells) (h : BatchInM s w.toNat s.skip s.count) :
    exec (.sbits w) s = .next ((s.setMem
      (writeFields s.mem s.bitoff w.toNat s.skip 0 (Sparse.readRun s.arr s.src s.count))).endedAt
        (fieldPos s.bitoff w.toNat s.skip s.count) 0) :=
  exec_of_ok (runSbits_ok.mpr ⟨hsrc, h, rfl⟩)

theorem exec_sbits_srcRange (h : s.cfg.aCells < s.src + s.count) : exec (.sbits w) s = .next (s.failed .srcRange) :=
  exec_of_error (error_bind (needSource_of_lt h))

theorem exec_sbits_oob (hsrc : s.src + s.count ≤ s.cfg.aCells) {k : Nat} (hk : k < s.count)
    (hin : BatchInM s w.toNat s.skip k) (hout : ¬FieldInM s (fieldPos s.bitoff w.toNat s.skip k) w.toNat) :
    exec (.sbits w) s = .next (s.faulted (max (fieldPos s.bitoff w.toNat s.skip k / 8) s.cfg.bufBytes)) :=
  exec_of_oob ((ok_bind (a := ()) (needSource_ok.mpr hsrc)).trans (error_bind (checkFields_of_first hk hin hout)))

end Sys2Proof.Machine
end

section
/-! PROOFS. The statements of spec/40_bitio.md: the four bit-I/O commands, and extraction after insertion. -/

namespace Sys2Proof.Machine

/-- Settles O9: the access check decides between the field and the fault. -/
theorem gbitExtractsField : Obligations.GbitExtractsField :=
  fun _ _ => ⟨exec_gbit_ok, exec_gbit_oob, encodeWord_of_fieldG rfl, rfl⟩

/-- Settles O10: the check of the space in A, then those of the fields in increasing index, then the run of cells. -/
theorem gbitsExtractsBatch : Obligations.GbitsExtractsBatch := by
  refine fun w s harr => ⟨exec_gbits_noSpace, fun hspace => ⟨fun hin => ?_, fun k => exec_gbits_oob hspace⟩,
    encodeWord_of_fieldG rfl, rfl⟩
  exact ⟨_, exec_gbits_ok hspace hin, cellsWritten_writeRun harr _ _⟩

/-- Settles O11: the access check decides, and the field write sets the field's bits alone. -/
theorem sbitInsertsField : Obligations.SbitInsertsField := by
  refine fun w s hmem => ⟨fun hin => ?_, exec_sbit_oob, encodeWord_of_fieldG rfl, rfl⟩
  exact ⟨_, exec_sbit_ok hin, bitM_setBits hmem _ _ _, fun _ => read_setBits_outside hmem _⟩

/-- Settles O12: the check of the cells, then those of the fields in increasing index; each field then holds its cell's low
bits, since the fields do not overlap. -/
theorem sbitsInsertsBatch : Obligations.SbitsInsertsBatch := by
  refine fun w s hmem => ⟨exec_sbits_srcRange, fun hsrc => ⟨fun hin => ?_, fun k => exec_sbits_oob hsrc⟩,
    encodeWord_of_fieldG rfl, rfl⟩
  exact ⟨_, exec_sbits_ok hsrc hin, fun _ _ => bitM_writeFields_readRun _ _ hmem,
    fun _ => bitM_writeFields_readRun_outside _ _ hmem, fun _ => read_writeFields_readRun_outside _ _ hmem⟩

/-- Settles O13: the inserting command leaves the operand registers, so the extracting one reads the fields just written. -/
theorem insertThenExtractReturnsValue : Obligations.InsertThenExtractReturnsValue := by
  refine fun w s hmem harr _ _ => ⟨fun hin => ?_, fun hin hsrc hdst => ?_⟩
  · refine ⟨_, _, exec_sbit_ok hin, exec_gbit_ok hin, rfl, rfl, ?_, fun q hq => bitM_setBits_outside hmem _ hq⟩
    exact congrArg zext64 (getBits_setBits_same hmem _ _ _)
  · refine ⟨_, _, exec_sbits_ok hsrc hin, exec_gbits_ok hdst hin, rfl, rfl, fun i hi => ?_,
      fun _ => bitM_writeFields_readRun_outside _ _ hmem⟩
    exact (read_writeRun_readFields harr hi).trans (congrArg zext64 (getBits_writeFields_readRun _ _ hmem hi))

end Sys2Proof.Machine
end

section
/-! SUPPORT. Patterns side by side in M (spec/41_ieee.md R171-R173): the run of fields with no bits between them, a field write
that changes nothing, and how RDIEEE and MKIEEE end. -/

namespace Sys2Proof.Machine

/-! ### A run of fields -/

/-- Without SKIP bits the fields of a batch follow each other. -/
theorem fieldPos_noSkip (p0 w i : Nat) : fieldPos p0 w 0 i = p0 + w * i := by rw [fieldPos, Nat.add_zero, Nat.mul_comm]

/-- A bit of a field of the run is a bit of the run. -/
theorem inField_run {p0 w n i q : Nat} (hi : i < n) (hq : InField (fieldPos p0 w 0 i) w q) : InField p0 (w * n) q := by
  have hend : fieldPos p0 w 0 i + w ≤ p0 + w * n := fieldPos_noSkip p0 w n ▸ fieldPos_add_le hi
  have hstart : p0 ≤ fieldPos p0 w 0 i := Nat.le_add_right _ _
  unfold InField at *
  omega

/-- Writing a batch of cells that hold what the fields hold leaves M as it was: the bits of each field are those of its cell,
and every other bit is kept. -/
theorem writeFields_readRun_eq_self {m : Memory} (h : Memory.wf m = true) {arr : Sparse 64} {p0 w skip src n : Nat}
    (hcells : ∀ i, i < n → (Sparse.read arr (src + i)).toNat % 2 ^ w = getBits m (fieldPos p0 w skip i) w) :
    writeFields m p0 w skip 0 (Sparse.readRun arr src n) = m := by
  refine Sparse.ext_of_read (wf_writeFields h _ _ _ _ _) h fun a => read_congr_bits fun q _ => ?_
  by_cases hq : ∃ i, i < n ∧ InField (fieldPos p0 w skip i) w q
  · obtain ⟨i, hi, hlo, hhi⟩ := hq
    obtain ⟨j, rfl⟩ := Nat.exists_eq_add_of_le hlo
    have hj : j < w := Nat.lt_of_add_lt_add_left hhi
    rw [bitM_eq_testBit_getBits _ hj, getBits_writeFields_readRun arr src h hi, hcells i hi, ← bitM_eq_testBit_getBits _ hj]
  · exact bitM_writeFields_readRun_outside arr src h fun i hi hin => hq ⟨i, hi, hin⟩

/-- Writing back the cells that the fields of a batch were read into leaves M as it was. -/
theorem writeFields_readFields_eq_self {m : Memory} (h : Memory.wf m = true) {arr : Sparse 64} (harr : Sparse.wf arr = true)
    (p0 skip d n : Nat) {w : Nat} (hw : w ≤ 64) :
    writeFields m p0 w skip 0 (Sparse.readRun (Sparse.writeRun arr d (readFields m p0 w skip n)) d n) = m := by
  refine writeFields_readRun_eq_self h fun i hi => ?_
  have hlt := getBits_lt m (fieldPos p0 w skip i) w
  rw [read_writeRun_readFields harr hi, toNat_zext64 (hlt.trans_le (Nat.pow_le_pow_right two_pos hw)), Nat.mod_eq_of_lt hlt]

/-! ### Patterns as fields -/

/-- The cell of the pattern at bit offset p is the 32-bit field there, zero-extended. -/
theorem floatCell_ieeeRead (m : Memory) (p : Nat) : floatCell (ieeeRead m p) = zext64 (getBits m p 32) :=
  BitVec.setWidth_ofNat_of_le_of_lt (by decide) (getBits_lt m p 32)

/-- A batch of patterns is a batch of 32-bit fields with no bits between them. -/
theorem readFloats_eq_readFields (m : Memory) (p0 n : Nat) : readFloats m p0 n = readFields m p0 32 0 n := by
  simp only [readFloats, readFields, floatCell_ieeeRead, fieldPos_noSkip]

/-! ### RDIEEE and MKIEEE -/

variable {s : State}

/-- The first pattern that reaches past M raises (R171, R172). -/
theorem checkFields_of_first_pattern {n k : Nat} (hk : k < n) (hin : BatchInM s 32 0 k)
    (hout : ¬FieldInM s (s.bitoff + 32 * k) 32) :
    checkFields s s.bitoff 32 0 0 n = .error (.oob (max ((s.bitoff + 32 * k) / 8) s.cfg.bufBytes)) := by
  rw [← fieldPos_noSkip s.bitoff 32 k] at hout ⊢
  exact checkFields_of_first hk hin hout

/-- RDIEEE of patterns in M, with room in A (R171). -/
theorem exec_rdieee_ok (hspace : s.dst + s.count ≤ s.cfg.aCells) (h : BatchInM s 32 0 s.count) :
    exec .rdieee s = .next { s.endedAt (s.bitoff + 32 * s.count) s.count with
      arr := Sparse.writeRun s.arr s.dst (readFields s.mem s.bitoff 32 0 s.count) } := by
  refine exec_of_ok (runRdieee_ok.mpr ⟨hspace, fun j hj => (h j hj).resolve_left (by decide), ?_⟩)
  rw [commit_setNextoff, readFloats_eq_readFields, length_readFields]

theorem exec_rdieee_noSpace (h : s.cfg.aCells < s.dst + s.count) : exec .rdieee s = .next (s.failed .noSpace) :=
  exec_of_error (error_bind (needSpace_of_lt h))

theorem exec_rdieee_oob (hspace : s.dst + s.count ≤ s.cfg.aCells) {k : Nat} (hk : k < s.count) (hin : BatchInM s 32 0 k)
    (hout : ¬FieldInM s (s.bitoff + 32 * k) 32) :
    exec .rdieee s = .next (s.faulted (max ((s.bitoff + 32 * k) / 8) s.cfg.bufBytes)) :=
  exec_of_oob ((ok_bind (a := ()) (needSpace_ok.mpr hspace)).trans (error_bind (checkFields_of_first_pattern hk hin hout)))

/-- MKIEEE of patterns in M, with its cells in A (R172). -/
theorem exec_mkieee_ok (hsrc : s.src + s.count ≤ s.cfg.aCells) (h : BatchInM s 32 0 s.count) :
    exec .mkieee s = .next ((s.setMem (writeFields s.mem s.bitoff 32 0 0 (Sparse.readRun s.arr s.src s.count))).endedAt
      (s.bitoff + 32 * s.count) 0) :=
  exec_of_ok (runMkieee_ok.mpr ⟨hsrc, fun j hj => (h j hj).resolve_left (by decide), rfl⟩)

theorem exec_mkieee_srcRange (h : s.cfg.aCells < s.src + s.count) : exec .mkieee s = .next (s.failed .srcRange) :=
  exec_of_error (error_bind (needSource_of_lt h))

theorem exec_mkieee_oob (hsrc : s.src + s.count ≤ s.cfg.aCells) {k : Nat} (hk : k < s.count) (hin : BatchInM s 32 0 k)
    (hout : ¬FieldInM s (s.bitoff + 32 * k) 32) :
    exec .mkieee s = .next (s.faulted (max ((s.bitoff + 32 * k) / 8) s.cfg.bufBytes)) :=
  exec_of_oob ((ok_bind (a := ()) (needSource_ok.mpr hsrc)).trans (error_bind (checkFields_of_first_pattern hk hin hout)))

end Sys2Proof.Machine
end

section
/-! PROOFS. The statements of spec/41_ieee.md: RDIEEE, MKIEEE, and the two round trips. -/

namespace Sys2Proof.Machine

/-- Settles O14: the check of the space in A, then those of the patterns in increasing index, then the run of cells. -/
theorem rdieeeCopiesPatterns : Obligations.RdieeeCopiesPatterns := by
  refine fun s harr => ⟨exec_rdieee_noSpace, fun hspace => ⟨fun hin => ⟨_, exec_rdieee_ok hspace hin, ?_⟩,
    fun k => exec_rdieee_oob hspace⟩, rfl, rfl⟩
  simpa only [readFields, fieldPos_noSkip] using cellsWritten_writeRun harr s.dst (readFields s.mem s.bitoff 32 0 s.count)

/-- Settles O15: the check of the cells, then those of the patterns in increasing index; the fields are disjoint and make up the
run, so a bit or byte outside the run is in none of them. -/
theorem mkieeeWritesPatterns : Obligations.MkieeeWritesPatterns := by
  refine fun s hmem => ⟨exec_mkieee_srcRange, fun hsrc => ⟨fun hin => ?_, fun k => exec_mkieee_oob hsrc⟩, rfl, rfl⟩
  have hbits : ∀ q, ¬InField s.bitoff (32 * s.count) q →
      bitM (writeFields s.mem s.bitoff 32 0 0 (Sparse.readRun s.arr s.src s.count)) q = bitM s.mem q := fun q hq =>
    bitM_writeFields_readRun_outside s.arr s.src hmem fun i hi hqi => hq (inField_run hi hqi)
  refine ⟨_, exec_mkieee_ok hsrc hin, fun i hi => ?_, hbits, fun a ha => ?_⟩
  · rw [← fieldPos_noSkip]
    exact getBits_writeFields_readRun s.arr s.src hmem hi
  · exact read_congr_bits fun q hq => hbits q (not_inField_of_byteOutside ha hq)

/-- Settles O16: neither command writes the operand registers, so the second one meets the same fields; a pattern has 32 bits,
so neither direction drops any. -/
theorem floatRoundTrip : Obligations.FloatRoundTrip := by
  refine fun s hmem harr hin hdst => ⟨fun hsrc hpat => ?_, ?_⟩
  · have hcell : ∀ i, i < s.count →
        zext64 ((Sparse.read s.arr (s.src + i)).toNat % 2 ^ 32) = Sparse.read s.arr (s.src + i) := fun i hi => by
      rw [Nat.mod_eq_of_lt (hpat i hi), zext64, BitVec.ofNat_toNat, BitVec.setWidth_eq]
    refine ⟨_, _, exec_mkieee_ok hsrc hin, exec_rdieee_ok hdst hin, rfl, rfl, fun i hi => ?_⟩
    have hfield := getBits_writeFields_readRun (p0 := s.bitoff) (w := 32) (skip := 0) s.arr s.src hmem hi
    exact ((read_writeRun_readFields harr hi).trans (congrArg zext64 hfield)).trans (hcell i hi)
  · exact ⟨_, _, exec_rdieee_ok hdst hin, exec_mkieee_ok hdst hin, rfl, rfl,
      writeFields_readFields_eq_self hmem harr s.bitoff 0 s.dst s.count (by decide)⟩

end Sys2Proof.Machine
end

section
/-! SUPPORT. The template registry and the template reader (spec/42_templates.md R190-R193): the lookup, the value of each fixed
entry and of each extension field, the extension count of each rule, and the two length checks. -/

namespace Sys2Proof.Machine

/-- A lookup finds just the rows of a ROM in which no two have the same kind and number. -/
theorem romLookup_eq_some_iff {rom : List RomRow} (hkeys : (rom.map fun r => (r.kind, r.number)).Nodup) {kind : TemplateKind}
    {n : Nat} {d : Descriptor} :
    romLookup rom kind n = some d ↔ (kind, n, d) ∈ rom.map fun r => (r.kind, r.number, r.descriptor) := by
  have hfound {r : RomRow} (h : rom.find? (fun r => decide (r.kind = kind) && r.number == n) = some r) :
      r ∈ rom ∧ r.kind = kind ∧ r.number = n := ⟨List.mem_of_find?_eq_some h, by simpa using List.find?_some h⟩
  rw [romLookup, Option.map_eq_some_iff, List.mem_map]
  constructor
  · rintro ⟨r, h, rfl⟩
    obtain ⟨hr, rfl, rfl⟩ := hfound h
    exact ⟨r, hr, rfl⟩
  · rintro ⟨r, hr, heq⟩
    cases heq
    cases h : rom.find? (fun q => decide (q.kind = r.kind) && q.number == r.number) with
    | none => exact absurd (List.find?_eq_none.mp h r hr) (by simp)
    | some q =>
      obtain ⟨hq, hkind, hnumber⟩ := hfound h
      exact ⟨q, rfl, congrArg _ (List.inj_on_of_nodup_map hkeys hq hr (Prod.ext hkind hnumber))⟩

/-- Entry j is read at a plus the widths of the entries before it. -/
theorem getD_readEntries (m : Memory) (a : Nat) {ts : List TemplateEntry} {j : Nat} {t : TemplateEntry} (h : ts[j]? = some t) :
    (readEntries m a ts).getD j 0 = entryValue t (memRead m (a + fixedOctets (ts.take j)) t.octets.count) := by
  induction ts generalizing a j with
  | nil => cases h
  | cons u us ih =>
    cases j with
    | zero => cases h; rfl
    | succ j => simpa [readEntries, fixedOctets, Nat.add_assoc] using ih (a + u.octets.count) h

/-- Extension field j is read at 4 j octets past the fixed entries. -/
theorem getD_readExtension (m : Memory) (a : Nat) {c j : Nat} (h : j < c) :
    (readExtension m a c).getD j 0 = signMagnitude 32 (memRead m (a + 4 * j) 4) := by
  simp [readExtension, h]

/-- The value of an unsigned entry is not negative. -/
theorem getD_readEntries_nonneg (m : Memory) (a : Nat) {ts : List TemplateEntry} {j : Nat} {t : TemplateEntry}
    (h : ts[j]? = some t) (hu : t.signed = false) : 0 ≤ (readEntries m a ts).getD j 0 := by
  rw [getD_readEntries m a h, entryValue, hu]
  exact Int.natCast_nonneg _

theorem extensionCount_sumOf {d : Descriptor} {idx : List Nat} (h : d.extension = some (.sumOf idx)) {vals : List Int}
    (hsum : 0 ≤ (idx.map fun i => vals.getD i 0).sum) :
    (extensionCount d vals : Int) = (idx.map fun i => vals.getD i 0).sum := by
  simp only [extensionCount, h]
  exact Int.toNat_of_nonneg hsum

theorem extensionCount_uninterpreted {d : Descriptor} {k : Nat} (h : d.extension = some (.uninterpreted k))
    (vals : List Int) : extensionCount d vals = Config.freeExtensionCount k vals := by
  simp only [extensionCount, h, extensionRuleCount]

theorem extensionCount_none {d : Descriptor} (h : d.extension = none) (vals : List Int) : extensionCount d vals = 0 := by
  simp only [extensionCount, h]

/-- The default template 5.1 is extended by `vals[10] + vals[12]`, two unsigned entries (R196). -/
theorem extensionCount_tpl5_1 (m : Memory) (a : Nat) :
    let vals := readEntries m a tpl5_1.entries
    (extensionCount tpl5_1 vals : Int) = vals.getD 10 0 + vals.getD 12 0 := by
  intro vals
  have h10 : 0 ≤ vals.getD 10 0 := getD_readEntries_nonneg m a (t := u1) rfl rfl
  have h12 : 0 ≤ vals.getD 12 0 := getD_readEntries_nonneg m a (t := u1) rfl rfl
  have hsum : ([10, 12].map fun i => vals.getD i 0).sum = vals.getD 10 0 + vals.getD 12 0 := by simp
  rw [← hsum]
  exact extensionCount_sumOf rfl (hsum ▸ Int.add_nonneg h10 h12)

/-- The one refusal of the reader: the fixed entries and the extension do not end by e (R193). -/
theorem readKnown_badSectionLength {m : Memory} {d : Descriptor} {a e : Nat}
    (h : e < a + fixedOctets d.entries + 4 * extensionCount d (readEntries m a d.entries)) :
    readKnown m d a e = .error (.error .badSectionLength) := by
  by_cases hfix : a + fixedOctets d.entries ≤ e
  · exact (need_bind (decide_eq_true hfix)).trans (need_bind_raise (decide_eq_false (not_le.mpr h)))
  · exact need_bind_raise (decide_eq_false hfix)

end Sys2Proof.Machine
end

section
/-! PROOFS. The statement of spec/42_templates.md: the default ROM and the template reader. -/

namespace Sys2Proof.Machine

/-- Settles O27: the default ROM row by row; then the reader's own values and count; a failed check of the fixed
entries is one of the whole template, so one refusal serves both. -/
theorem templateReaderValues : Obligations.TemplateReaderValues := by
  refine ⟨fun kind n d => romLookup_eq_some_iff (rom := defaultRom) (by decide), fun m d a e => ?_⟩
  refine ⟨readEntries m a d.entries, extensionCount d (readEntries m a d.entries), length_readEntries ..,
    fun j t => getD_readEntries m a, fun h => extensionCount_none h _, fun idx h _ => extensionCount_sumOf h,
    fun k h => extensionCount_uninterpreted h _, fun h => ?_, ?_⟩
  · obtain rfl : tpl5_1 = d := Option.some.inj h
    exact extensionCount_tpl5_1 m a
  · split
    case isTrue hfix => exact readKnown_badSectionLength (Nat.lt_add_right _ hfix)
    case isFalse hfix =>
      split
      case isTrue hext => exact readKnown_badSectionLength hext
      case isFalse hext =>
        exact ⟨_, readKnown_ok.mpr ⟨_, rfl, not_lt.mp hfix, not_lt.mp hext, rfl⟩, length_readExtension ..,
          fun j => getD_readExtension m _⟩

end Sys2Proof.Machine
end

section
/-! SUPPORT. The checks of a command read off one after another, as the clauses of a statement (spec/60_exceptions.md R350, R354),
and a section that is ready to be opened (spec/43_sections.md R223). -/

namespace Sys2Proof.Machine

variable {s : State} {i : Instr}

/-! ### A command whose computation has come to a point -/

section
variable {α : Type} {x : Except Raise α} {f : α → Except Raise State}

/-- A command goes on after a computation that returns. -/
theorem exec_goes_on {a : α} (h : exec i s = endCommand s (x >>= f)) (hx : x = .ok a) : exec i s = endCommand s (f a) :=
  h.trans (congrArg (endCommand s) (ok_bind hx))

/-- A command ends with the error that a computation raises. -/
theorem failed_of_error {e : ErrorCode} (h : exec i s = endCommand s (x >>= f)) (hx : x = .error (.error e)) :
    exec i s = .next (s.failed e) :=
  h.trans (congrArg (endCommand s) (error_bind hx))

/-- A command ends with the fault that a computation raises. -/
theorem faulted_of_oob {a : Nat} (h : exec i s = endCommand s (x >>= f)) (hx : x = .error (.oob a)) :
    exec i s = .next (s.faulted a) :=
  h.trans (congrArg (endCommand s) (error_bind hx))

end

/-! ### One check after another -/

/-- n bytes from byte address a on lie in M. -/
theorem fieldInM_bytes {a n : Nat} (hn : n ≠ 0) : FieldInM s (8 * a) (8 * n) ↔ a + n ≤ s.cfg.bufBytes := by
  unfold FieldInM
  omega

section
variable {f : Unit → Except Raise State} {c P : Prop} [Decidable c]

/-- The next check of a command, with its error: where it holds the rest of the command decides. -/
theorem failed_else {b : Bool} {e : ErrorCode} (h : exec i s = endCommand s (need b (.error e) >>= f)) (hc : c ↔ b = false)
    (hrest : ¬c → exec i s = endCommand s (f ()) → P) : if c then exec i s = .next (s.failed e) else P := by
  split
  case isTrue hfail => exact failed_of_error h (need_error.mpr ⟨hc.mp hfail, rfl⟩)
  case isFalse hpass => exact hrest hpass (exec_goes_on h (need_ok.mpr (Bool.not_eq_false b ▸ mt hc.mpr hpass)))

/-- The next check of a command, of n bytes of M from byte address a on. -/
theorem faulted_else {a n addr : Nat} (h : exec i s = endCommand s (checkM s (8 * a) (8 * n) >>= f)) (hn : n ≠ 0)
    (hc : c ↔ s.cfg.bufBytes < a + n) (haddr : addr = max a s.cfg.bufBytes)
    (hrest : ¬c → exec i s = endCommand s (f ()) → P) : if c then exec i s = .next (s.faulted addr) else P := by
  rw [← not_le, ← fieldInM_bytes hn] at hc
  split
  case isTrue hfail =>
    rw [haddr, ← Nat.mul_div_cancel_left a (by decide : 0 < 8)]
    exact faulted_of_oob h (checkM_of_not_fieldInM (hc.mp hfail))
  case isFalse hpass => exact hrest hpass (exec_goes_on h (checkM_ok.mpr (not_not.mp (mt hc.mpr hpass))))

end

/-! ### When a check fails -/

theorem lt_iff_decide_eq_false {m n : Nat} : m < n ↔ decide (n ≤ m) = false :=
  (decide_eq_false_iff_not.trans Nat.not_le).symm

theorem notMem_iff_contains_eq_false {k : Nat} {l : List Nat} : k ∉ l ↔ l.contains k = false := by simp

theorem past_iff_check_eq_false {x : Nat} :
    s.ctx.msgStart.toNat + s.ctx.msgLen.toNat < x + 4 ↔ (!s.pastMessage x) = false := by
  simp [State.pastMessage]

/-! ### A ready section -/

/-- What `openSection` returns on a ready section is the section at CURSOR (R223). -/
theorem SectionReady.opened {k minLen : Nat} (h : SectionReady s k minLen) : Opened s k minLen (sectionAt s) :=
  ⟨rfl, rfl, h.number, h.order, h.length, h.headerInMessage, h.inMessage, h.headerInM, h.inM⟩

/-- A command that opens a section goes on with the section at CURSOR where it is ready. -/
theorem exec_of_ready {k minLen : Nat} (hready : SectionReady s k minLen) {f : Section → Except Raise State}
    (h : exec i s = endCommand s (openSection s k minLen >>= f)) : exec i s = endCommand s (f (sectionAt s)) :=
  exec_goes_on h (openSection_ok.mpr hready.opened)

/-- The commit of a command that returns n cells. -/
theorem commit_eq_ended {code : StatusCode} {d n tpl lst : Nat} {out : List Word} (hlen : out.length = n) :
    s.commit code d out tpl lst = { s.ended code n tpl lst with arr := Sparse.writeRun s.arr d out } := by
  subst hlen
  rfl

@[simp] theorem sectionAt_a (s : State) : (sectionAt s).a = s.cursor := rfl

end Sys2Proof.Machine
end

section
/-! SUPPORT. The order of the sections (spec/43_sections.md R221): what each move of the block makes of LAST_SEC. -/

namespace Sys2Proof.Machine

variable {s t : State} {i : Instr}

/-- Section k may follow LAST_SEC exactly where the pair stands in the table of R221. -/
theorem mem_successors_iff {last k : Nat} : k ∈ successors last ↔
    (last, k) ∈ [(0, 1), (1, 2), (1, 3), (2, 3), (3, 4), (4, 5), (5, 6), (6, 7), (7, 2), (7, 3), (7, 4), (7, 8)] := by
  unfold successors
  split <;> simp_all

/-- LAST_SEC moves along the order table of R221: a section that may follow the old value is closed. -/
def MovesAlong (old new : Word) : Prop := ∃ k, k ∈ successors old.toNat ∧ new = zext64 k

theorem movesAlong_mem_table {old new : Word} (h : MovesAlong old new) :
    (old, new) ∈ [((0 : Word), (1 : Word)), (1, 2), (1, 3), (2, 3), (3, 4), (4, 5), (5, 6), (6, 7), (7, 2), (7, 3), (7, 4),
      (7, 8)] := by
  obtain ⟨k, hk, rfl⟩ := h
  have hpair := List.mem_map_of_mem (f := fun row : Nat × Nat => (zext64 row.1, zext64 row.2)) (mem_successors_iff.mp hk)
  rwa [zext64, BitVec.ofNat_toNat, BitVec.setWidth_eq] at hpair

@[simp] theorem State.raise_ctx (s : State) (r : Raise) : (s.raise r).ctx = s.ctx := by cases r <;> rfl

/-- What a commit makes of LAST_SEC: UNPK0 sets it to 0, a section command closes its section, another command keeps it. -/
theorem runOf_lastSec (hr : runOf i s = .ok t) :
    t.ctx.lastSec = s.ctx.lastSec ∨ i = .unpk0 ∧ t.ctx.lastSec = 0 ∨ MovesAlong s.ctx.lastSec t.ctx.lastSec := by
  cases i with
  | nop => cases hr; exact .inl rfl
  | gbit w => obtain ⟨-, rfl⟩ := runGbit_ok.mp hr; exact .inl rfl
  | gbits w => obtain ⟨-, -, rfl⟩ := runGbits_ok.mp hr; exact .inl rfl
  | sbit w => obtain ⟨-, rfl⟩ := runSbit_ok.mp hr; exact .inl rfl
  | sbits w => obtain ⟨-, -, rfl⟩ := runSbits_ok.mp hr; exact .inl rfl
  | rdieee => obtain ⟨-, -, rfl⟩ := runRdieee_ok.mp hr; exact .inl rfl
  | mkieee => obtain ⟨-, -, rfl⟩ := runMkieee_ok.mp hr; exact .inl rfl
  | unpk0 => obtain ⟨-, -, -, -, -, rfl⟩ := runUnpk0_ok.mp hr; exact .inr (.inl ⟨rfl, rfl⟩)
  | unpk1 => obtain ⟨_, hsec, -, rfl⟩ := runUnpk1_ok.mp hr; exact .inr (.inr ⟨1, hsec.order, rfl⟩)
  | unpk2 => obtain ⟨_, hsec, -, rfl⟩ := runUnpk2_ok.mp hr; exact .inr (.inr ⟨2, hsec.order, rfl⟩)
  | unpk3 g => obtain ⟨_, hsec, _, -, -, rfl⟩ := runUnpk3_ok.mp hr; exact .inr (.inr ⟨3, hsec.order, rfl⟩)
  | unpk4 => obtain ⟨_, hsec, _, -, _, -, -, -, rfl⟩ := runUnpk4_ok.mp hr; exact .inr (.inr ⟨4, hsec.order, rfl⟩)
  | unpk5 => obtain ⟨_, hsec, _, -, _, -, -, -, rfl⟩ := runUnpk5_ok.mp hr; exact .inr (.inr ⟨5, hsec.order, rfl⟩)
  | unpk6 => obtain ⟨_, hsec, _, -, rfl⟩ := runUnpk6_ok.mp hr; exact .inr (.inr ⟨6, hsec.order, rfl⟩)
  | unpk7 =>
    obtain ⟨_, hsec, -, _, -, -, _, -, -, hd⟩ := runUnpk7_ok.mp hr
    obtain ⟨_, -, rfl⟩ | ⟨-, -, -, rfl⟩ := decompress_ok hd
    · exact .inr (.inr ⟨7, hsec.order, rfl⟩)
    · exact .inl rfl
  | chkend =>
    obtain ⟨hlast, -, -, -, rfl⟩ := runChkend_ok.mp hr
    exact .inr (.inr ⟨8, hlast ▸ by decide, rfl⟩)
  | skipsec =>
    obtain ⟨k, -, -, -, -, -, -, -, hk, -, -, rfl⟩ := runSkipsec_ok.mp hr
    exact .inr (.inr ⟨k, hk, rfl⟩)

/-- Of the commands UNPK0 alone moves LAST_SEC otherwise than along the table. -/
theorem exec_lastSec (ht : exec i s = .next t) (hne : t.ctx.lastSec ≠ s.ctx.lastSec) :
    i = .unpk0 ∧ t.ctx.lastSec = 0 ∨ MovesAlong s.ctx.lastSec t.ctx.lastSec := by
  obtain hr | ⟨r, -, rfl⟩ := exec_next.mp ht
  · exact (runOf_lastSec hr).resolve_left hne
  · exact absurd (by rw [State.raise_ctx]) hne

/-- A move of the block in a sound state: only UNPK0's first step moves LAST_SEC otherwise than along the table. The second step
of UNPK7 meets LAST_SEC = 6. -/
theorem blockMove_lastSec (hphase : PhaseSound s) (ht : blockMove s = .next t) (hne : t.ctx.lastSec ≠ s.ctx.lastSec) :
    (∃ v, s.phase = .issued v ∧ decode s.cfg.maxW.bits v = .ok .unpk0) ∧ t.ctx.lastSec = 0 ∨
      MovesAlong s.ctx.lastSec t.ctx.lastSec := by
  cases hp : s.phase with
  | idle =>
    rw [blockMove_idle hp] at ht
    cases ht
    exact absurd rfl hne
  | issued v =>
    rw [blockMove_issued hp] at ht
    cases hd : decode s.cfg.maxW.bits v with
    | error e =>
      rw [engineStart_undecoded hd] at ht
      cases ht
      exact absurd (by rw [State.raise_ctx]) hne
    | ok i =>
      rw [engineStart_decoded hd] at ht
      obtain ⟨rfl, hzero⟩ | hmove := exec_lastSec ht hne
      · exact .inl ⟨⟨v, rfl, hd⟩, hzero⟩
      · exact .inr hmove
  | waiting p =>
    rw [blockMove_waiting hp] at ht
    cases ht
    obtain hd | ⟨ans, hd⟩ := codecDraw_cases p s <;> exact absurd (by rw [hd]) hne
  | answered p ans =>
    rw [blockMove_answered hp] at ht
    obtain hr | ⟨r, -, rfl⟩ := endCommand_next.mp ht
    · obtain ⟨_, -, -, -, rfl⟩ := runUnpk7Answer_ok.mp hr
      exact .inr ⟨7, (hphase.of_answered hp).order ▸ by decide, rfl⟩
    · exact absurd (by rw [State.raise_ctx]) hne

@[simp] theorem codecMove_ctx (n : Nat) (ans : CodecAnswer) (s : State) : (codecMove n ans s).ctx = s.ctx := by
  by_cases h : ∃ p, s.phase = .waiting p ∧ p.serial = n
  · obtain ⟨p, hp, rfl⟩ := h
    rw [codecMove_waiting hp]
  · rw [codecMove_discarded fun p hp hn => h ⟨p, hp, hn⟩]

end Sys2Proof.Machine
end

section
/-! SUPPORT. What the section commands read and keep (spec/43_sections.md R226-R228, R233): the refusal of the template
reader, the optional list, the body of Section 3 case by case, coordinates, the flags that SKIPSEC clears. -/

namespace Sys2Proof.Machine

variable {s : State}

/-- The template reader raises BAD_SECTION_LENGTH alone (R193). -/
theorem readKnown_error {m : Memory} {d : Descriptor} {a e : Nat} {r : Raise} (h : readKnown m d a e = .error r) :
    r = .error .badSectionLength := by
  simp only [readKnown, bind_error, need_error] at h
  obtain ⟨-, rfl⟩ | ⟨_, -, ⟨-, rfl⟩ | ⟨_, -, h⟩⟩ := h
  · rfl
  · rfl
  · cases h

/-- A command ends with BAD_SECTION_LENGTH where the template reader raises. -/
theorem failed_of_readKnown {i : Instr} {f : List Int × Nat → Except Raise State} {m : Memory} {d : Descriptor} {a e : Nat}
    {r : Raise} (h : exec i s = endCommand s (readKnown m d a e >>= f)) (hr : readKnown m d a e = .error r) :
    exec i s = .next (s.failed .badSectionLength) :=
  failed_of_error h (readKnown_error hr ▸ hr)

/-! ### The optional list of Section 3 (R227) -/

section
variable {m : Memory} {no a2 e : Nat}

theorem optList_countEntries_ok (hno : 1 ≤ no) (hw : (e - a2) / no ∈ [1, 2, 4]) :
    optList .countEntries m no a2 e =
      .ok ((List.range no).map fun j => memRead m (a2 + (e - a2) / no * j) ((e - a2) / no)) := by
  rw [optList, if_neg (by omega)]
  exact if_pos (by simpa using hw)

theorem optList_countEntries_error (hno : 1 ≤ no) (hw : (e - a2) / no ∉ [1, 2, 4]) :
    optList .countEntries m no a2 e = .error (.error .badListWidth) := by
  rw [optList, if_neg (by omega)]
  exact if_neg (by simpa using hw)

theorem optList_widthOctets_ok (hno : 1 ≤ no) (hw : no ≤ 8) :
    optList .widthOctets m no a2 e = .ok ((List.range ((e - a2) / no)).map fun j => memRead m (a2 + no * j) no) := by
  rw [optList, if_neg (by omega)]
  exact if_neg (not_lt.mpr hw)

theorem optList_widthOctets_error (hw : 8 < no) : optList .widthOctets m no a2 e = .error (.error .badListWidth) := by
  rw [optList, if_neg (by omega)]
  exact if_pos hw

end

/-- The optional list raises BAD_LIST_WIDTH alone (R227). -/
theorem optList_error {rule : OptListRule} {m : Memory} {no a2 e : Nat} {r : Raise} (h : optList rule m no a2 e = .error r) :
    r = .error .badListWidth := by
  unfold optList at h
  split at h
  case isTrue => cases h
  case isFalse =>
    cases rule
    all_goals
      dsimp only at h
      split at h <;> cases h
      rfl

/-! ### The body of Section 3 (R226) -/

section
variable {g : Bool} {sec : Section} {t no : Nat}

theorem gridBody_unrecognized (hrom : romLookup s.cfg.rom .grid t = none) :
    gridBody s true sec t no = .error (.error .unrecognizedTemplate) := by
  rw [gridBody, hrom]
  rfl

theorem gridBody_opaque (hrom : romLookup s.cfg.rom .grid t = none) :
    gridBody s false sec t no = .ok (opaqueGrid s.mem sec) := by
  rw [gridBody, hrom]
  rfl

variable {desc : Descriptor} (hrom : romLookup s.cfg.rom .grid t = some desc)
include hrom

theorem gridBody_badTemplate {r : Raise} (hread : readKnown s.mem desc (sec.a + 14) sec.stop = .error r) :
    gridBody s g sec t no = .error r := by
  rw [gridBody, hrom]
  exact error_bind hread

variable {vals : List Int} {a2 : Nat} (hread : readKnown s.mem desc (sec.a + 14) sec.stop = .ok (vals, a2))
include hread

theorem gridBody_badList {r : Raise} (hlist : optList s.cfg.optListRule s.mem no a2 sec.stop = .error r) :
    gridBody s g sec t no = .error r := by
  rw [gridBody, hrom]
  exact (ok_bind hread).trans (error_bind hlist)

variable {list : List Nat} (hlist : optList s.cfg.optListRule s.mem no a2 sec.stop = .ok list)
include hlist

theorem gridBody_geometryUnknown (hg : g = true) (hgeo : desc.geometry = none) :
    gridBody s g sec t no = .error (.error .geometryUnknown) := by
  rw [gridBody, hrom]
  refine (ok_bind hread).trans ((ok_bind hlist).trans (need_bind_raise ?_))
  rw [hg, hgeo]
  rfl

theorem gridBody_known (hgeo : g = true → desc.geometry ≠ none) :
    gridBody s g sec t no = .ok { vals, list, geometry := desc.geometry.map fun geo => pickGeometry geo vals, code := .ok } := by
  rw [gridBody, hrom]
  refine (ok_bind hread).trans ((ok_bind hlist).trans (need_bind ?_))
  cases g with
  | false => simp
  | true => simpa [Option.isSome_iff_ne_none] using hgeo rfl

end

/-- UNPK3 on a ready section whose body is b, with room in A (R226). -/
theorem exec_unpk3_ok {g : Bool} {b : GridBody} (hready : SectionReady s 3 14)
    (hb : gridBody s g (sectionAt s) (memRead s.mem (s.cursor + 12) 2) (memRead s.mem (s.cursor + 10) 1) = .ok b)
    (hspace : s.dst + (5 + b.vals.length + b.list.length) ≤ s.cfg.aCells) :
    exec (.unpk3 g) s = .next { s.ended b.code (5 + b.vals.length + b.list.length) b.vals.length b.list.length with
      arr := Sparse.writeRun s.arr s.dst
        ([memRead s.mem (s.cursor + 5) 1, memRead s.mem (s.cursor + 6) 4, memRead s.mem (s.cursor + 10) 1,
          memRead s.mem (s.cursor + 11) 1, memRead s.mem (s.cursor + 12) 2].map zext64 ++ b.vals.map cell ++ b.list.map zext64)
      op := { s.op with cursor := zext64 (sectionAt s).stop }
      ctx := { gridContext s.ctx (memRead s.mem (s.cursor + 6) 4) (memRead s.mem (s.cursor + 12) 2) b.geometry with
        lastSec := 3, seclen := zext64 (sectionAt s).len } } := by
  refine exec_of_ok (runUnpk3_ok.mpr ⟨_, hready.opened, b, hb, hspace, ?_⟩)
  rw [commit_eq_ended (n := 5 + b.vals.length + b.list.length) (by simp +arith)]
  rfl

/-- The cell of an octet is the octet. -/
theorem map_cell_memOctets (m : Memory) (a n : Nat) :
    ((memOctets m a n).map fun (n : Nat) => (n : Int)).map cell = (List.range n).map fun j => zext64 (memRead m (a + j) 1) := by
  simp [memOctets, cell, zext64]

/-! ### Section 4, and skipping (R228, R233) -/

/-- Patterns from a byte address on, each the 32 bits of M at its place. -/
theorem readFloats_bytes (m : Memory) (a n : Nat) :
    readFloats m (8 * a) n = (List.range n).map fun j => zext64 (getBits m (8 * (a + 4 * j)) 32) := by
  simp only [readFloats, floatCell_ieeeRead, Nat.mul_add, ← Nat.mul_assoc]

/-- The context flags SKIPSEC keeps (R233). -/
theorem skipContext_eq (c : ContextRegs) (k : Nat) :
    skipContext c k = { c with ngptsValid := c.ngptsValid && k != 3, geomValid := c.geomValid && k != 3,
                               drtValid := c.drtValid && k != 5 } := by
  unfold skipContext
  split
  case isTrue h3 => simp [h3]
  case isFalse h3 =>
    simp only [bne_iff_ne.mpr h3, Bool.and_true]
    split
    case isTrue h5 => simp [h5]
    case isFalse h5 => simp only [bne_iff_ne.mpr h5, Bool.and_true]

/-- The minimum lengths of R220, by section number. -/
theorem minLength_eq_getD {k : Nat} (hk : k ≤ 7) : minLength k = [0, 21, 5, 14, 9, 11, 6, 5].getD k 0 := by
  interval_cases k <;> rfl

end Sys2Proof.Machine
end

section
/-! PROOFS. The statements of spec/43_sections.md: the order of the sections, and the section commands UNPK0 to UNPK6, CHKEND and
SKIPSEC. -/

namespace Sys2Proof.Machine

/-- Settles O18: the checks of UNPK0 in their order; the commit has edition 2, which the check of the edition gives. -/
theorem unpk0OpensMessage : Obligations.Unpk0OpensMessage := by
  intro s harr a disc ed len
  refine ⟨rfl, rfl, ?_⟩
  have h : exec .unpk0 s = endCommand s (runUnpk0 s) := rfl
  refine faulted_else (n := 16) h (by decide) Iff.rfl rfl fun _ h => ?_
  refine failed_else h beq_eq_false_iff_ne.symm fun _ h => ?_
  refine failed_else h beq_eq_false_iff_ne.symm fun hed h => ?_
  refine failed_else h lt_iff_decide_eq_false fun _ h => ?_
  refine failed_else h lt_iff_decide_eq_false fun _ h => ?_
  refine ⟨_, ?_, cellsWritten_writeRun harr _ _⟩
  have hedition : zext64 ed = 2 := congrArg zext64 (not_not.mp hed)
  rw [← hedition]
  exact h

/-- Settles O19: each of the commands starts with `openSection`, whose checks are read off in their order; passed, they are the
fields of `SectionReady`. -/
theorem sectionChecksInOrder : Obligations.SectionChecksInOrder := by
  refine ⟨fun _ _ => mem_successors_iff, ?_⟩
  intro s i k minLen hi a len stop
  obtain ⟨hmin, f, h⟩ : 5 ≤ minLen ∧ ∃ f, exec i s = endCommand s (openSection s k minLen >>= f) := by
    simp only [List.mem_cons, Prod.mk.injEq, List.not_mem_nil, or_false] at hi
    obtain ⟨rfl, rfl, rfl⟩ | ⟨rfl, rfl, rfl⟩ | ⟨rfl, rfl, rfl⟩ | ⟨rfl, rfl, rfl⟩ | ⟨rfl, rfl, rfl⟩ | ⟨rfl, rfl, rfl⟩ |
      ⟨rfl, rfl, rfl⟩ | ⟨rfl, rfl, rfl⟩ := hi <;> exact ⟨by decide, _, rfl⟩
  simp only [openSection, bind_assoc] at h
  refine failed_else h notMem_iff_contains_eq_false fun horder h => ?_
  refine failed_else h past_iff_check_eq_false fun hheader h => ?_
  refine faulted_else (n := 5) h (by decide) Iff.rfl rfl fun hheaderM h => ?_
  refine failed_else h beq_eq_false_iff_ne.symm fun hnumber h => ?_
  refine failed_else h lt_iff_decide_eq_false fun hlength h => ?_
  refine failed_else h past_iff_check_eq_false fun hinside h => ?_
  refine faulted_else (a := a) (n := len) h (by omega) Iff.rfl (max_eq_right (by omega)).symm fun hstored h => ?_
  exact ⟨not_not.mp horder, not_lt.mp hheader, not_lt.mp hheaderM, not_not.mp hnumber, not_lt.mp hlength,
    not_lt.mp hinside, .inr (not_lt.mp hstored)⟩

/-- Settles O20: the block's own move is the command's, an answer of the codec agent keeps the context, and of the host's accesses
only a soft reset writes it. -/
theorem sectionsFollowTheOrder : Obligations.SectionsFollowTheOrder := by
  refine ⟨fun i s t ht hne => (exec_lastSec ht hne).imp_right movesAlong_mem_table, fun s t hinv ht hne => ?_⟩
  obtain ⟨hblock, l, ht⟩ | ⟨n, ans, rest, -, rfl⟩ | ⟨m, rest, hturn, ht⟩ := step_cases ht
  · have hphase : PhaseSound { s with turns := l } := hinv.phase.congr rfl rfl rfl rfl
    obtain ⟨⟨v, hv, hd⟩, hzero⟩ | hmove := blockMove_lastSec hphase ht hne
    · exact .inl ⟨⟨hblock, v, hv, hd⟩, hzero⟩
    · exact .inr (.inr (movesAlong_mem_table hmove))
  · exact absurd (by rw [codecMove_ctx]) hne
  · obtain ⟨hctx, -⟩ | ⟨v, rfl, hbit, rfl⟩ | ⟨_, _, -, rfl⟩ := hostMove_cases ht
    · exact absurd (congrArg ContextRegs.lastSec hctx) hne
    · exact .inr (.inl ⟨⟨v, rest, hturn, hbit⟩, rfl⟩)
    · exact absurd rfl hne

/-- Settles O21: the widths summed up from offset 5 on are the offsets of the fields. -/
theorem unpk1ReturnsIdentification : Obligations.Unpk1ReturnsIdentification := by
  intro s harr hready
  have h := exec_of_ready (i := .unpk1) hready rfl
  refine ⟨fun hspace => failed_of_error h (needSpace_of_lt hspace), fun hspace => ?_⟩
  exact ⟨_, exec_goes_on (a := ()) h (needSpace_ok.mpr hspace), cellsWritten_writeRun harr _ _⟩

/-- Settles O22: on a ready section only the check of the space in A is left. -/
theorem unpk2ReturnsLocalOctets : Obligations.Unpk2ReturnsLocalOctets := by
  intro s harr hready n
  have h := exec_of_ready (i := .unpk2) hready rfl
  refine ⟨fun hspace => failed_of_error h (needSpace_of_lt hspace), fun hspace => ?_⟩
  have h := exec_goes_on (a := ()) h (needSpace_ok.mpr hspace)
  rw [commit_eq_ended (n := n) (by simp [n, sectionAt]), memOctets, List.map_map] at h
  exact ⟨_, h, cellsWritten_writeRun harr _ _⟩

/-- Settles O23: the body of a known template, and its geometry, which is 0 where the template has none. -/
theorem unpk3ReturnsGrid : Obligations.Unpk3ReturnsGrid := by
  intro g s desc vals a2 list _ harr hready a np no t geo hrom hread hlist hgeo hspace
  refine ⟨_, (exec_unpk3_ok hready (gridBody_known hrom hread hlist hgeo) hspace).trans ?_, cellsWritten_writeRun harr _ _⟩
  have hpick : geo = (desc.geometry.map fun q => pickGeometry q vals).getD (0, 0, 0) := by
    simp only [geo]
    cases desc.geometry <;> rfl
  rw [hpick, gridContext, Option.isSome_map]

/-- Settles O24: the body of an unrecognized template is its octets, which are their own cells. -/
theorem unpk3ReturnsOpaqueOctets : Obligations.Unpk3ReturnsOpaqueOctets := by
  intro s harr hready a n t hrom hspace
  have hlen : (opaqueGrid s.mem (sectionAt s)).vals.length = n := by simp [opaqueGrid, n]
  have h := exec_unpk3_ok hready (gridBody_opaque hrom) (by rwa [hlen])
  rw [hlen] at h
  refine ⟨_, h, ?_⟩
  rw [opaqueGrid, map_cell_memOctets, List.map_nil, List.append_nil]
  exact cellsWritten_writeRun harr _ _

/-- Settles O25: the refusals of the body in their order, then the check of the space in A for what the body returns. -/
theorem unpk3Refusals : Obligations.Unpk3Refusals := by
  intro g s hready a no
  have h := exec_of_ready (i := .unpk3 g) hready rfl
  split
  case h_1 hrom =>
    refine ⟨fun hg => ?_, fun hg hspace => ?_⟩ <;> subst hg
    · exact failed_of_error h (gridBody_unrecognized hrom)
    · have h := exec_goes_on h (gridBody_opaque hrom)
      exact failed_of_error h (needSpace_of_lt (by simpa [opaqueGrid] using hspace))
  case h_2 desc hrom =>
    refine ⟨fun e he => ?_, fun vals a2 hread => ⟨fun e he => ?_, fun list hlist => ?_⟩⟩
    · cases readKnown_error he
      exact ⟨rfl, failed_of_error h (gridBody_badTemplate hrom he)⟩
    · cases optList_error he
      exact ⟨rfl, failed_of_error h (gridBody_badList hrom hread he)⟩
    · split
      case isTrue hg => exact failed_of_error h (gridBody_geometryUnknown hrom hread hlist hg.1 hg.2)
      case isFalse hg =>
        have h := exec_goes_on h (gridBody_known hrom hread hlist fun htrue hnone => hg ⟨htrue, hnone⟩)
        exact fun hspace => failed_of_error h (needSpace_of_lt hspace)

/-- Settles O26: the two rules of the list, each with its entries and its refusal. -/
theorem optionalListEntries : Obligations.OptionalListEntries := by
  refine fun m no a2 e => ⟨fun _ => rfl, fun hno => ⟨optList_countEntries_error hno, fun hw => ?_,
    optList_widthOctets_error, fun hw => ?_⟩⟩
  · exact ⟨_, optList_countEntries_ok hno hw, by simp, fun j hj => by simp [hj]⟩
  · refine ⟨_, optList_widthOctets_ok hno hw, by simp, fun j hj => ?_⟩
    rw [List.length_map, List.length_range] at hj
    simp [hj]

/-- Settles O29: the template lookup, the template reader, then the two checks left; each coordinate is a 32-bit field. -/
theorem unpk4ReturnsProduct : Obligations.Unpk4ReturnsProduct := by
  intro s harr hready a nv t
  have h := exec_of_ready (i := .unpk4) hready rfl
  simp only [sectionAt_a] at h
  split
  case h_1 hrom =>
    rw [hrom] at h
    exact h
  case h_2 desc hrom =>
    rw [hrom] at h
    refine ⟨fun r => failed_of_readKnown h, fun vals a2 hread => ?_⟩
    have h := exec_goes_on h hread
    refine failed_else h lt_iff_decide_eq_false fun _ h => ?_
    refine failed_else h lt_iff_decide_eq_false fun _ h => ?_
    rw [commit_eq_ended (n := 2 + vals.length + nv) (by simp +arith [nv, a]), readFloats_bytes] at h
    exact ⟨_, h, cellsWritten_writeRun harr _ _⟩

/-- Settles O30: the template lookup, the template reader, then the two checks left; A and DRTV are each written by one run. -/
theorem unpk5LatchesTemplate : Obligations.Unpk5LatchesTemplate := by
  intro s harr hdrtv hready a nd t
  have h := exec_of_ready (i := .unpk5) hready rfl
  simp only [sectionAt_a] at h
  split
  case h_1 hrom =>
    rw [hrom] at h
    exact h
  case h_2 desc hrom =>
    rw [hrom] at h
    refine ⟨fun r => failed_of_readKnown h, fun vals a2 hread => ?_⟩
    have h := exec_goes_on h hread
    refine failed_else h lt_iff_decide_eq_false fun _ h => ?_
    refine failed_else h lt_iff_decide_eq_false fun _ h => ?_
    rw [commit_eq_ended (n := 2 + vals.length) (by simp +arith)] at h
    exact ⟨_, _, h, cellsWritten_writeRun harr _ _, cellsWritten_writeRun hdrtv _ _⟩

/-- Settles O31: the four kinds of indicator, each with its own checks; the three that succeed share their end. -/
theorem unpk6ReturnsBitmap : Obligations.Unpk6ReturnsBitmap := by
  intro s harr hready a ind n ends
  have hopen := exec_of_ready (i := .unpk6) hready rfl
  have h : exec .unpk6 s = endCommand s (bitmapBody s (sectionAt s) ind >>= fun b =>
      .ok (((s.commit .ok s.dst (zext64 ind :: b.1) 0 b.1.length).setCtx (bitmapContext s.ctx ind b.2)).closeSection 6
        (sectionAt s))) := hopen
  have hends {flags : List Word} {bmap : Bool} (h : exec .unpk6 s = .next
      (((s.commit .ok s.dst (zext64 ind :: flags) 0 flags.length).setCtx (bitmapContext s.ctx ind bmap)).closeSection 6
        (sectionAt s))) : ends flags bmap := by
    rw [commit_eq_ended (n := 1 + flags.length) (by simp +arith)] at h
    exact ⟨_, h, cellsWritten_writeRun harr _ _⟩
  unfold bitmapBody at h
  split
  case isTrue hind =>
    simp only [if_pos hind, bind_assoc] at h
    refine failed_else h Iff.rfl fun _ h => ?_
    refine failed_else h lt_iff_decide_eq_false fun _ h => ?_
    refine failed_else h lt_iff_decide_eq_false fun _ h => ?_
    exact hends h
  case isFalse hzero =>
  split
  case isTrue hind =>
    simp only [if_neg hzero, if_pos hind, bind_assoc] at h
    refine failed_else h Iff.rfl fun hbmap h => ?_
    refine failed_else h lt_iff_decide_eq_false fun _ h => ?_
    rw [Bool.eq_true_of_not_eq_false hbmap] at h
    exact hends h
  case isFalse hprior =>
  split
  case isTrue hind =>
    simp only [if_neg hzero, if_neg hprior, if_pos hind, bind_assoc] at h
    refine failed_else h lt_iff_decide_eq_false fun _ h => ?_
    exact hends h
  case isFalse hmissing =>
    simp only [if_neg hzero, if_neg hprior, if_neg hmissing] at h
    exact h

/-- Settles O32: the checks of CHKEND in their order. -/
theorem chkendClosesMessage : Obligations.ChkendClosesMessage := by
  refine fun s => ⟨rfl, rfl, ?_⟩
  have h : exec .chkend s = endCommand s (runChkend s) := rfl
  refine failed_else h beq_eq_false_iff_ne.symm fun _ h => ?_
  refine faulted_else (n := 4) h (by decide) Iff.rfl rfl fun _ h => ?_
  refine failed_else h beq_eq_false_iff_ne.symm fun _ h => ?_
  refine failed_else h beq_eq_false_iff_ne.symm fun _ h => ?_
  exact h

/-- Settles O33: the checks of SKIPSEC in their order; the section's body is not among them. -/
theorem skipsecPassesSection : Obligations.SkipsecPassesSection := by
  intro s a len k stop least
  refine ⟨rfl, rfl, ?_⟩
  have h : exec .skipsec s = endCommand s (runSkipsec s) := rfl
  refine failed_else h (by simp only [Bool.not_eq_false', Bool.or_eq_true, beq_iff_eq]) fun _ h => ?_
  refine failed_else h past_iff_check_eq_false fun _ h => ?_
  refine faulted_else (n := 5) h (by decide) Iff.rfl rfl fun _ h => ?_
  refine failed_else h (by rw [Bool.and_eq_false_iff, ← lt_iff_decide_eq_false, ← lt_iff_decide_eq_false]) fun hk h => ?_
  refine failed_else h notMem_iff_contains_eq_false fun _ h => ?_
  have hleast : minLength k = least := minLength_eq_getD (by omega)
  refine failed_else h (hleast ▸ lt_iff_decide_eq_false) fun _ h => ?_
  refine failed_else h past_iff_check_eq_false fun _ h => ?_
  rw [skipContext_eq] at h
  exact h

end Sys2Proof.Machine
end

section
/-! SUPPORT. UNPK7 (spec/44_decompress.md R291-R307): the dispatch table, the parameters of a field, what is done after the
checks, and the end of each of the two steps. -/

namespace Sys2Proof.Machine

variable {s : State} {alg : Algorithm} {p : LinearParams} {sec : Section}

/-! ### Dispatch and parameters -/

/-- A lookup finds just the rows of a dispatch table in which no two have the same number. -/
theorem dispatchLookup_eq_some_iff {table : List (Nat × Algorithm)} (hkeys : (table.map (·.1)).Nodup) {n : Nat} :
    dispatchLookup table n = some alg ↔ (n, alg) ∈ table := by
  rw [dispatchLookup, Option.map_eq_some_iff]
  constructor
  · rintro ⟨⟨k, a⟩, hfind, rfl⟩
    obtain rfl : k = n := by simpa using List.find?_some hfind
    exact List.mem_of_find?_eq_some hfind
  · intro hmem
    cases hfind : table.find? (fun r => r.1 == n) with
    | none => exact absurd (List.find?_eq_none.mp hfind _ hmem) (by simp)
    | some row =>
      have hkey : row.1 = n := by simpa using List.find?_some hfind
      exact ⟨row, rfl, congrArg Prod.snd (List.inj_on_of_nodup_map hkeys (List.mem_of_find?_eq_some hfind) hmem hkey)⟩

/-- R291, column enable parameter: simple packing has none. -/
theorem hasAlgorithm_eq_false {c : Config} : hasAlgorithm c alg = false ↔
    (alg = .jpeg2000 ∧ c.hasJpeg2000 = false) ∨ (alg = .png ∧ c.hasPng = false) ∨ (alg = .aec ∧ c.hasAec = false) ∨
      (alg = .rle ∧ c.hasRle = false) := by
  cases alg <;> simp [hasAlgorithm]

/-- R293: every algorithm but run-length takes its parameters from the first four DRT values. -/
theorem linearParams_of_ne_rle (h : alg ≠ .rle) :
    linearParams s alg = if 4 ≤ s.ctx.drtLen.toNat then
      some (paramsFromCells (Sparse.read s.drtv 0) (Sparse.read s.drtv 1) (Sparse.read s.drtv 2) (Sparse.read s.drtv 3))
      else none := by
  cases alg with
  | rle => exact absurd rfl h
  | simple | jpeg2000 | png | aec => rfl

theorem linearParams_rle : linearParams s .rle = s.cfg.rleParams.map fun rule => rleParamsOf rule s.drtValues := rfl

theorem drtValues_eq (s : State) : s.drtValues = (List.range s.ctx.drtLen.toNat).map fun k => Sparse.read s.drtv k := by
  simp only [State.drtValues, Sparse.readRun, Nat.zero_add]

/-! ### After the checks -/

/-- R306: a constant field. -/
theorem decompress_constant (hnb : p.nb = 0) :
    decompress s sec alg p = .ok (finish7 s sec s.dst (List.replicate s.ctx.ndpts.toNat (floatCell p.rpat))) := if_pos hnb

/-- R307. -/
theorem decompress_badNbits (hnb : 32 < p.nb) : decompress s sec alg p = .error (.error .badNbits) :=
  (if_neg (by omega)).trans (if_pos hnb)

section
variable (hlo : 1 ≤ p.nb) (hhi : p.nb ≤ 32)
include hlo hhi

theorem decompress_shortPayload (hbits : 8 * (sec.len - 5) < s.ctx.ndpts.toNat * p.nb) :
    decompress s sec .simple p = .error (.error .shortPayload) :=
  (if_neg (by omega)).trans ((if_neg (by omega)).trans (if_pos hbits))

/-- R305: simple packing with enough payload. -/
theorem decompress_simple (hbits : s.ctx.ndpts.toNat * p.nb ≤ 8 * (sec.len - 5)) :
    decompress s sec .simple p =
      .ok (finish7 s sec s.dst (reconCells s.cfg.recon p (simpleSamples s.mem sec.a s.ctx.ndpts.toNat p.nb))) :=
  (if_neg (by omega)).trans ((if_neg (by omega)).trans (if_neg (by omega)))

/-- R300: an external algorithm. -/
theorem decompress_external (hext : alg ≠ .simple) :
    decompress s sec alg p = .ok (s.sendRequest (pendingOf s sec alg p)) := by
  refine (if_neg (by omega)).trans ((if_neg (by omega)).trans ?_)
  cases alg with
  | simple => exact absurd rfl hext
  | jpeg2000 | png | aec | rle => rfl

end

/-- `finish7` of R292 with n output cells. -/
theorem finish7_eq {d n : Nat} {out : List Word} (hlen : out.length = n) :
    finish7 s sec d out = { (s.ended .ok n 0 0).past 7 sec with arr := Sparse.writeRun s.arr d out } := by
  rw [finish7, commit_eq_ended hlen]
  rfl

/-! ### The two steps -/

/-- UNPK7 once its checks have passed (R292). -/
theorem exec_unpk7_checked (hready : SectionReady s 7 5) (hdrt : s.ctx.drtValid = true)
    (halg : dispatchLookup s.cfg.dispatch s.ctx.drtNum.toNat = some alg) (hhas : hasAlgorithm s.cfg alg = true)
    (hparams : linearParams s alg = some p) (hspace : s.dst + s.ctx.ndpts.toNat ≤ s.cfg.aCells) :
    exec .unpk7 s = endCommand s (decompress s (sectionAt s) alg p) := by
  have h := exec_of_ready (i := .unpk7) hready rfl
  have h := exec_goes_on (a := ()) h (need_ok.mpr hdrt)
  have h := exec_goes_on h (orRaise_ok.mpr halg)
  have h := exec_goes_on (a := ()) h (need_ok.mpr hhas)
  have h := exec_goes_on h (orRaise_ok.mpr hparams)
  exact exec_goes_on (a := ()) h (needSpace_ok.mpr hspace)

/-- The second step of UNPK7 on samples that pass the checks of R304. -/
theorem engineFinish_samples {q : Pending} {xs : List Nat} (hlen : xs.length = q.n) (hfit : ∀ x ∈ xs, x < 2 ^ q.params.nb) :
    engineFinish q (.samples xs) s = .next { (s.ended .ok q.n 0 0).past 7 ⟨q.a, q.len⟩ with
      arr := Sparse.writeRun s.arr q.dst (reconCells s.cfg.recon q.params xs) } := by
  rw [engineFinish, runUnpk7Answer_ok.mpr ⟨xs, rfl, hlen, hfit, rfl⟩, finish7_eq (by rw [reconCells, List.length_map, hlen]),
    endCommand_ok]

theorem engineFinish_sampleCount {q : Pending} {xs : List Nat} (hlen : xs.length ≠ q.n) :
    engineFinish q (.samples xs) s = .next (s.failed .sampleCount) :=
  congrArg (endCommand s) (need_bind_raise (beq_eq_false_iff_ne.mpr hlen))

theorem engineFinish_tooWide {q : Pending} {xs : List Nat} (hlen : xs.length = q.n) (hwide : ∃ x ∈ xs, 2 ^ q.params.nb ≤ x) :
    engineFinish q (.samples xs) s = .next (s.failed .codecFailed) := by
  have hcheck : xs.all (fun x => x < 2 ^ q.params.nb) = false := by simpa using hwide
  have hrun : runUnpk7Answer q (.samples xs) s = .error (.error .codecFailed) :=
    (ok_bind (a := ()) (need_ok.mpr (beq_iff_eq.mpr hlen))).trans (error_bind (need_error.mpr ⟨hcheck, rfl⟩))
  exact congrArg (endCommand s) hrun

end Sys2Proof.Machine
end

section
/-! PROOFS. The statements of spec/44_decompress.md on UNPK7: the parameters of a field, the refusals, the three ways of the
first step, and the second step. -/

namespace Sys2Proof.Machine

/-- Settles O34: the four latched cells, or RLE_PARAMS of the latched values. -/
theorem parametersComeFromDrtv : Obligations.ParametersComeFromDrtv := by
  refine fun s => ⟨fun alg halg => ?_, fun hnone => ?_, fun rule hrule => ?_⟩
  · simp only [linearParams_of_ne_rle halg, ← Nat.not_le, ite_not, paramsFromCells, tc64inv,
      BitVec.setWidth_eq_extractLsb' (show 32 ≤ 64 by decide)]
  · rw [linearParams_rle, hnone, Option.map_none]
  · rw [linearParams_rle, hrule, Option.map_some, drtValues_eq]

/-- Settles O35: the rows of the default table have different numbers; then the checks of UNPK7 in their order, the last two of
them in `decompress`. -/
theorem unpk7Refusals : Obligations.Unpk7Refusals := by
  refine ⟨fun _ _ => dispatchLookup_eq_some_iff (by decide), ?_⟩
  intro s hready n
  refine failed_else (exec_of_ready (i := .unpk7) hready rfl) Iff.rfl fun _ h => ?_
  split
  case h_1 hnone => exact failed_of_error h (orRaise_error.mpr ⟨hnone, rfl⟩)
  case h_2 alg halg =>
    have h := exec_goes_on h (orRaise_ok.mpr halg)
    refine failed_else h hasAlgorithm_eq_false.symm fun _ h => ?_
    split
    case h_1 hnone => exact failed_of_error h (orRaise_error.mpr ⟨hnone, rfl⟩)
    case h_2 p hparams =>
      have h := exec_goes_on h (orRaise_ok.mpr hparams)
      refine failed_else h lt_iff_decide_eq_false fun _ h => ?_
      split
      case isTrue hnb => exact h.trans (congrArg (endCommand s) (decompress_badNbits hnb))
      case isFalse hnb =>
        rintro ⟨rfl, hbits, hpos⟩
        exact h.trans (congrArg (endCommand s) (decompress_shortPayload (by omega) (by omega) hbits))

/-- Settles O36: bit width 0 is met before the algorithm is looked at. -/
theorem constantFieldCopiesReference : Obligations.ConstantFieldCopiesReference := by
  intro s alg p harr hready hdrt halg hhas hparams hspace hnb
  have h := exec_unpk7_checked hready hdrt halg hhas hparams hspace
  rw [decompress_constant hnb, finish7_eq List.length_replicate] at h
  exact ⟨_, h, cellsWritten_writeRun harr _ _⟩

/-- Settles O37: the samples are the fields of the payload, and each output cell is RECON of its sample. -/
theorem simplePackingReconstructs : Obligations.SimplePackingReconstructs := by
  intro s p harr hready hdrt halg hparams hspace hlo hhi hbits
  have h := exec_unpk7_checked hready hdrt halg rfl hparams hspace
  rw [decompress_simple hlo hhi hbits, simpleSamples, reconCells, List.map_map,
    finish7_eq (by rw [List.length_map, List.length_range])] at h
  exact ⟨_, h, cellsWritten_writeRun harr _ _⟩

/-- Settles O38: past the checks, an external algorithm only sends its request. -/
theorem externalFieldSendsRequest : Obligations.ExternalFieldSendsRequest := by
  intro s alg p hready hdrt halg hext hhas hparams hspace hlo hhi
  have h := exec_unpk7_checked hready hdrt halg hhas hparams hspace
  rw [decompress_external hlo hhi hext, State.sendRequest, pendingOf, drtValues_eq] at h
  exact h

/-- Settles O39: the checks of the answer in their order, then the end of the command with the copies of the waiting state. -/
theorem codecAnswerIsChecked : Obligations.CodecAnswerIsChecked :=
  fun _ _ harr => ⟨rfl, fun _ => ⟨engineFinish_sampleCount, engineFinish_tooWide,
    fun hlen hfit => ⟨_, engineFinish_samples hlen hfit, cellsWritten_writeRun harr _ _⟩⟩⟩

end Sys2Proof.Machine
end

section
/-! SUPPORT. Binary32 patterns and the numbers they stand for (spec/00_scope.md R18): a pattern is determined by its fields, a
finite one by its number and, at zero, its sign; a number that some pattern stands for is rounded to itself. -/

namespace Sys2Proof.Machine

variable {f g : F32} {v w q : ℚ} {neg : Bool} {mant : Nat} {exp : Int}

/-! ### A pattern by its fields -/

theorem toNat_eq_fields (f : F32) : f.toNat = (f32Sign f).toNat * 2 ^ 31 + f32Biased f * 2 ^ 23 + f32Fraction f := by
  have hf := f.isLt
  simp only [f32Sign, f32Biased, f32Fraction, BitVec.extractLsb'_toNat, Nat.shiftRight_eq_div_pow, BitVec.getLsbD,
    Nat.toNat_testBit]
  omega

theorem f32_ext (hsign : f32Sign f = f32Sign g) (hbiased : f32Biased f = f32Biased g)
    (hfraction : f32Fraction f = f32Fraction g) : f = g :=
  BitVec.eq_of_toNat_eq (by rw [toNat_eq_fields f, toNat_eq_fields g, hsign, hbiased, hfraction])

theorem f32Fraction_lt (f : F32) : f32Fraction f < 2 ^ 23 := BitVec.isLt _

theorem f32Biased_lt (f : F32) : f32Biased f < 2 ^ 8 := BitVec.isLt _

theorem f32Value_eq_nan : f32Value f = .nan ↔ f32Biased f = 255 ∧ f32Fraction f ≠ 0 := by
  unfold f32Value
  split_ifs <;> simp_all

theorem f32Value_eq_inf : f32Value f = .inf neg ↔ f32Biased f = 255 ∧ f32Fraction f = 0 ∧ f32Sign f = neg := by
  unfold f32Value
  split_ifs <;> simp_all

/-- A finite pattern is subnormal or normal. -/
theorem f32Value_eq_finite : f32Value f = .finite neg mant exp ↔ f32Sign f = neg ∧
    (f32Biased f = 0 ∧ mant = f32Fraction f ∧ exp = -149 ∨
      f32Biased f ≠ 0 ∧ f32Biased f ≠ 255 ∧ mant = 2 ^ 23 + f32Fraction f ∧ exp = f32Biased f - 150) := by
  unfold f32Value
  split_ifs <;> grind

@[simp] theorem f32Value_f32Inf (neg : Bool) : f32Value (f32Inf neg) = .inf neg := by cases neg <;> rfl

/-- The pattern of an infinity. -/
theorem eq_f32Inf (h : f32Value f = .inf neg) : f = f32Inf neg := by
  obtain ⟨hb, hf, hs⟩ := f32Value_eq_inf.mp h
  obtain ⟨hb', hf', hs'⟩ := f32Value_eq_inf.mp (f32Value_f32Inf neg)
  exact f32_ext (hs.trans hs'.symm) (hb.trans hb'.symm) (hf.trans hf'.symm)

/-- The ranges of a finite pattern: the magnitude has at most 24 bits, and all of them unless the exponent is the least. -/
theorem f32Value_finite_range (h : f32Value f = .finite neg mant exp) :
    mant < 2 ^ 24 ∧ -149 ≤ exp ∧ exp ≤ 104 ∧ (exp = -149 ∨ 2 ^ 23 ≤ mant) := by
  have hfraction := f32Fraction_lt f
  have hbiased := f32Biased_lt f
  obtain ⟨-, ⟨-, rfl, rfl⟩ | ⟨hpos, htop, rfl, rfl⟩⟩ := f32Value_eq_finite.mp h <;> omega

/-- A finite pattern is determined by its value. -/
theorem eq_of_f32Value_finite (hf : f32Value f = .finite neg mant exp) (hg : f32Value g = .finite neg mant exp) : f = g := by
  have hlt := f32Fraction_lt f
  have hlt' := f32Fraction_lt g
  obtain ⟨hs, hfields⟩ := f32Value_eq_finite.mp hf
  obtain ⟨hs', hfields'⟩ := f32Value_eq_finite.mp hg
  exact f32_ext (hs.trans hs'.symm) (by omega) (by omega)

/-! ### The number of a finite pattern -/

/-- (-1)^neg. -/
def signRat (neg : Bool) : ℚ := if neg then -1 else 1

theorem f32Rat_of_value (h : f32Value f = .finite neg mant exp) : f32Rat f = some (signRat neg * mant * 2 ^ exp) :=
  f32Rat_eq_some.mpr ⟨_, _, _, h, rfl⟩

theorem f32Rat_finite (h : f32Rat f = some v) :
    ∃ mant exp, f32Value f = .finite (f.getLsbD 31) mant exp ∧ v = signRat (f.getLsbD 31) * mant * 2 ^ exp := by
  obtain ⟨neg, mant, exp, hf, rfl⟩ := f32Rat_eq_some.mp h
  obtain rfl : f.getLsbD 31 = neg := (f32Value_eq_finite.mp hf).1
  exact ⟨mant, exp, hf, rfl⟩

theorem signRat_mul_signRat (a b : Bool) : signRat a * signRat b = signRat (a ^^ b) := by
  cases a <;> cases b <;> norm_num [signRat]

theorem signRat_ne_zero (neg : Bool) : signRat neg ≠ 0 := by cases neg <;> norm_num [signRat]

@[simp] theorem abs_signRat (neg : Bool) : |signRat neg| = 1 := by cases neg <;> norm_num [signRat]

theorem signed_eq_zero : signRat neg * mant * 2 ^ exp = 0 ↔ mant = 0 := by
  simp [signRat_ne_zero, zpow_ne_zero]

theorem f32Rat_sign (h : f32Rat f = some v) (hv : v ≠ 0) : f.getLsbD 31 = decide (v < 0) := by
  obtain ⟨mant, exp, -, rfl⟩ := f32Rat_finite h
  have hmant : mant ≠ 0 := mt signed_eq_zero.mpr hv
  have hpos : (0 : ℚ) < mant * 2 ^ exp := by positivity
  cases f.getLsbD 31 with
  | false => simpa [signRat] using hpos.le
  | true => simpa [signRat] using hpos

/-- Every finite pattern lies below the midpoint past the largest number. -/
theorem f32Rat_abs_lt (h : f32Rat f = some v) : |v| < 2 ^ 128 - 2 ^ 103 := by
  obtain ⟨mant, exp, hf, rfl⟩ := f32Rat_finite h
  obtain ⟨hmant, -, hexp, -⟩ := f32Value_finite_range hf
  have hmant : (mant : ℚ) ≤ 2 ^ 24 - 1 := by rw [le_sub_iff_add_le]; exact_mod_cast hmant
  rw [abs_mul, abs_mul, abs_signRat, one_mul, Nat.abs_cast, abs_of_pos (by positivity : (0 : ℚ) < 2 ^ exp)]
  calc (mant : ℚ) * 2 ^ exp ≤ (2 ^ 24 - 1) * 2 ^ (104 : Int) := by gcongr; norm_num
    _ < 2 ^ 128 - 2 ^ 103 := by norm_num

/-- Of two normalized forms of one magnitude, neither has the smaller exponent. -/
theorem normal_exp_le {m m' : Nat} {x x' : Int} (hm : m < 2 ^ 24) (hx : -149 ≤ x) (hnorm : x' = -149 ∨ 2 ^ 23 ≤ m')
    (heq : (m : ℚ) * 2 ^ x = m' * 2 ^ x') : x' ≤ x := by
  by_contra hlt
  have hm' : (2 ^ 23 : ℚ) ≤ m' := by exact_mod_cast hnorm.resolve_left (by omega)
  have hm : (m : ℚ) < 2 ^ 24 := by exact_mod_cast hm
  have : (m : ℚ) * 2 ^ x < m' * 2 ^ x' := calc
    (m : ℚ) * 2 ^ x < 2 ^ 24 * 2 ^ x := by gcongr
    _ = 2 ^ 23 * 2 ^ (x + 1) := by rw [zpow_add_one₀ two_ne_zero]; ring
    _ ≤ m' * 2 ^ x' := by gcongr <;> [norm_num; omega]
  exact this.ne heq

/-- A finite pattern is determined by its number and, at zero, its sign. -/
theorem eq_of_f32Rat_eq_some (hf : f32Rat f = some v) (hg : f32Rat g = some v) (hsign : v = 0 → f.getLsbD 31 = g.getLsbD 31) :
    f = g := by
  replace hsign : f.getLsbD 31 = g.getLsbD 31 := by
    by_cases hv : v = 0
    · exact hsign hv
    · rw [f32Rat_sign hf hv, f32Rat_sign hg hv]
  obtain ⟨m, x, hfv, rfl⟩ := f32Rat_finite hf
  obtain ⟨m', x', hgv, heq⟩ := f32Rat_finite hg
  rw [← hsign, mul_assoc, mul_assoc] at heq
  rw [← hsign] at hgv
  have heq := mul_left_cancel₀ (signRat_ne_zero _) heq
  obtain ⟨hm, hx, -, hnorm⟩ := f32Value_finite_range hfv
  obtain ⟨hm', hx', -, hnorm'⟩ := f32Value_finite_range hgv
  obtain rfl : x = x' := le_antisymm (normal_exp_le hm' hx' hnorm heq.symm) (normal_exp_le hm hx hnorm' heq)
  obtain rfl : m = m' := by exact_mod_cast mul_right_cancel₀ (zpow_ne_zero x two_ne_zero) heq
  exact eq_of_f32Value_finite hfv hgv

/-- A normalized count of units of 2^(n - 149), below the top, is the number of a pattern. -/
theorem exists_f32Rat_of_normal {m n : Nat} (hm : m < 2 ^ 24) (hnorm : n = 0 ∨ 2 ^ 23 ≤ m) (hn : m * 2 ^ n < 2 ^ 277) :
    ∃ g, f32Rat g = some ((m : ℚ) * 2 ^ ((n : Int) - 149)) := by
  have hn : n ≤ 253 := by
    by_contra hlarge
    have hle : 2 ^ 23 * 2 ^ 254 ≤ m * 2 ^ n :=
      Nat.mul_le_mul (hnorm.resolve_left (by omega)) (Nat.pow_le_pow_right two_pos (by omega))
    omega
  have h := f32Rat_units (neg := false) hm.le (fun h0 => hnorm.resolve_left h0.ne') (by omega : n * 2 ^ 23 + m < 255 * 2 ^ 23)
  exact ⟨_, by simpa using h⟩

/-- So is any count of fewer than 2^24 units: it is doubled, in half the unit, until it is normalized. -/
theorem exists_f32Rat {m n : Nat} (hm : m < 2 ^ 24) (hn : m * 2 ^ n < 2 ^ 277) :
    ∃ g, f32Rat g = some ((m : ℚ) * 2 ^ ((n : Int) - 149)) := by
  induction n generalizing m with
  | zero => exact exists_f32Rat_of_normal hm (.inl rfl) hn
  | succ k ih =>
    by_cases hnorm : 2 ^ 23 ≤ m
    · exact exists_f32Rat_of_normal hm (.inr hnorm) hn
    · obtain ⟨g, hg⟩ := ih (m := 2 * m) (by omega) (by rwa [mul_comm 2, mul_assoc, ← pow_succ'])
      refine ⟨g, hg.trans (congrArg some ?_)⟩
      rw [show ((k + 1 : Nat) : Int) - 149 = (k : Int) - 149 + 1 by push_cast; ring, zpow_add_one₀ two_ne_zero]
      push_cast
      ring

/-! ### Rounding -/

/-- A number that some pattern stands for is rounded to itself. -/
theorem NearestF32.f32Rat_eq (h : NearestF32 q f) (hg : f32Rat g = some q) : f32Rat f = some q := by
  obtain ⟨v, hv, hnear⟩ := h.nearest (f32Rat_abs_lt hg)
  have hdist : |q - v| ≤ 0 := by simpa using (hnear g q hg).1
  rwa [sub_eq_zero.mp (abs_nonpos_iff.mp hdist)]

/-- Rounding the number of a pattern gives the pattern, where the sign of a zero agrees. -/
theorem NearestF32.eq_of_f32Rat (h : NearestF32 q f) (hg : f32Rat g = some q) (hsign : q = 0 → f.getLsbD 31 = g.getLsbD 31) :
    f = g :=
  eq_of_f32Rat_eq_some (h.f32Rat_eq hg) hg hsign

/-- A rounded number is no NaN. -/
theorem NearestF32.ne_nan (h : NearestF32 q f) : f32Value f ≠ .nan := by
  intro hnan
  rcases lt_or_ge |q| (2 ^ 128 - 2 ^ 103) with hlt | hge
  · obtain ⟨v, hv, -⟩ := h.nearest hlt
    obtain ⟨_, _, hfinite, -⟩ := f32Rat_finite hv
    cases hnan.symm.trans hfinite
  · cases hnan.symm.trans (h.overflow hge)

/-- The sign of a rounded number is the sign it was given, also at zero. -/
theorem getLsbD_f32 (neg : Bool) (num den : Nat) : (f32 neg num den).getLsbD 31 = neg := by
  refine f32Sign_ofNat ?_
  unfold roundMagnitude
  split
  · decide
  · exact (min_le_right _ _).trans_lt (by decide)

end Sys2Proof.Machine
end

section
/-! SUPPORT. The operations of RECON (spec/44_decompress.md R310): what each makes of finite numbers, infinities and NaNs, and
the operands of STEP32. -/

namespace Sys2Proof.Machine

variable {a b f rpat : F32} {v w : ℚ} {n m : Bool} {mant mant' : Nat} {exp exp' e d : Int} {x : Nat}

/-! ### Exact values of the model's naturals and integers -/

theorem signRat_false : signRat false = 1 := rfl

theorem signedMant_false (k : Nat) : signedMant false k = k := rfl

theorem signedMant_cast (neg : Bool) (k : Nat) : (signedMant neg k : ℚ) = signRat neg * k := by
  cases neg <;> simp [signedMant, signRat]

theorem signRat_mul_natAbs (i : Int) : signRat (decide (i < 0)) * i.natAbs = i := by
  rw [Nat.cast_natAbs]
  by_cases h : i < 0
  · simp [signRat, h, abs_of_neg]
  · simp [signRat, h, abs_of_nonneg (not_lt.mp h)]

/-- Two signed numbers as integers in the unit of the lesser exponent. -/
theorem aligned_sum (n m : Bool) (mant mant' : Nat) {low exp exp' : Int} (hlow : low ≤ exp) (hlow' : low ≤ exp') :
    ((signedMant n (mant * pow2 (exp - low)) + signedMant m (mant' * pow2 (exp' - low)) : Int) : ℚ) * 2 ^ low =
      signRat n * mant * 2 ^ exp + signRat m * mant' * 2 ^ exp' := by
  have hscale {x : Int} (hx : low ≤ x) : (pow2 (x - low) : ℚ) * 2 ^ low = 2 ^ x := by
    rw [pow2, Nat.cast_pow, Nat.cast_ofNat, ← zpow_natCast, Int.toNat_of_nonneg (by omega), ← zpow_add₀ two_ne_zero,
      sub_add_cancel]
  rw [← hscale hlow, ← hscale hlow', Int.cast_add, signedMant_cast, signedMant_cast]
  push_cast
  ring

/-- 10^i as the quotient of two naturals. -/
theorem pow10_div (i : Int) : (10 : ℚ) ^ i.toNat / 10 ^ (-i).toNat = 10 ^ i := by
  obtain ⟨k, rfl | rfl⟩ := i.eq_nat_or_neg <;> simp

/-! ### NaNs -/

theorem quiet_quiet (f : F32) : quiet (quiet f) = quiet f := by rw [quiet, quiet, BitVec.or_assoc, BitVec.or_self]

theorem f32Value_quiet (h : f32Value f = .nan) : f32Value (quiet f) = .nan := by
  obtain ⟨hbiased, -⟩ := f32Value_eq_nan.mp h
  refine f32Value_eq_nan.mpr ⟨?_, fun hzero => ?_⟩
  · rw [f32Biased, quiet, BitVec.extractLsb'_or, show (0x00400000 : F32).extractLsb' 23 8 = 0 by decide]
    exact (congrArg BitVec.toNat BitVec.or_zero).trans hbiased
  · have hbit : ((quiet f).extractLsb' 0 23).getLsbD 22 = false := by
      rw [BitVec.eq_of_toNat_eq (y := 0#23) hzero, BitVec.getLsbD_zero]
    simp [quiet] at hbit

/-! ### Multiplication -/

theorem f32Mul_nan_left (ha : f32Value a = .nan) (b : F32) : f32Mul a b = quiet a := by simp only [f32Mul, ha]

theorem f32Mul_nan_right (ha : f32Value a ≠ .nan) (hb : f32Value b = .nan) : f32Mul a b = quiet b := by
  cases h : f32Value a with
  | nan => exact absurd h ha
  | inf | finite => simp only [f32Mul, h, hb]

theorem f32Mul_inf_inf (ha : f32Value a = .inf n) (hb : f32Value b = .inf m) : f32Mul a b = f32Inf (n ^^ m) := by
  simp only [f32Mul, ha, hb]

theorem f32Mul_inf_finite (ha : f32Value a = .inf n) (hb : f32Value b = .finite m mant exp) :
    f32Mul a b = if mant = 0 then f32DefaultNan else f32Inf (n ^^ m) := by simp only [f32Mul, ha, hb]

theorem f32Mul_finite_inf (ha : f32Value a = .finite n mant exp) (hb : f32Value b = .inf m) :
    f32Mul a b = if mant = 0 then f32DefaultNan else f32Inf (n ^^ m) := by simp only [f32Mul, ha, hb]

theorem f32Mul_finite (ha : f32Value a = .finite n mant exp) (hb : f32Value b = .finite m mant' exp') :
    f32Mul a b = f32Dyadic (n ^^ m) (mant * mant') (exp + exp') := by simp only [f32Mul, ha, hb]

section Finite
variable (ha : f32Rat a = some v) (hb : f32Rat b = some w)
include ha hb

theorem nearest_f32Mul : NearestF32 (v * w) (f32Mul a b) := by
  obtain ⟨mant, exp, hav, rfl⟩ := f32Rat_finite ha
  obtain ⟨mant', exp', hbv, rfl⟩ := f32Rat_finite hb
  have h : NearestF32 (signRat (a.getLsbD 31 ^^ b.getLsbD 31) * ((mant * mant' : Nat) * 2 ^ (exp + exp'))) (f32Mul a b) :=
    f32Mul_finite hav hbv ▸ nearest_f32Dyadic _ _ _
  convert h using 1
  rw [← signRat_mul_signRat, zpow_add₀ two_ne_zero]
  push_cast
  ring

/-- The sign of a product of finite numbers, rounded to zero or not. -/
theorem getLsbD_f32Mul : (f32Mul a b).getLsbD 31 = (a.getLsbD 31 ^^ b.getLsbD 31) := by
  obtain ⟨_, _, hav, -⟩ := f32Rat_finite ha
  obtain ⟨_, _, hbv, -⟩ := f32Rat_finite hb
  rw [f32Mul_finite hav hbv]
  exact getLsbD_f32 _ _ _

end Finite

/-! ### Addition -/

theorem f32Add_nan_left (ha : f32Value a = .nan) (b : F32) : f32Add a b = quiet a := by simp only [f32Add, ha]

theorem f32Add_nan_right (ha : f32Value a ≠ .nan) (hb : f32Value b = .nan) : f32Add a b = quiet b := by
  cases h : f32Value a with
  | nan => exact absurd h ha
  | inf | finite => simp only [f32Add, h, hb]

theorem f32Add_inf_inf (ha : f32Value a = .inf n) (hb : f32Value b = .inf m) :
    f32Add a b = if n = m then f32Inf n else f32DefaultNan := by simp only [f32Add, ha, hb]

theorem f32Add_inf_finite (ha : f32Value a = .inf n) (hb : f32Value b = .finite m mant exp) : f32Add a b = a := by
  rw [eq_f32Inf ha]
  simp only [f32Add, f32Value_f32Inf, hb]

theorem f32Add_finite_inf (ha : f32Value a = .finite n mant exp) (hb : f32Value b = .inf m) : f32Add a b = b := by
  rw [eq_f32Inf hb]
  simp only [f32Add, f32Value_f32Inf, ha]

theorem f32Add_finite (ha : f32Value a = .finite n mant exp) (hb : f32Value b = .finite m mant' exp') :
    f32Add a b = addFinite n mant exp m mant' exp' := by simp only [f32Add, ha, hb]

/-- The sum of two finite numbers is rounded once, and an exact zero is negative only where both are. -/
theorem addFinite_spec (n m : Bool) (mant mant' : Nat) (exp exp' : Int) :
    NearestF32 (signRat n * mant * 2 ^ exp + signRat m * mant' * 2 ^ exp') (addFinite n mant exp m mant' exp') ∧
      (signRat n * mant * 2 ^ exp + signRat m * mant' * 2 ^ exp' = 0 →
        (addFinite n mant exp m mant' exp').getLsbD 31 = (n && m)) := by
  rw [← aligned_sum n m mant mant' (min_le_left exp exp') (min_le_right exp exp')]
  unfold addFinite
  simp only
  generalize signedMant n (mant * pow2 (exp - min exp exp')) + signedMant m (mant' * pow2 (exp' - min exp exp')) = sum
  split
  case isTrue hzero =>
    refine ⟨?_, fun _ => getLsbD_f32 _ _ _⟩
    simpa [hzero] using nearest_f32 (n && m) 0 one_pos
  case isFalse hne =>
    refine ⟨?_, fun hzero => absurd hzero ?_⟩
    · rw [← signRat_mul_natAbs, mul_assoc]
      exact nearest_f32Dyadic _ _ _
    · exact mul_ne_zero (Int.cast_ne_zero.mpr hne) (zpow_ne_zero _ two_ne_zero)

theorem f32Add_spec (ha : f32Rat a = some v) (hb : f32Rat b = some w) : NearestF32 (v + w) (f32Add a b) ∧
    (v + w = 0 → (f32Add a b).getLsbD 31 = (a.getLsbD 31 && b.getLsbD 31)) := by
  obtain ⟨mant, exp, hav, rfl⟩ := f32Rat_finite ha
  obtain ⟨mant', exp', hbv, rfl⟩ := f32Rat_finite hb
  rw [f32Add_finite hav hbv]
  exact addFinite_spec _ _ _ _ _ _

/-- A NaN that an addition gives has its quiet bit set. -/
theorem quiet_f32Add (h : f32Value (f32Add a b) = .nan) : quiet (f32Add a b) = f32Add a b := by
  cases ha : f32Value a with
  | nan => rw [f32Add_nan_left ha, quiet_quiet]
  | inf n =>
    cases hb : f32Value b with
    | nan => rw [f32Add_nan_right (by simp [ha]) hb, quiet_quiet]
    | inf m =>
      rw [f32Add_inf_inf ha hb] at h ⊢
      split at h
      · cases h.symm.trans (f32Value_f32Inf n)
      · rw [if_neg ‹_›]; rfl
    | finite m mant exp => rw [f32Add_inf_finite ha hb, ha] at h; cases h
  | finite n mant exp =>
    cases hb : f32Value b with
    | nan => rw [f32Add_nan_right (by simp [ha]) hb, quiet_quiet]
    | inf m => rw [f32Add_finite_inf ha hb, hb] at h; cases h
    | finite m mant' exp' =>
      rw [f32Add_finite ha hb] at h
      exact absurd h (addFinite_spec _ _ _ _ _ _).1.ne_nan

/-! ### The operands of STEP32 -/

theorem nearest_f32OfNat (x : Nat) : NearestF32 x (f32OfNat x) := by
  simpa [f32OfNat] using nearest_f32 false x one_pos

/-- A sample of 32 bits is finite, and not negative. -/
theorem f32OfNat_finite (hx : x < 2 ^ 32) : ∃ v, f32Rat (f32OfNat x) = some v := by
  have hx : (x : ℚ) < 2 ^ 32 := by exact_mod_cast hx
  obtain ⟨v, hv, -⟩ := (nearest_f32OfNat x).nearest (by rw [Nat.abs_cast]; linarith)
  exact ⟨v, hv⟩

/-- A sample below 2^24 is not rounded. -/
theorem f32Rat_f32OfNat (hx : x < 2 ^ 24) : f32Rat (f32OfNat x) = some (x : ℚ) := by
  obtain ⟨g, hg⟩ := exists_f32Rat (n := 149) hx (by omega)
  exact (nearest_f32OfNat x).f32Rat_eq (by simpa using hg)

theorem nearest_f32Pow10Neg (d : Int) : NearestF32 (10 ^ (-d)) (f32Pow10Neg d) := by
  have h := nearest_f32 false (10 ^ (-d).toNat) (pow_pos (by decide : 0 < 10) d.toNat)
  have hdiv := pow10_div (-d)
  rw [neg_neg] at hdiv
  simpa [f32Pow10Neg, hdiv] using h

theorem f32Pow2_of_lt (he : e < -149) : f32Pow2 e = 0x00000000 := if_pos he

theorem f32Pow2_of_gt (he : 127 < e) : f32Pow2 e = 0x7F800000 := (if_neg (by omega)).trans (if_pos he)

theorem f32Rat_f32Pow2 (hlo : -149 ≤ e) (hhi : e ≤ 127) : f32Rat (f32Pow2 e) = some (2 ^ e) := by
  obtain ⟨k, rfl⟩ : ∃ k : Nat, e = (k : Int) - 149 := ⟨(e + 149).toNat, by omega⟩
  have hk : 1 * 2 ^ k < 2 ^ 277 := by rw [one_mul]; exact pow_lt_pow_right₀ one_lt_two (by omega)
  obtain ⟨g, hg⟩ := exists_f32Rat (m := 1) (by decide) hk
  have hnear : NearestF32 (2 ^ ((k : Int) - 149)) (f32Dyadic false 1 ((k : Int) - 149)) := by
    simpa using nearest_f32Dyadic false 1 ((k : Int) - 149)
  rw [f32Pow2, if_neg (by omega), if_neg (by omega)]
  exact hnear.f32Rat_eq (by simpa using hg)

/-- The binary scale is finite up to E = 127. -/
theorem f32Pow2_finite (he : e ≤ 127) : ∃ v, f32Rat (f32Pow2 e) = some v := by
  rcases lt_or_ge e (-149) with hlt | hge
  · rw [f32Pow2_of_lt hlt]
    exact ⟨_, rfl⟩
  · exact ⟨_, f32Rat_f32Pow2 hge he⟩

/-! ### STEP32 and EXACT on a NaN, an infinite and a finite reference -/

theorem reconStep32_nan (hr : f32Value rpat = .nan) (he : e ≤ 127) (hx : x < 2 ^ 32) (d : Int) :
    reconStep32 x rpat e d = quiet rpat := by
  obtain ⟨v, hv⟩ := f32OfNat_finite hx
  obtain ⟨w, hw⟩ := f32Pow2_finite he
  rw [reconStep32, f32Add_nan_right (nearest_f32Mul hv hw).ne_nan hr, f32Mul_nan_left (f32Value_quiet hr), quiet_quiet]

theorem nearest_exactFinite (x : Nat) (neg : Bool) (mant : Nat) (exp e d : Int) :
    NearestF32 ((x * 2 ^ e + signRat neg * mant * 2 ^ exp) * 10 ^ (-d)) (exactFinite x neg mant exp e d) := by
  have hsum := aligned_sum false neg x mant (min_le_left e exp) (min_le_right e exp)
  unfold exactFinite
  simp only
  rw [← one_mul (x : ℚ), ← signRat_false, ← hsum, signedMant_false]
  generalize ((x * pow2 (e - min e exp) : Nat) : Int) + signedMant neg (mant * pow2 (exp - min e exp)) = sum
  generalize min e exp = low
  have h := nearest_f32 (decide (sum < 0)) (sum.natAbs * pow2 low * 10 ^ (-d).toNat)
    (Nat.mul_pos (pow2_pos (-low)) (pow_pos (by decide : 0 < 10) d.toNat))
  convert h using 1
  have h10 := pow10_div (-d)
  rw [neg_neg] at h10
  rw [← h10, ← pow2_div low, ← signRat_mul_natAbs sum, signRat]
  push_cast
  ring

theorem nearest_reconExact {r : ℚ} (hr : f32Rat rpat = some r) (x : Nat) (e d : Int) :
    NearestF32 ((x * 2 ^ e + r) * 10 ^ (-d)) (reconExact x rpat e d) := by
  obtain ⟨mant, exp, hrv, rfl⟩ := f32Rat_finite hr
  simp only [reconExact, hrv]
  exact nearest_exactFinite _ _ _ _ _ _

theorem reconExact_nan (hr : f32Value rpat = .nan) (x : Nat) (e d : Int) : reconExact x rpat e d = quiet rpat := by
  simp only [reconExact, hr]

theorem reconExact_inf (hr : f32Value rpat = .inf n) (x : Nat) (e d : Int) : reconExact x rpat e d = rpat := by
  simp only [reconExact, hr, ← eq_f32Inf hr]

/-! ### Multiplying by 1.0 and adding 0.0 -/

theorem f32Value_one : f32Value 0x3F800000 = .finite false (2 ^ 23) (-23) := by decide

theorem f32Rat_one : f32Rat 0x3F800000 = some 1 := by
  rw [f32Rat_of_value f32Value_one]
  norm_num [signRat]

theorem f32Mul_one (hf : f32Value f ≠ .nan) : f32Mul f 0x3F800000 = f := by
  cases h : f32Value f with
  | nan => exact absurd h hf
  | inf n =>
    rw [f32Mul_inf_finite h f32Value_one, if_neg (by decide), Bool.xor_false]
    exact (eq_f32Inf h).symm
  | finite n mant exp =>
    have hrat := f32Rat_of_value h
    have hnear := nearest_f32Mul hrat f32Rat_one
    rw [mul_one] at hnear
    refine hnear.eq_of_f32Rat hrat fun _ => ?_
    rw [getLsbD_f32Mul hrat f32Rat_one]
    exact Bool.xor_false _

/-- A sum is either no NaN or quiet already, so multiplying it by 1.0 leaves it as it is. -/
theorem f32Mul_one_f32Add (a b : F32) : f32Mul (f32Add a b) 0x3F800000 = f32Add a b := by
  by_cases h : f32Value (f32Add a b) = .nan
  · rw [f32Mul_nan_left h, quiet_f32Add h]
  · exact f32Mul_one h

theorem f32Rat_zero : f32Rat 0x00000000 = some 0 := by
  rw [f32Rat_of_value (show f32Value 0x00000000 = .finite false 0 (-149) by decide), signed_eq_zero.mpr rfl]

theorem f32Add_zero (hf : f32Rat f = some v) (hsign : f.getLsbD 31 = false) : f32Add f 0x00000000 = f := by
  obtain ⟨hnear, hzero⟩ := f32Add_spec hf f32Rat_zero
  rw [add_zero] at hnear hzero
  refine hnear.eq_of_f32Rat hf fun hv => ?_
  rw [hzero hv, hsign, Bool.false_and]

/-- R311: with E = 0 and D = 0 both scales are 1.0. -/
theorem reconStep32_unscaled (x : Nat) (rpat : F32) : reconStep32 x rpat 0 0 = f32Add (f32OfNat x) rpat := by
  rw [reconStep32, show f32Pow2 0 = 0x3F800000 by decide, show f32Pow10Neg 0 = 0x3F800000 by decide,
    f32Mul_one (nearest_f32OfNat x).ne_nan, f32Mul_one_f32Add]

end Sys2Proof.Machine
end

section
/-! PROOFS. The statements of spec/44_decompress.md on RECON: the laws of R311, and each step of R310. -/

namespace Sys2Proof.Machine

/-- Settles O41: a product with 1.0 and a sum with 0.0 are exact, and a sample below 2^24 is a binary32 number. -/
theorem simplePackingIdentity : Obligations.SimplePackingIdentity := by
  refine ⟨fun x rpat hx => ⟨?_, reconStep32_unscaled x rpat, nearest_f32OfNat x, f32Rat_f32OfNat⟩, fun rule p xs c hc => ?_⟩
  · obtain ⟨v, hv⟩ := f32OfNat_finite hx
    rw [reconStep32_unscaled, f32Add_zero hv (getLsbD_f32 _ _ _)]
  · obtain ⟨x, -, rfl⟩ := List.mem_map.mp hc
    rw [floatCell]
    ext i hi
    simp

/-- Settles O42: each operation rounds an exact value once, by `nearest_f32`; its NaN and infinite operands are read off the
operation's table. -/
theorem reconRoundsEachStep : Obligations.ReconRoundsEachStep := by
  refine ⟨fun x rpat e d => ⟨rfl, nearest_f32OfNat x, nearest_f32Pow10Neg d, f32Pow2_of_lt, f32Pow2_of_gt, f32Rat_f32Pow2,
    fun hr he hx => reconStep32_nan hr he hx d, fun r hr => nearest_reconExact hr x e d, fun hr => reconExact_nan hr x e d,
    fun n hr => reconExact_inf hr x e d⟩, fun a b => ⟨fun v w ha hb => ?_, fun ha => ?_, fun ha hb => ?_, fun n m ha hb => ?_,
    fun n v ha hb => ?_⟩⟩
  · obtain ⟨hnear, hzero⟩ := f32Add_spec ha hb
    exact ⟨nearest_f32Mul ha hb, hnear, fun _ => getLsbD_f32Mul ha hb, hzero⟩
  · exact ⟨f32Mul_nan_left ha b, f32Add_nan_left ha b⟩
  · exact ⟨f32Mul_nan_right ha hb, f32Add_nan_right ha hb⟩
  · rw [f32Mul_inf_inf ha hb, f32Add_inf_inf ha hb, eq_f32Inf ha]
    exact ⟨f32Value_f32Inf _, rfl⟩
  · obtain ⟨mant, exp, hbv, rfl⟩ := f32Rat_finite hb
    rw [f32Mul_inf_finite ha hbv, f32Mul_finite_inf hbv ha, Bool.xor_comm _ n, ne_eq, signed_eq_zero]
    refine ⟨f32Add_inf_finite ha hbv, f32Add_finite_inf hbv ha, fun hzero => ?_, fun hne => ?_⟩
    · rw [if_pos hzero]
      exact ⟨rfl, rfl⟩
    · rw [if_neg hne]
      exact ⟨f32Value_f32Inf _, f32Value_f32Inf _⟩

end Sys2Proof.Machine
end

section
/-! SUPPORT. Whose move a step is (spec/49_control.md R341), each move as an equation: the turn that stands first, or the block's
own move, which runs the decoded command or reports the decoder's error; and the host's poll (spec/30_encoding.md R119). -/

namespace Sys2Proof.Machine

variable {s : State}

/-! ### The agent that moves -/

theorem step_of_host {m : HostMove} {rest : List Turn} (ht : s.turns = .host m :: rest) :
    step s = hostMove m { s with turns := s.turns.tail } := by
  simp only [step, nextMove, runTurn, ht, List.tail_cons]

theorem step_of_codec {n : Nat} {ans : CodecAnswer} {rest : List Turn} (ht : s.turns = .codec n ans :: rest) :
    step s = .next (codecMove n ans { s with turns := s.turns.tail }) := by
  simp only [step, nextMove, runTurn, ht, List.tail_cons]

/-- Where no turn stands there is none to take away. -/
theorem dropTurn_of_nil (ht : s.turns = []) : { s with turns := s.turns.tail } = s := by rw [ht, List.tail_nil, ← ht]

theorem step_of_blockMoves (h : s.BlockMoves) : step s = blockMove { s with turns := s.turns.tail } := by
  obtain ht | ⟨rest, ht⟩ := h
  · rw [dropTurn_of_nil ht]
    simp only [step, nextMove, ht]
  · simp only [step, nextMove, runTurn, ht, List.tail_cons]

/-! ### The moves of the block -/

theorem step_issued {v : Word} (h : s.BlockMoves) (hp : s.phase = .issued v) :
    step s = engineStart v { s with turns := s.turns.tail } :=
  (step_of_blockMoves h).trans (blockMove_issued hp)

theorem step_decoded {v : Word} {i : Instr} (h : s.BlockMoves) (hp : s.phase = .issued v)
    (hd : decode s.cfg.maxW.bits v = .ok i) : step s = exec i { s with turns := s.turns.tail } :=
  (step_issued h hp).trans (engineStart_decoded hd)

theorem step_undecoded {v : Word} {e : DecodeError} (h : s.BlockMoves) (hp : s.phase = .issued v)
    (hd : decode s.cfg.maxW.bits v = .error e) :
    step s = .next (({ s with turns := s.turns.tail } : State).raise (decodeRaise e)) :=
  (step_issued h hp).trans (engineStart_undecoded hd)

/-! ### The poll -/

/-- A poll reads STATUS; while the block is busy, a turn of the block and another poll follow. -/
theorem pollStatus_eq (s : State) : pollStatus s = { s with
    reply := some (.reg s.status)
    turns := if s.phase = .idle then s.turns else .block :: .host .poll :: s.turns } := by
  by_cases hp : s.phase = .idle <;> simp [pollStatus, State.answer, hp]

end Sys2Proof.Machine
end

section
/-! PROOFS. The statements of spec/49_control.md: NOP, and the step as one move of R341. -/

namespace Sys2Proof.Machine

/-- Settles O17: NOP commits OK with no cells, so A is as before and the output lengths are 0. -/
theorem nopReportsSuccess : Obligations.NopReportsSuccess :=
  ⟨fun _ => exec_of_ok rfl, encodeWord_of_fieldG rfl, rfl⟩

/-- Settles O48: where the block moves, PHASE selects its move; otherwise the turn that stands first is the move. -/
theorem stepRunsDecodedCommand : Obligations.StepRunsDecodedCommand := by
  refine ⟨fun s => ⟨fun hb => ⟨fun hp => ?idle, fun v hp => ?issued, fun p hp => ?waiting, fun p ans hp => ?answered⟩,
    fun m rest => step_of_host, fun n ans rest => step_of_codec, congrArg Host.Outcome.next (pollStatus_eq s)⟩,
    fun s i => ⟨fun v hp hd => ⟨fun ht => ?noTurn, fun rest ht => ?blockTurn⟩, fun nbits w hd => ?placed⟩⟩
  case idle => exact (step_of_blockMoves hb).trans (blockMove_idle hp)
  case issued => exact ⟨fun i => step_decoded hb hp, step_undecoded hb hp, step_undecoded hb hp⟩
  case waiting => exact (step_of_blockMoves hb).trans (blockMove_waiting hp)
  case answered => exact (step_of_blockMoves hb).trans (blockMove_answered hp)
  case noTurn => rw [step_decoded (.inl ht) hp hd, dropTurn_of_nil ht]
  case blockTurn => rw [step_decoded (.inr ⟨rest, ht⟩) hp hd, ht, List.tail_cons]
  case placed => exact step_decoded (s := s.withFetchWord nbits w) (.inr ⟨s.turns, rfl⟩) rfl hd

end Sys2Proof.Machine
end

section
/-! SUPPORT. Where a command may fault (spec/60_exceptions.md R355, spec/10_state.md R37): the address of FAULT_OOB is at or above
BUF_BYTES and is held by FAULT_INFO whole. Closed under the steps of a computation, then read off each command. -/

namespace Sys2Proof.Machine

/-- Where a computation of a command raises FAULT_OOB, in an instance with parameters in the bounds of R6, the address is at or
above BUF_BYTES and fits in FAULT_INFO. -/
def FaultsPastM (s : State) {α : Type} (x : Except Raise α) : Prop :=
  ∀ a, x = .error (.oob a) → s.cfg.wf = true → s.cfg.bufBytes ≤ a ∧ a < 2 ^ 64

theorem Config.bufBytes_lt {c : Config} (h : c.wf = true) : c.bufBytes < 2 ^ 60 := by
  simp only [Config.wf, Bool.and_eq_true, decide_eq_true_eq] at h
  omega

variable {s : State}

/-! ### Computations that raise no fault -/

theorem faultsPastM_ok {α : Type} (v : α) : FaultsPastM s (.ok v) := nofun

theorem faultsPastM_error {α : Type} (e : ErrorCode) : FaultsPastM s (.error (.error e) : Except Raise α) := nofun

theorem faultsPastM_need (b : Bool) (e : ErrorCode) : FaultsPastM s (need b (.error e)) := by
  cases b
  · exact faultsPastM_error e
  · exact faultsPastM_ok ()

theorem faultsPastM_orRaise {α : Type} (x : Option α) (e : ErrorCode) : FaultsPastM s (orRaise x (.error e)) := by
  cases x
  · exact faultsPastM_error e
  · exact faultsPastM_ok _

theorem faultsPastM_needSpace (d n : Nat) : FaultsPastM s (needSpace s d n) := faultsPastM_need _ _

theorem faultsPastM_needSource (q n : Nat) : FaultsPastM s (needSource s q n) := faultsPastM_need _ _

theorem faultsPastM_readKnown (m : Memory) (d : Descriptor) (a e : Nat) : FaultsPastM s (readKnown m d a e) :=
  fun _ h => nomatch readKnown_error h

theorem faultsPastM_optList (rule : OptListRule) (m : Memory) (no a2 e : Nat) : FaultsPastM s (optList rule m no a2 e) :=
  fun _ h => nomatch optList_error h

/-! ### The access checks -/

theorem faultsPastM_checkM {p : Nat} (hp : p / 8 < 2 ^ 64) (w : Nat) : FaultsPastM s (checkM s p w) := by
  intro a h hwf
  obtain ⟨-, -, ha⟩ := checkM_error.mp h
  cases ha
  have hbuf : s.cfg.bufBytes < 2 ^ 60 := Config.bufBytes_lt hwf
  exact ⟨le_max_right _ _, max_lt hp (by omega)⟩

theorem faultsPastM_checkBytes (n : Nat) : FaultsPastM s (checkM s (8 * s.cursor) n) :=
  faultsPastM_checkM ((Nat.mul_div_cancel_left _ (by decide)).trans_lt s.op.cursor.isLt) n

theorem faultsPastM_checkBitoff (w : Nat) : FaultsPastM s (checkM s s.bitoff w) :=
  faultsPastM_checkM (Nat.lt_of_le_of_lt (Nat.div_le_self _ _) s.op.bitoff.isLt) w

theorem faultsPastM_checkFields {skip : Nat} (hskip : skip < 2 ^ 64) (w n : Nat) :
    FaultsPastM s (checkFields s s.bitoff w skip 0 n) :=
  fun _ h hwf => checkFields_error_lt (Config.bufBytes_lt hwf) s.op.bitoff.isLt hskip h

theorem faultsPastM_openSection (k minLen : Nat) : FaultsPastM s (openSection s k minLen) := by
  intro a h hwf
  obtain rfl := openSection_oob h
  have hbuf : s.cfg.bufBytes < 2 ^ 60 := Config.bufBytes_lt hwf
  exact ⟨le_max_right _ _, max_lt s.op.cursor.isLt (by omega)⟩

/-! ### One computation after another -/

theorem FaultsPastM.bind {α β : Type} {x : Except Raise α} {f : α → Except Raise β} (hx : FaultsPastM s x)
    (hf : ∀ v, FaultsPastM s (f v)) : FaultsPastM s (x >>= f) := by
  intro a h
  obtain h | ⟨v, -, h⟩ := bind_error.mp h
  · exact hx a h
  · exact hf v a h

theorem FaultsPastM.ite {α : Type} {p : Prop} [Decidable p] {x y : Except Raise α} (hx : FaultsPastM s x)
    (hy : FaultsPastM s y) : FaultsPastM s (if p then x else y) := by
  split
  · exact hx
  · exact hy

/-! ### The parts of the section commands -/

theorem faultsPastM_gridBody (g : Bool) (sec : Section) (t no : Nat) : FaultsPastM s (gridBody s g sec t no) := by
  unfold gridBody
  split
  · exact .ite (faultsPastM_error _) (faultsPastM_ok _)
  · exact .bind (faultsPastM_readKnown _ _ _ _) fun _ => .bind (faultsPastM_optList _ _ _ _ _) fun _ =>
      .bind (faultsPastM_need _ _) fun _ => faultsPastM_ok _

theorem faultsPastM_bitmapBody (sec : Section) (ind : Nat) : FaultsPastM s (bitmapBody s sec ind) := by
  have hspace (n : Nat) (v : List Word × Bool) : FaultsPastM s (needSpace s s.dst n >>= fun _ => .ok v) :=
    .bind (faultsPastM_needSpace _ _) fun _ => faultsPastM_ok v
  exact .ite (.bind (faultsPastM_need _ _) fun _ => .bind (faultsPastM_need _ _) fun _ => hspace _ _)
    (.ite (.bind (faultsPastM_need _ _) fun _ => hspace _ _) (.ite (hspace _ _) (faultsPastM_error _)))

theorem faultsPastM_decompress (sec : Section) (alg : Algorithm) (p : LinearParams) :
    FaultsPastM s (decompress s sec alg p) := by
  refine .ite (faultsPastM_ok _) (.ite (faultsPastM_error _) ?_)
  cases alg with
  | simple => exact .ite (faultsPastM_error _) (faultsPastM_ok _)
  | jpeg2000 | png | aec | rle => exact faultsPastM_ok _

theorem faultsPastM_runUnpk7Answer (p : Pending) (ans : CodecAnswer) : FaultsPastM s (runUnpk7Answer p ans s) := by
  cases ans with
  | fail => exact faultsPastM_error _
  | samples xs => exact .bind (faultsPastM_need _ _) fun _ => .bind (faultsPastM_need _ _) fun _ => faultsPastM_ok _

/-! ### All commands -/

/-- A batch command: room or a source in A, then the fields, then the commit. -/
theorem FaultsPastM.batch {x : Except Raise Unit} (hx : FaultsPastM s x) {skip : Nat} (hskip : skip < 2 ^ 64) (w n : Nat)
    (t : State) : FaultsPastM s (x >>= fun _ => checkFields s s.bitoff w skip 0 n >>= fun _ => .ok t) :=
  .bind hx fun _ => .bind (faultsPastM_checkFields hskip w n) fun _ => faultsPastM_ok t

theorem faultsPastM_runOf (i : Instr) : FaultsPastM s (runOf i s) := by
  have hskip : s.skip < 2 ^ 64 := s.op.skip.isLt
  cases i with
  | nop => exact faultsPastM_ok _
  | gbit w | sbit w => exact .bind (faultsPastM_checkBitoff _) fun _ => faultsPastM_ok _
  | gbits w => exact .batch (faultsPastM_needSpace _ _) hskip _ _ _
  | sbits w => exact .batch (faultsPastM_needSource _ _) hskip _ _ _
  | rdieee => exact .batch (faultsPastM_needSpace _ _) (by decide) _ _ _
  | mkieee => exact .batch (faultsPastM_needSource _ _) (by decide) _ _ _
  | unpk0 =>
    exact .bind (faultsPastM_checkBytes _) fun _ => .bind (faultsPastM_need _ _) fun _ => .bind (faultsPastM_need _ _) fun _ =>
      .bind (faultsPastM_need _ _) fun _ => .bind (faultsPastM_needSpace _ _) fun _ => faultsPastM_ok _
  | unpk1 | unpk2 =>
    exact .bind (faultsPastM_openSection _ _) fun _ => .bind (faultsPastM_needSpace _ _) fun _ => faultsPastM_ok _
  | unpk3 g =>
    exact .bind (faultsPastM_openSection _ _) fun _ => .bind (faultsPastM_gridBody _ _ _ _) fun _ =>
      .bind (faultsPastM_needSpace _ _) fun _ => faultsPastM_ok _
  | unpk4 | unpk5 =>
    refine .bind (faultsPastM_openSection _ _) fun _ => ?_
    dsimp only
    split
    · exact faultsPastM_error _
    · exact .bind (faultsPastM_readKnown _ _ _ _) fun _ => .bind (faultsPastM_need _ _) fun _ =>
        .bind (faultsPastM_needSpace _ _) fun _ => faultsPastM_ok _
  | unpk6 =>
    exact .bind (faultsPastM_openSection _ _) fun _ => .bind (faultsPastM_bitmapBody _ _) fun _ => faultsPastM_ok _
  | unpk7 =>
    exact .bind (faultsPastM_openSection _ _) fun _ => .bind (faultsPastM_need _ _) fun _ =>
      .bind (faultsPastM_orRaise _ _) fun _ => .bind (faultsPastM_need _ _) fun _ => .bind (faultsPastM_orRaise _ _) fun _ =>
      .bind (faultsPastM_needSpace _ _) fun _ => faultsPastM_decompress _ _ _
  | chkend =>
    exact .bind (faultsPastM_need _ _) fun _ => .bind (faultsPastM_checkBytes _) fun _ => .bind (faultsPastM_need _ _) fun _ =>
      .bind (faultsPastM_need _ _) fun _ => faultsPastM_ok _
  | skipsec =>
    exact .bind (faultsPastM_need _ _) fun _ => .bind (faultsPastM_need _ _) fun _ => .bind (faultsPastM_checkBytes _) fun _ =>
      .bind (faultsPastM_need _ _) fun _ => .bind (faultsPastM_need _ _) fun _ => .bind (faultsPastM_need _ _) fun _ =>
      .bind (faultsPastM_need _ _) fun _ => faultsPastM_ok _

end Sys2Proof.Machine
end

section
/-! SUPPORT. How a move of the engine leaves the block (spec/60_exceptions.md R350, R352, R355): the command waits, has ended in
success, or has raised; and which access of the host writes STATUS.FAULT (R356). -/

namespace Sys2Proof.Machine

variable {s t : State}

/-! ### STATUS after a commit -/

/-- UNPK3 ends with a code of class 0. -/
theorem gridBody_statusClass {g : Bool} {sec : Section} {n no : Nat} {b : GridBody} (hb : gridBody s g sec n no = .ok b) :
    b.code.statusClass = 0 := by
  unfold gridBody at hb
  split at hb
  · split at hb <;> cases hb
    rfl
  · simp only [bind_ok] at hb
    obtain ⟨_, -, _, -, _, -, hb⟩ := hb
    cases hb
    rfl

/-- What a commit makes of STATUS: FAULT is as before, and CODE is a success unless the command waits. -/
structure Commits (s t : State) : Prop where
  fault : t.fault = s.fault
  success : t.phase = .idle → t.code.statusClass = 0

theorem runOf_commits {i : Instr} (hr : runOf i s = .ok t) : Commits s t := by
  cases i with
  | nop => cases hr; exact ⟨rfl, fun _ => rfl⟩
  | gbit w => obtain ⟨-, rfl⟩ := runGbit_ok.mp hr; exact ⟨rfl, fun _ => rfl⟩
  | gbits w => obtain ⟨-, -, rfl⟩ := runGbits_ok.mp hr; exact ⟨rfl, fun _ => rfl⟩
  | sbit w => obtain ⟨-, rfl⟩ := runSbit_ok.mp hr; exact ⟨rfl, fun _ => rfl⟩
  | sbits w => obtain ⟨-, -, rfl⟩ := runSbits_ok.mp hr; exact ⟨rfl, fun _ => rfl⟩
  | rdieee => obtain ⟨-, -, rfl⟩ := runRdieee_ok.mp hr; exact ⟨rfl, fun _ => rfl⟩
  | mkieee => obtain ⟨-, -, rfl⟩ := runMkieee_ok.mp hr; exact ⟨rfl, fun _ => rfl⟩
  | unpk0 => obtain ⟨-, -, -, -, -, rfl⟩ := runUnpk0_ok.mp hr; exact ⟨rfl, fun _ => rfl⟩
  | unpk1 => obtain ⟨_, -, -, rfl⟩ := runUnpk1_ok.mp hr; exact ⟨rfl, fun _ => rfl⟩
  | unpk2 => obtain ⟨_, -, -, rfl⟩ := runUnpk2_ok.mp hr; exact ⟨rfl, fun _ => rfl⟩
  | unpk3 g => obtain ⟨_, -, _, hb, -, rfl⟩ := runUnpk3_ok.mp hr; exact ⟨rfl, fun _ => gridBody_statusClass hb⟩
  | unpk4 => obtain ⟨_, -, _, -, _, -, -, -, rfl⟩ := runUnpk4_ok.mp hr; exact ⟨rfl, fun _ => rfl⟩
  | unpk5 => obtain ⟨_, -, _, -, _, -, -, -, rfl⟩ := runUnpk5_ok.mp hr; exact ⟨rfl, fun _ => rfl⟩
  | unpk6 => obtain ⟨_, -, _, -, rfl⟩ := runUnpk6_ok.mp hr; exact ⟨rfl, fun _ => rfl⟩
  | unpk7 =>
    obtain ⟨_, -, -, _, -, -, _, -, -, hd⟩ := runUnpk7_ok.mp hr
    obtain ⟨_, -, rfl⟩ | ⟨-, -, -, rfl⟩ := decompress_ok hd
    · exact ⟨rfl, fun _ => rfl⟩
    · exact ⟨rfl, nofun⟩
  | chkend => obtain ⟨-, -, -, -, rfl⟩ := runChkend_ok.mp hr; exact ⟨rfl, fun _ => rfl⟩
  | skipsec => obtain ⟨_, -, -, -, -, -, -, -, -, -, -, rfl⟩ := runSkipsec_ok.mp hr; exact ⟨rfl, fun _ => rfl⟩

theorem runUnpk7Answer_commits {p : Pending} {ans : CodecAnswer} (hr : runUnpk7Answer p ans s = .ok t) : Commits s t := by
  obtain ⟨_, -, -, -, rfl⟩ := runUnpk7Answer_ok.mp hr
  exact ⟨rfl, fun _ => rfl⟩

theorem codecDraw_commits {p : Pending} (hp : s.phase = .waiting p) : Commits s (codecDraw p s) := by
  obtain hd | ⟨ans, hd⟩ := codecDraw_cases p s <;> rw [hd]
  · exact ⟨rfl, fun hidle => nomatch hp.symm.trans hidle⟩
  · exact ⟨rfl, nofun⟩

/-! ### How a move of the engine ends -/

/-- How a move of the engine leaves the block: a commit, or the state before with the effects of a raise. -/
inductive EngineEnd (s : State) : State → Prop where
  | commits {t : State} (h : Commits s t) : EngineEnd s t
  | raises (r : Raise) (h : FaultsPastM s (.error r : Except Raise State)) : EngineEnd s (s.raise r)

theorem endCommand_end {run : Except Raise State} (hok : ∀ u, run = .ok u → Commits s u) (hfault : FaultsPastM s run)
    (ht : endCommand s run = .next t) : EngineEnd s t := by
  obtain hr | ⟨r, rfl, rfl⟩ := endCommand_next.mp ht
  · exact .commits (hok t hr)
  · exact .raises r hfault

theorem exec_end {i : Instr} (ht : exec i s = .next t) : EngineEnd s t :=
  endCommand_end (fun _ => runOf_commits) (faultsPastM_runOf i) (exec_eq i s ▸ ht)

theorem engineStart_end {v : Word} (ht : engineStart v s = .next t) : EngineEnd s t := by
  cases hd : decode s.cfg.maxW.bits v with
  | error e =>
    rw [engineStart_undecoded hd] at ht
    cases ht
    exact .raises _ (by cases e <;> exact faultsPastM_error _)
  | ok i => exact exec_end (engineStart_decoded hd ▸ ht)

theorem blockMove_end (hbusy : s.phase ≠ .idle) (ht : blockMove s = .next t) : EngineEnd s t := by
  cases hp : s.phase with
  | idle => exact absurd hp hbusy
  | issued v => exact engineStart_end (blockMove_issued hp ▸ ht)
  | waiting p =>
    rw [blockMove_waiting hp] at ht
    cases ht
    exact .commits (codecDraw_commits hp)
  | answered p ans =>
    rw [blockMove_answered hp] at ht
    exact endCommand_end (fun _ => runUnpk7Answer_commits) (faultsPastM_runUnpk7Answer p ans) ht

/-- R352: an error code is the mark of a raise of that error. -/
theorem EngineEnd.failed {e : ErrorCode} (h : EngineEnd s t) (hidle : t.phase = .idle) (hcode : t.code = .error e) :
    t = s.failed e := by
  cases h with
  | commits h =>
    have hclass := h.success hidle
    rw [hcode] at hclass
    cases e <;> cases hclass
  | raises r =>
    cases r <;> cases hcode
    rfl

/-- R355: FAULT_OOB is the mark of a fault, at an address that FAULT_INFO holds. -/
theorem EngineEnd.faulted (h : EngineEnd s t) (hidle : t.phase = .idle) (hcode : t.code = .faultOob) :
    t = s.faulted t.faultInfo.toNat ∧ (s.cfg.wf = true → s.cfg.bufBytes ≤ t.faultInfo.toNat) := by
  cases h with
  | commits h =>
    have hclass := h.success hidle
    rw [hcode] at hclass
    cases hclass
  | raises r hpast =>
    cases r with
    | error e => cases hcode
    | oob a =>
      refine ⟨?_, fun hwf => ?_⟩
      · simp only [State.faulted, State.raise_oob_faultInfo, zext64, BitVec.ofNat_toNat, BitVec.setWidth_eq]
        rfl
      · obtain ⟨hbuf, hlt⟩ := hpast a rfl hwf
        rwa [State.raise_oob_faultInfo, toNat_zext64 hlt]

/-! ### The fault -/

/-- No move of the engine clears the fault. -/
theorem EngineEnd.keeps_fault (h : EngineEnd s t) (hf : s.fault = true) : t.fault = true := by
  cases h with
  | commits h => exact h.fault.trans hf
  | raises r =>
    cases r with
    | error e => exact hf
    | oob a => rfl

theorem blockMove_keeps_fault (hf : s.fault = true) (ht : blockMove s = .next t) : t.fault = true := by
  by_cases hp : s.phase = .idle
  · rw [blockMove_idle hp] at ht
    cases ht
    exact hf
  · exact (blockMove_end hp ht).keeps_fault hf

@[simp] theorem codecMove_fault (n : Nat) (ans : CodecAnswer) (s : State) : (codecMove n ans s).fault = s.fault := by
  by_cases h : ∃ p, s.phase = .waiting p ∧ p.serial = n
  · obtain ⟨p, hp, rfl⟩ := h
    rw [codecMove_waiting hp]
  · rw [codecMove_discarded fun p hp hn => h ⟨p, hp, hn⟩]

theorem writeCtrl_fault (s : State) (v : Word) : (writeCtrl s v).fault = s.fault ∨ v.getLsbD 0 = true := by
  unfold writeCtrl
  split
  case isTrue hv => exact .inr hv
  case isFalse => exact .inl rfl

/-- The one access of the host that writes STATUS.FAULT is a write to CTRL with bit 0 = 1. -/
theorem hostMove_fault {m : HostMove} (ht : hostMove m s = .next t) :
    t.fault = s.fault ∨ ∃ v, m = .regWrite 0x010 64 v ∧ v.getLsbD 0 = true := by
  cases m with
  | regWrite off w v =>
    obtain ⟨rfl, r, hr, -, ht⟩ := withReg_next.mp ht
    unfold writeReg at ht
    split at ht
    · obtain rfl | ⟨-, -, rfl⟩ := writeCmd_next ht <;> exact .inl rfl
    · cases ht
      obtain rfl := regAt_ctrl hr
      exact (writeCtrl_fault s v).imp_right fun hv => ⟨v, rfl, hv⟩
    · cases ht
      exact .inl rfl
  | regRead off w => obtain ⟨-, _, -, -, ht⟩ := withReg_next.mp ht; cases ht; exact .inl rfl
  | mRead a => obtain ⟨-, -, rfl⟩ := withByte_next.mp ht; exact .inl rfl
  | mWrite a b => obtain ⟨-, -, rfl⟩ := withByte_next.mp ht; exact .inl rfl
  | aRead i => obtain ⟨-, -, rfl⟩ := withCell_next.mp ht; exact .inl rfl
  | aWrite i v => obtain ⟨-, -, rfl⟩ := withCell_next.mp ht; exact .inl rfl
  | poll => cases ht; rw [pollStatus_eq]; exact .inl rfl

/-- R356: a step that clears the fault is a soft reset. -/
theorem step_clears_fault (hf : s.fault = true) (ht : step s = .next t) (hclear : t.fault = false) : s.ResetsNext := by
  obtain ⟨-, l, ht⟩ | ⟨n, ans, rest, -, rfl⟩ | ⟨m, rest, hturn, ht⟩ := step_cases ht
  · exact nomatch hclear.symm.trans (blockMove_keeps_fault (s := { s with turns := l }) hf ht)
  · exact nomatch hclear.symm.trans ((codecMove_fault n ans _).trans hf)
  · obtain hkeep | ⟨v, rfl, hv⟩ := hostMove_fault ht
    · exact nomatch hclear.symm.trans (hkeep.trans hf)
    · exact ⟨v, rest, hturn, hv⟩

end Sys2Proof.Machine
end

section
/-! PROOFS. The statements of spec/60_exceptions.md: what an error and the fault leave, and that the fault stays. -/

namespace Sys2Proof.Machine

/-- Settles O43: an error code shows that the move raised, and a raise starts again from the state before. -/
theorem errorsChangeNothingElse : Obligations.ErrorsChangeNothingElse :=
  ⟨fun _ _ _ _ ht => (exec_end ht).failed, fun _ _ _ hbusy ht => (blockMove_end hbusy ht).failed⟩

/-- Settles O44: FAULT_OOB shows that the move raised it, and every raise of it has an address at or above BUF_BYTES. -/
theorem faultChangesNothingElse : Obligations.FaultChangesNothingElse :=
  ⟨fun _ _ _ ht => (exec_end ht).faulted, fun _ _ hbusy ht => (blockMove_end hbusy ht).faulted⟩

/-- Settles O45: a faulted block ignores CMD and no check of the host port looks at FAULT; of the moves of the three agents the
soft reset alone clears it. -/
theorem faultIsSticky : Obligations.FaultIsSticky := by
  intro s hf
  refine ⟨fun v => ?_, fun off r hopen hr => hostMove_regRead hr (regOpen_of_open hopen r),
    fun hp a b ha => ⟨withByte_next.mpr ⟨hp, ha, rfl⟩, withByte_next.mpr ⟨hp, ha, rfl⟩⟩,
    fun hp i v hi => ⟨withCell_next.mpr ⟨hp, hi, rfl⟩, withCell_next.mpr ⟨hp, hi, rfl⟩⟩,
    fun t ht hclear => step_clears_fault hf ht hclear⟩
  exact (hostMove_regWrite (regAt_of_mem (by decide)) regOpen_cmd).trans (writeCmd_faulted hf)

end Sys2Proof.Machine
end

section
/-! SUPPORT. The state after reset (spec/70_reset_and_hazards.md R390, R391), the codec requests that a move leaves waiting
(spec/44_decompress.md R300), and the operand registers in the second step of UNPK7 (R401). -/

namespace Sys2Proof.Machine

variable {s t : State}

/-! ### Reset -/

/-- Power-on reset with parameters within R6, and a canonical M and A within their bounds, gives a sound state. -/
theorem State.powerOn_inv {cfg : Config} {mem : Memory} {arr : Sparse 64} (hcfg : cfg.wf = true)
    (hmem : Memory.wf mem = true) (harr : Sparse.wf arr = true) (hmemRange : Sparse.below cfg.bufBytes mem = true)
    (harrRange : Sparse.below cfg.aCells arr = true) : (State.powerOn cfg mem arr).Inv :=
  have hctx : ContextRegs.reset.Sound cfg.drtMax := ContextRegs.sound_reset
  { params := hcfg
    mem := hmem
    memRange := hmemRange
    arr := harr
    arrRange := harrRange
    drtv := Sparse.wf_nil
    drtvRange := Sparse.below_nil _
    drtLen := hctx.drtLen
    lastSec := hctx.lastSec
    noMessage := hctx.noMessage
    message := hctx.message
    geometry := hctx.geometry
    faultCode := ⟨nofun, nofun⟩
    faultIdle := nofun
    phase := trivial }

/-- R35: STATUS reads 0 on an idle block whose code is OK. -/
theorem status_of_idle_ok (hcode : s.code = .ok) (hidle : s.phase = .idle) (hf : s.fault = false) : s.status = 0 := by
  simp [State.status, State.busy, State.waitExt, hcode, hidle, hf, StatusCode.number, StatusCode.statusClass, zext64]

/-- R36: CTRL is open in every PHASE. -/
theorem hostMove_ctrlWrite (s : State) (v : Word) : hostMove (.regWrite 0x010 64 v) s = .next (writeCtrl s v) :=
  hostMove_regWrite (regAt_of_mem (by decide)) regOpen_ctrl

/-! ### Codec requests -/

/-- A move from s to t may add to the requests sent, and a request that waits after it waited before or carries the next serial
number (log entry 5). -/
structure FreshRequests (s t : State) : Prop where
  counted : s.reqSerial ≤ t.reqSerial
  fresh : ∀ p, t.phase = .waiting p → s.phase = .waiting p ∨ p.serial = s.reqSerial

theorem FreshRequests.of_phase_eq (hserial : t.reqSerial = s.reqSerial) (hphase : t.phase = s.phase) : FreshRequests s t :=
  ⟨hserial.ge, fun _ hp => .inl (hphase ▸ hp)⟩

theorem FreshRequests.of_not_waiting (hserial : t.reqSerial = s.reqSerial) (hphase : ∀ p, t.phase ≠ .waiting p) :
    FreshRequests s t :=
  ⟨hserial.ge, fun p hp => absurd hp (hphase p)⟩

theorem FreshRequests.of_idle (hserial : t.reqSerial = s.reqSerial) (hphase : t.phase = .idle) : FreshRequests s t :=
  .of_not_waiting hserial fun _ hp => nomatch hphase.symm.trans hp

/-- A withdrawn request stays so: a request sent since then has a greater serial number. -/
theorem FreshRequests.withdrawn (h : FreshRequests s t) {n : Nat} (hn : s.Withdrawn n) : t.Withdrawn n := by
  obtain ⟨hsent, hnot⟩ := hn
  refine ⟨hsent.trans_le h.counted, fun p hp => ?_⟩
  obtain hold | hnew := h.fresh p hp
  · exact hnot p hold
  · exact hnew ▸ hsent.ne'

theorem raise_freshRequests (s : State) (r : Raise) : FreshRequests s (s.raise r) := by
  cases r <;> exact .of_idle rfl rfl

/-- Every command ends when it commits, but for the UNPK7 that sends a request. -/
theorem runOf_freshRequests {i : Instr} (hr : runOf i s = .ok t) : FreshRequests s t := by
  cases i with
  | nop => cases hr; exact .of_idle rfl rfl
  | gbit w => obtain ⟨-, rfl⟩ := runGbit_ok.mp hr; exact .of_idle rfl rfl
  | gbits w => obtain ⟨-, -, rfl⟩ := runGbits_ok.mp hr; exact .of_idle rfl rfl
  | sbit w => obtain ⟨-, rfl⟩ := runSbit_ok.mp hr; exact .of_idle rfl rfl
  | sbits w => obtain ⟨-, -, rfl⟩ := runSbits_ok.mp hr; exact .of_idle rfl rfl
  | rdieee => obtain ⟨-, -, rfl⟩ := runRdieee_ok.mp hr; exact .of_idle rfl rfl
  | mkieee => obtain ⟨-, -, rfl⟩ := runMkieee_ok.mp hr; exact .of_idle rfl rfl
  | unpk0 => obtain ⟨-, -, -, -, -, rfl⟩ := runUnpk0_ok.mp hr; exact .of_idle rfl rfl
  | unpk1 => obtain ⟨_, -, -, rfl⟩ := runUnpk1_ok.mp hr; exact .of_idle rfl rfl
  | unpk2 => obtain ⟨_, -, -, rfl⟩ := runUnpk2_ok.mp hr; exact .of_idle rfl rfl
  | unpk3 g => obtain ⟨_, -, _, -, -, rfl⟩ := runUnpk3_ok.mp hr; exact .of_idle rfl rfl
  | unpk4 => obtain ⟨_, -, _, -, _, -, -, -, rfl⟩ := runUnpk4_ok.mp hr; exact .of_idle rfl rfl
  | unpk5 => obtain ⟨_, -, _, -, _, -, -, -, rfl⟩ := runUnpk5_ok.mp hr; exact .of_idle rfl rfl
  | unpk6 => obtain ⟨_, -, _, -, rfl⟩ := runUnpk6_ok.mp hr; exact .of_idle rfl rfl
  | unpk7 =>
    obtain ⟨_, -, -, _, -, -, _, -, -, hd⟩ := runUnpk7_ok.mp hr
    obtain ⟨_, -, rfl⟩ | ⟨-, -, -, rfl⟩ := decompress_ok hd
    · exact .of_idle rfl rfl
    · exact ⟨Nat.le_succ _, fun p hp => .inr (by cases hp; rfl)⟩
  | chkend => obtain ⟨-, -, -, -, rfl⟩ := runChkend_ok.mp hr; exact .of_idle rfl rfl
  | skipsec => obtain ⟨_, -, -, -, -, -, -, -, -, -, -, rfl⟩ := runSkipsec_ok.mp hr; exact .of_idle rfl rfl

theorem endCommand_freshRequests {run : Except Raise State} (hrun : ∀ u, run = .ok u → FreshRequests s u)
    (ht : endCommand s run = .next t) : FreshRequests s t := by
  obtain hok | ⟨r, -, rfl⟩ := endCommand_next.mp ht
  · exact hrun t hok
  · exact raise_freshRequests s r

theorem blockMove_freshRequests (ht : blockMove s = .next t) : FreshRequests s t := by
  cases hp : s.phase with
  | idle =>
    rw [blockMove_idle hp] at ht
    cases ht
    exact .of_phase_eq rfl rfl
  | issued v =>
    rw [blockMove_issued hp] at ht
    cases hd : decode s.cfg.maxW.bits v with
    | error e =>
      rw [engineStart_undecoded hd] at ht
      cases ht
      exact raise_freshRequests s _
    | ok i =>
      rw [engineStart_decoded hd, exec_eq] at ht
      exact endCommand_freshRequests (fun _ => runOf_freshRequests) ht
  | waiting p =>
    rw [blockMove_waiting hp] at ht
    cases ht
    obtain hd | ⟨ans, hd⟩ := codecDraw_cases p s <;> rw [hd]
    · exact .of_phase_eq rfl rfl
    · exact .of_not_waiting rfl nofun
  | answered p ans =>
    rw [blockMove_answered hp] at ht
    refine endCommand_freshRequests (fun u hu => ?_) ht
    obtain ⟨_, -, -, -, rfl⟩ := runUnpk7Answer_ok.mp hu
    exact .of_idle rfl rfl

theorem codecMove_freshRequests (n : Nat) (ans : CodecAnswer) (s : State) : FreshRequests s (codecMove n ans s) := by
  by_cases h : ∃ p, s.phase = .waiting p ∧ p.serial = n
  · obtain ⟨p, hp, rfl⟩ := h
    rw [codecMove_waiting hp]
    exact .of_not_waiting rfl nofun
  · rw [codecMove_discarded fun p hp hn => h ⟨p, hp, hn⟩]
    exact .of_phase_eq rfl rfl

theorem hostMove_freshRequests {m : HostMove} (ht : hostMove m s = .next t) : FreshRequests s t := by
  obtain ⟨_, _, _, rfl⟩ | ⟨v, -, -, rfl⟩ | rfl | ⟨_, _, -, -, rfl⟩ | ⟨_, _, -, -, rfl⟩ := hostMove_effect ht
  · exact .of_phase_eq rfl rfl
  · exact .of_not_waiting rfl nofun
  · exact .of_idle rfl rfl
  · exact .of_phase_eq rfl rfl
  · exact .of_phase_eq rfl rfl

/-- A withdrawn request stays withdrawn in every step (R391). -/
theorem step_withdrawn {n : Nat} (hn : s.Withdrawn n) (ht : step s = .next t) : t.Withdrawn n := by
  obtain ⟨-, _, ht⟩ | ⟨k, ans, _, -, rfl⟩ | ⟨m, _, -, ht⟩ := step_cases ht
  · exact (blockMove_freshRequests ht).withdrawn hn
  · exact (codecMove_freshRequests k ans _).withdrawn hn
  · exact (hostMove_freshRequests ht).withdrawn hn

/-! ### Operand registers in the second step of UNPK7 -/

/-- The state after a second step, with `op` for the operand registers before it: CURSOR alone is kept, where the step ended OK. -/
def State.withOp (s : State) (op : OperandRegs) : State :=
  { s with op := { op with cursor := if s.code = .ok then s.op.cursor else op.cursor } }

/-- R401: the second step of UNPK7 reads no operand register, and writes CURSOR alone, where it ends OK. -/
theorem engineFinish_with_op {p : Pending} {ans : CodecAnswer} (ht : engineFinish p ans s = .next t) (op : OperandRegs) :
    engineFinish p ans { s with op := op } = .next (t.withOp op) := by
  cases ans with
  | fail => cases ht; rfl
  | samples xs =>
    by_cases hlen : xs.length = p.n
    · by_cases hfit : ∀ x ∈ xs, x < 2 ^ p.params.nb
      · rw [engineFinish_samples hlen hfit] at ht ⊢
        cases ht; rfl
      · rw [engineFinish_tooWide hlen (by simpa using hfit)] at ht ⊢
        cases ht; rfl
    · rw [engineFinish_sampleCount hlen] at ht ⊢
      cases ht; rfl

end Sys2Proof.Machine
end

section
/-! PROOFS. The statements of spec/70_reset_and_hazards.md: both resets, and the operands of the second step of UNPK7. -/

namespace Sys2Proof.Machine

/-- Settles O53: a soft reset is a write to CTRL, which is open in every PHASE; no later request gets the serial number of one
that was sent before. -/
theorem softResetKeepsMemories : Obligations.SoftResetKeepsMemories := by
  refine fun s v => ⟨fun hv => ⟨?reset, fun n hn => ⟨hn, nofun⟩⟩, fun h p hp => (h.phase.of_waiting hp).counted,
    fun n hn => ⟨codecMove_discarded hn.2, fun t => step_withdrawn hn⟩, fun hv => ?ignored,
    hostMove_regRead (regAt_of_mem (by decide)) regOpen_ctrl⟩
  case reset => rw [hostMove_ctrlWrite, writeCtrl, if_pos hv]; rfl
  case ignored => rw [hostMove_ctrlWrite, writeCtrl, hv, if_neg Bool.false_ne_true]

/-- Settles O54: the registers one by one; the five that read otherwise are those the statement lists. -/
theorem powerOnResetValues : Obligations.PowerOnResetValues := by
  refine fun cfg mem arr => ⟨fun r hr => ?_, rfl, rfl, rfl, rfl, rfl, rfl, rfl, rfl, rfl⟩
  cases r
  case lastSec | params | bufsize | acells | drtmax => exact absurd (by decide) hr
  case status => exact status_of_idle_ok rfl rfl rfl
  all_goals rfl

/-- Settles O59: power-on reset with any parameters within R6, of which the defaults are one choice. -/
theorem resetIsSound : Obligations.ResetIsSound :=
  ⟨fun _ _ _ => State.powerOn_inv, State.powerOn_inv (by decide) rfl rfl rfl rfl, rfl, rfl, rfl, rfl, rfl, rfl⟩

/-- Settles O40: the second step with other operand registers gives them back, but for CURSOR. -/
theorem secondStepUsesCopies : Obligations.SecondStepUsesCopies := by
  refine fun s t p ans op' ht => ⟨t.withOp op', engineFinish_with_op ht op', rfl, rfl, ?_⟩
  simp [State.withOp]

end Sys2Proof.Machine
end
